-- ==== Sys2Proof/Word.lean ====
section
/-! DEFINITION. The values TRX-STR computes with: the 32-bit word of an integer register, the numeric
systems the parameter `NUM` ranges over (00_scope.md R8), one `NUM` value, and the complex sample
(00_scope.md R11). -/

namespace Sys2Proof

/-- The 32-bit contents of `CMD`, `STATUS`, `CFG` and of every length and counter register (R17). -/
abbrev Word := BitVec 32

/-- The instantiations of the implementation parameter `NUM` (00_scope.md R8). -/
inductive NumSys where
  /-- The rationals with exact arithmetic, the reference instantiation. -/
  | exact
  /-- IEEE 754 binary32. -/
  | f32
  /-- IEEE 754 binary64. -/
  | f64
deriving DecidableEq, Repr

/-- One `NUM` value (R8, R60). Under `NUM = EXACT` only `fin` occurs. Under a floating-point `NUM` a
finite value other than minus zero is the rational it denotes, and the values IEEE 754 adds have
constructors of their own. -/
inductive NumVal where
  /-- A finite value; `fin 0` is plus zero. -/
  | fin (q : Rat)
  /-- The floating-point value minus zero. -/
  | negZero
  /-- An infinity. -/
  | inf (neg : Bool)
  /-- A NaN with its sign and its fraction field. -/
  | nan (neg : Bool) (payload : Nat)
deriving DecidableEq, Repr

/-- A complex sample: the ordered pair (I, Q), I first (R11, R59). -/
structure Cpx where
  re : NumVal
  im : NumVal
deriving DecidableEq, Repr

/-- The complex value (0, 0). -/
def Cpx.zero : Cpx := ⟨.fin 0, .fin 0⟩

end Sys2Proof
end

