-- ==== Sys2Proof/Config.lean ====
section
/-! DEFINITION. What an implementation fixes (00_scope.md R7) and the free values of the points the spec
leaves open. A free value is a constant with no body: nothing can be proved of its value. -/

namespace Sys2Proof

/-- The implementation parameters of one instance (R7; the list of open parameters in 92_eei_decisions.md). `FW`
follows from `num`. How a register number or an element index becomes a bus address is the platform's (log 14). -/
structure Params where
  /-- `NUM`. -/
  num : NumSys
  capBit : Nat
  capSym : Nat
  capUp : Nat
  capPul : Nat
  capRx : Nat
  capMf : Nat
  /-- `CAP_OUT`, the capacity of each of OUT, DERR and DTAU. -/
  capOut : Nat
  /-- `REG_BASE`, the bus address of register 0 (20_memory.md R34, 93 U21). No rule depends on it. -/
  regBase : Nat
  /-- `BUF_BASE[0..9]`, the bus address of element 0 of each buffer space (20_memory.md R34, 93 U21). No rule
  depends on them. -/
  bufBase : Vector Nat 10
deriving DecidableEq, Repr

/-- `FW`, the width of one floating-point value; R60: there is no bit image under `NUM = EXACT`. -/
def Params.fw (p : Params) : Option Nat :=
  match p.num with
  | .exact => none
  | .f32 => some 32
  | .f64 => some 64

/-- The instance `State.reset` describes. DESIGN CHOICE (unsafe, log 1): the spec leaves every parameter
open. -/
def Params.default : Params where
  num := .exact
  capBit := 1048576
  capSym := 1048576
  capUp := 1048576
  capPul := 1048576
  capRx := 1048576
  capMf := 1048576
  capOut := 1048576
  regBase := 0
  bufBase := Vector.ofFn fun k => (k.val + 1) * 16777216

/-! Contents of elements nothing has written since reset number `era` (10_state.md R31, 93 U4): arbitrary,
the same on every read until written (log 2, log 6). -/

/-- An unwritten element of BIT. -/
opaque Config.resetBit : (era index : Nat) → Bool

/-- One part (0 is I or the value itself, 1 is Q) of an unwritten `NUM` or complex element, `NUM = EXACT`. -/
opaque Config.resetRat : (era space index part : Nat) → Rat

/-- The same under a floating-point `NUM`, as a bit image. -/
opaque Config.resetImage : (era space index part : Nat) → BitVec 64

/-- An unwritten element of DTAU. -/
opaque Config.resetWord : (era index : Nat) → Word

/-! Values that non-finite arithmetic leaves unspecified (93 U3), one for every place (`site`) of every
computation (`epoch`), and the values of reads outside a buffer (20_memory.md R38) (log 4, log 5, log 12). -/

/-- An unspecified `NUM` value, `NUM = EXACT`. -/
opaque Config.openRat : (epoch site : Nat) → Rat

/-- An unspecified `NUM` value under a floating-point `NUM`, as a bit image. -/
opaque Config.openImage : (epoch site : Nat) → BitVec 64

/-- The outcome of a comparison with a non-finite operand. -/
opaque Config.openBool : (epoch site : Nat) → Bool

/-- The result of rounding a non-finite value to an integer. -/
opaque Config.openInt : (epoch site : Nat) → Int

/-- The word a read outside every buffer returns. -/
opaque Config.openWord : (epoch : Nat) → Word

end Sys2Proof
end

