-- ==== Sys2Proof/Syntax.lean ====
section
/-! DEFINITION. The instructions of TRX-STR, one constructor per row of spec/opcode_table.json
(00_scope.md R2, 30_encoding.md R47, R51, R52), and the host transactions of the host script
(30_encoding.md R61). -/

namespace Sys2Proof

/-- The nine commands and the four micro-operations. No instruction has an operand: every operand is a
register or a buffer (30_encoding.md R48). -/
inductive Instr where
  | nop
  | map
  | ups
  | shape
  | mfilt
  | init
  | step
  | run
  | srst
  /-- Micro-operation: Gardner detector on amplitudes. -/
  | tedGa
  /-- Micro-operation: Gardner detector on complex samples. -/
  | tedGc
  /-- Micro-operation: zero-crossing (sign) detector. -/
  | tedZc
  /-- Micro-operation: the loop-filter update. -/
  | lfUpd
deriving DecidableEq, Repr

/-- What one register or element carries through a host port (20_memory.md R35, R36): a 32-bit word, one
`NUM` value, or a complex pair. -/
inductive PortVal where
  | word (w : Word)
  | num (x : NumVal)
  | cpx (z : Cpx)
deriving DecidableEq, Repr

/-- One host transaction (30_encoding.md R61), or the reset event (70_reset_and_hazards.md R111). -/
inductive HostOp where
  /-- `WR`: write register number `r`. -/
  | wr (r : Nat) (v : PortVal)
  /-- `RD`: read register number `r`. -/
  | rd (r : Nat)
  /-- `WB`: write element `n` of buffer space `sp`. -/
  | wb (sp n : Nat) (v : PortVal)
  /-- `RB`: read element `n` of buffer space `sp`. -/
  | rb (sp n : Nat)
  /-- Power-on or the external reset input. -/
  | reset
deriving DecidableEq, Repr

end Sys2Proof
end

