-- ==== Sys2Proof/WellFormed.lean ====
section
/-! DEFINITION. Well-formedness: instructions (which have no operand to check, 30_encoding.md R48),
implementation parameters (00_scope.md R7) and the form of the value a host write carries
(10_state.md R17, 20_memory.md R36). -/

namespace Sys2Proof

/-- Every instruction is well formed: no operand stands in it (30_encoding.md R48). -/
def Instr.wf : Instr → Bool
  | .nop => true
  | .map => true
  | .ups => true
  | .shape => true
  | .mfilt => true
  | .init => true
  | .step => true
  | .run => true
  | .srst => true
  | .tedGa => true
  | .tedGc => true
  | .tedZc => true
  | .lfUpd => true

/-- A capacity: at least `least`, below 2^31 (00_scope.md R7). -/
def capOk (least cap : Nat) : Bool := decide (least ≤ cap) && decide (cap < 2147483648)

/-- The eleven spaces do not overlap (20_memory.md R33; the list of open parameters in 92_eei_decisions.md), so no
two of them have their first address in common (log 14). -/
def Params.basesDistinct (p : Params) : Bool := decide (p.regBase :: p.bufBase.toList).Nodup

/-- The constraints of 00_scope.md R7 and 20_memory.md R34 on the implementation parameters. -/
def Params.wf (p : Params) : Bool :=
  capOk 1 p.capBit && capOk 7 p.capSym && capOk 1 p.capUp && capOk 1 p.capPul && capOk 1 p.capRx
    && capOk 1 p.capMf && capOk 1 p.capOut && decide (p.capMf + 2 * 32768 < 2147483648)
    && p.basesDistinct

/-- The forms a port value can have. -/
inductive PortForm where
  | word
  | num
  | cpx
deriving DecidableEq, Repr

def PortVal.form : PortVal → PortForm
  | .word _ => .word
  | .num _ => .num
  | .cpx _ => .cpx

/-- The form of the value a register the host may write takes (10_state.md R17); `none` where the host's
write is ignored whatever it carries. -/
def regWriteForm : Nat → Option PortForm
  | 0 => some .word
  | 2 => some .word
  | 3 => some .word
  | 4 => some .num
  | 5 => some .num
  | 6 => some .num
  | 7 => some .word
  | 8 => some .word
  | _ => none

/-- The form of the value an element of a space the host may write takes (20_memory.md R33, R36). -/
def spaceWriteForm : Nat → Option PortForm
  | 0 => some .word
  | 4 => some .cpx
  | _ => none

/-- A host transaction whose value has the form its destination takes. -/
def HostOp.wf : HostOp → Bool
  | .wr r v => match regWriteForm r with
    | some f => decide (v.form = f)
    | none => true
  | .rd _ => true
  | .wb sp _ v => match spaceWriteForm sp with
    | some f => decide (v.form = f)
    | none => true
  | .rb _ _ => true
  | .reset => true

end Sys2Proof
end

