-- ==== Sys2Proof/Decode.lean ====
section
/-! DEFINITION. Decoding a command word (30_encoding.md R46, R47, R49) and a selector image
(30_encoding.md R51, R52), total and rejecting by name, and the encoder beside it. -/

namespace Sys2Proof

/-- Where an instruction's bits stand: a command word written to `CMD`, or the image of `CFG` that selects
a micro-operation (the `space` of spec/opcode_table.json). -/
inductive CodeSpace where
  | command
  | selector
deriving DecidableEq, Repr

/-- One encoded instruction. -/
structure Code where
  space : CodeSpace
  bits : Word
deriving DecidableEq, Repr

/-- Why a code names no instruction. -/
inductive DecodeError where
  /-- Bits 31:8 of a command word are not 0 (R46, R49). -/
  | zeroFieldNonzero
  /-- `OPC` is 0x08 to 0x0E or 0x10 to 0xFF (R49). -/
  | reservedOpcode
  /-- `TED_SEL` = 3 and `WRAP_SEL` = 1: no micro-operation (R51, R52). -/
  | unsupportedSelector
deriving DecidableEq, Repr

/-- The outcome of decoding. -/
inductive Decoded where
  | ok (i : Instr)
  | rejected (e : DecodeError)
deriving DecidableEq, Repr

def Decoded.toOption : Decoded → Option Instr
  | .ok i => some i
  | .rejected _ => none

/-- Field `OPC`, bits 7:0 (R46). -/
def opcField (w : Word) : Nat := (w.extractLsb' 0 8).toNat

/-- Field `ZERO`, bits 31:8 (R46). -/
def zeroField (w : Word) : Nat := (w.extractLsb' 8 24).toNat

/-- The opcode map of 30_encoding.md R47; every other word is reserved (R49). -/
def decodeCommand (w : Word) : Decoded :=
  if zeroField w ≠ 0 then .rejected .zeroFieldNonzero
  else match opcField w with
    | 0x00 => .ok .nop
    | 0x01 => .ok .map
    | 0x02 => .ok .ups
    | 0x03 => .ok .shape
    | 0x04 => .ok .mfilt
    | 0x05 => .ok .init
    | 0x06 => .ok .step
    | 0x07 => .ok .run
    | 0x0F => .ok .srst
    | _ => .rejected .reservedOpcode

/-- The micro-operation a selector image names: the first row of spec/opcode_table.json that matches it
(30_encoding.md R51: `TED_SEL`, bits 1:0; R52: `WRAP_SEL`, bit 2). A `CFG` image selects a detector and an
accumulator at once, so where `TED_SEL` names a detector the image reads as that detector (log 10). -/
def decodeSelector (c : Word) : Decoded :=
  match (c.extractLsb' 0 2).toNat with
  | 0 => .ok .tedGa
  | 1 => .ok .tedGc
  | 2 => .ok .tedZc
  | _ => if c.getLsbD 2 then .rejected .unsupportedSelector else .ok .lfUpd

/-- Decoding is total: every code is an instruction or is rejected by name. -/
def decode (c : Code) : Decoded :=
  match c.space with
  | .command => decodeCommand c.bits
  | .selector => decodeSelector c.bits

/-- The code of an instruction: the match values of 30_encoding.md R47, and for a micro-operation the
selector image that names it alone (R51, R52; for `LF.UPD` the image with `WRAP_SEL` = 0 and no detector). -/
def encode : Instr → Code
  | .nop => ⟨.command, 0x00000000⟩
  | .map => ⟨.command, 0x00000001⟩
  | .ups => ⟨.command, 0x00000002⟩
  | .shape => ⟨.command, 0x00000003⟩
  | .mfilt => ⟨.command, 0x00000004⟩
  | .init => ⟨.command, 0x00000005⟩
  | .step => ⟨.command, 0x00000006⟩
  | .run => ⟨.command, 0x00000007⟩
  | .srst => ⟨.command, 0x0000000F⟩
  | .tedGa => ⟨.selector, 0x00000000⟩
  | .tedGc => ⟨.selector, 0x00000001⟩
  | .tedZc => ⟨.selector, 0x00000002⟩
  | .lfUpd => ⟨.selector, 0x00000003⟩

/-- The code that an opcode-table row of `nbits` bits with bits `w` stands for: the rows of micro-operations
have at most one byte of bits, the rows of commands four (log 10). -/
def tableCode (nbits w : Nat) : Code :=
  ⟨if nbits ≤ 8 then .selector else .command, BitVec.ofNat 32 (w % 2 ^ nbits)⟩

/-- The instruction the decoder reads from an opcode-table word of `nbits` bits. -/
def decodeTableWord (nbits w : Nat) : Option Instr :=
  (decode (tableCode nbits w)).toOption

end Sys2Proof
end

