-- ==== Sys2Proof/Machine/State.lean ====
section
/-! DEFINITION. The whole state of one TRX-STR instance (10_state.md R13), the host agent as plain data, the
reasons a step can end without a next state, and the state after reset (10_state.md R31). -/

namespace Sys2Proof.Machine

/-- The error codes of 60_exceptions.md R101. -/
inductive ErrCode where
  | none
  | nsps
  | den
  | ted
  | wrap
  | seq
  | cap
  | opc
deriving DecidableEq, Repr

/-- The stop causes of 45_timing_loop.md R84. -/
inductive StopCause where
  | none
  | eob
  | low
  | full
deriving DecidableEq, Repr

/-- The fields of `STATUS` (10_state.md R19) but `BUSY`, which is 1 exactly when `State.eng` is a command in
flight (log 9). Reserved bits read 0 and need no storage (30_encoding.md R55). -/
structure Status where
  done : Bool
  err : Bool
  stop : Bool
  initOk : Bool
  mfOk : Bool
  cmdOvr : Bool
  errCode : ErrCode
  stopCause : StopCause
deriving DecidableEq, Repr

/-- The fields of `CFG` (10_state.md R20). Reserved bits read 0 and ignore writes. -/
structure Cfg where
  tedSel : BitVec 2
  wrapSel : Bool
  idxSel : Bool
  syncEn : Bool
deriving DecidableEq, Repr

/-- The registers of 10_state.md R17; `CMD` has no readable content (R18) and no field. -/
structure Regs where
  status : Status
  cfg : Cfg
  nsps : Word
  bnts : NumVal
  kp : NumVal
  qamp : NumVal
  nbit : Word
  nrx : Word
  k1 : NumVal
  k2 : NumVal
  p1 : NumVal
  p2 : NumVal
  tau : Word
  kidx : Word
  nsym : Word
  nup : Word
  npul : Word
  nmf : Word
  nout : Word
  clampTot : Word
  clampCon : Word
deriving DecidableEq, Repr

/-- One buffer: the elements written since reset, as (index, element) pairs with strictly rising indices. An
index that is not listed has not been written and reads as a free value (10_state.md R31, log 2). -/
abbrev Buf (α : Type) := List (Nat × α)

/-- The nine writable buffers of 10_state.md R29. -/
structure Memory where
  bit : Buf Bool
  sym : Buf Cpx
  up : Buf Cpx
  pul : Buf Cpx
  rx : Buf Cpx
  mf : Buf Cpx
  out : Buf Cpx
  derr : Buf NumVal
  dtau : Buf Word
deriving DecidableEq, Repr

/-- What the engine is in the middle of (45_timing_loop.md R81; log 9, log 10). -/
inductive Activity where
  /-- `STATUS.BUSY = 0`: nothing in flight. -/
  | idle
  /-- `STATUS.BUSY = 1`: the latched command word, and how many host transactions still land before it
  completes (93 U22). -/
  | command (w : Word) (left : Nat)
  /-- One micro-operation on its own, named by its selector image. No host transaction brings this about. -/
  | inner (sel : Word)
deriving DecidableEq, Repr

/-- TRX-STR and its host. -/
structure State where
  /-- The implementation parameters; no step changes them (log 1). -/
  par : Params
  regs : Regs
  mem : Memory
  eng : Activity
  /-- The detector output on its way to the loop filter (45_timing_loop.md R82; the model's own, log 10). -/
  err : NumVal
  /-- The host's coming transactions, first one first (the model's own, log 7). -/
  script : List HostOp
  /-- What the host's reads returned, latest first (the model's own, log 7). -/
  seen : List PortVal
  /-- For each coming command, how many host transactions land while it executes; a command beyond the list
  is one atomic transition (the model's own, log 9). -/
  lat : List Nat
  /-- The counter behind the free values of computations (the model's own, log 5). -/
  epoch : Nat
  /-- The number of hardware resets so far (the model's own, log 6). -/
  era : Nat
deriving DecidableEq, Repr

/-- The machine has no fault: a command error is a next state (60_exceptions.md R98), every command completes
(70_reset_and_hazards.md R119), and no access stops the engine. Nothing raises a fault; that is safe. -/
inductive Fault where
deriving DecidableEq, Repr

/-- Why a step has no next state. No instruction ends in one of these. -/
inductive Refusal where
  /-- An instruction without a meaning; raised by no arm of `exec`. Safe. -/
  | notModelled (mnemonic : String)
  /-- A host access other than a read of `STATUS`, a write to `CMD` or a reset while a command executes
  (93 U5: a model excludes such traces). Raised by `busyAccess`. Safe. -/
  | accessWhileBusy
  /-- A host write whose value has not the form its destination takes: no port can carry it (20_memory.md
  R35, R36). Raised by `hostAccess` and `busyAccess`. Safe. -/
  | portForm
  /-- A host write of a value that is not one of the numeric domain `NUM` (00_scope.md R8). Raised by
  `hostAccess`. Safe. -/
  | notInDomain
  /-- A selector image that names no micro-operation (30_encoding.md R51, R52). Raised by `engineInner`. Safe. -/
  | noMicroOp
deriving DecidableEq, Repr

/-- `STATUS` = 0 (10_state.md R31). -/
def Status.reset : Status where
  done := false
  err := false
  stop := false
  initOk := false
  mfOk := false
  cmdOvr := false
  errCode := .none
  stopCause := .none

/-- `CFG` = 0 (10_state.md R31). -/
def Cfg.reset : Cfg where
  tedSel := 0
  wrapSel := false
  idxSel := false
  syncEn := false

/-- The register values of 10_state.md R31: all 0 but `QAMP` = 1. -/
def Regs.reset : Regs where
  status := .reset
  cfg := .reset
  nsps := 0
  bnts := .fin 0
  kp := .fin 0
  qamp := .fin 1
  nbit := 0
  nrx := 0
  k1 := .fin 0
  k2 := .fin 0
  p1 := .fin 0
  p2 := .fin 0
  tau := 0
  kidx := 0
  nsym := 0
  nup := 0
  npul := 0
  nmf := 0
  nout := 0
  clampTot := 0
  clampCon := 0

/-- No element written: every one is unspecified (10_state.md R31). -/
def Memory.unwritten : Memory where
  bit := []
  sym := []
  up := []
  pul := []
  rx := []
  mf := []
  out := []
  derr := []
  dtau := []

/-- The instance with parameters `p` right after reset (70_reset_and_hazards.md R111). -/
def State.resetOf (p : Params) : State where
  par := p
  regs := .reset
  mem := .unwritten
  eng := .idle
  err := .fin 0
  script := []
  seen := []
  lat := []
  epoch := 0
  era := 0

/-- The machine right after reset; the instance is the DESIGN CHOICE of log 1. -/
def State.reset : State := State.resetOf Params.default

end Sys2Proof.Machine
end

