-- ==== Sys2Proof/Machine/Num.lean ====
section
/-! DEFINITION. Arithmetic of the numeric domain `NUM` (00_scope.md R8, R9, R11): exact rationals, or IEEE 754
binary32 and binary64 with each operation correctly rounded, ties to even (93 G1; log 3). A result that is not
finite is the one value `poison`, which every operation passes on; where such a result would be stored the
spec leaves the contents unspecified (93 U3), and `settle` puts a free value there (log 4), from which later rules
compute as from any other value (log 23). -/

namespace Sys2Proof.Machine

/-! ## Rounding -/

/-- `round(x)`: the nearest integer, ties to even (00_scope.md R11). -/
def roundEven (q : Rat) : Int :=
  let f := q.floor
  let r := q - f
  if r < 1 / 2 then f
  else if 1 / 2 < r then f + 1
  else if f % 2 = 0 then f else f + 1

/-- Two to an integer power. -/
def twoPow (e : Int) : Rat :=
  if 0 ≤ e then ((2 ^ e.toNat : Nat) : Rat) else 1 / ((2 ^ (-e).toNat : Nat) : Rat)

/-- The integer `e` with 2^e ≤ |q| < 2^(e+1), for `q` other than 0. -/
def floorLog2 (q : Rat) : Int :=
  let a : Rat := |q|
  let e : Int := (Nat.log2 a.num.natAbs : Int) - (Nat.log2 a.den : Int)
  if a < twoPow e then e - 1 else if twoPow (e + 1) ≤ a then e + 1 else e

/-- A binary interchange format: precision (hidden bit included) and exponent width (30_encoding.md R60). -/
structure Fmt where
  prec : Nat
  expBits : Nat
deriving DecidableEq, Repr

def Fmt.b32 : Fmt := ⟨24, 8⟩
def Fmt.b64 : Fmt := ⟨53, 11⟩

/-- The format of a floating-point `NUM`; none under `NUM = EXACT` (R60). -/
def fmtOf : NumSys → Option Fmt
  | .exact => none
  | .f32 => some Fmt.b32
  | .f64 => some Fmt.b64

/-- The exponent bias, which is also the greatest exponent of a finite value. -/
def Fmt.bias (f : Fmt) : Int := 2 ^ (f.expBits - 1) - 1

/-- The least exponent of a normal value. -/
def Fmt.emin (f : Fmt) : Int := 1 - f.bias

/-- The exponent of the last place of the values of magnitude about |q|. -/
def Fmt.quantum (f : Fmt) (q : Rat) : Int := max (floorLog2 q) f.emin - ((f.prec : Int) - 1)

/-- What every operation gives that IEEE 754 or the rationals leave without a finite result (93 U3). -/
def poison : NumVal := .nan false 0

/-- Round an exact result to the format, ties to even; `z` is the sign of a zero result, and a result beyond
the greatest finite value is an overflow (93 U3). -/
def roundTo (f : Fmt) (z : Bool) (q : Rat) : NumVal :=
  if q = 0 then (if z then .negZero else .fin 0)
  else
    let v : Rat := (roundEven (q / twoPow (f.quantum q)) : Rat) * twoPow (f.quantum q)
    if v = 0 then (if q < 0 then .negZero else .fin 0)
    else if twoPow (f.bias + 1) ≤ |v| then poison
    else .fin v

/-- The result of an operation whose exact value is `q`, in the numeric system `y`. -/
def numRound (y : NumSys) (z : Bool) (q : Rat) : NumVal :=
  match fmtOf y with
  | none => .fin q
  | some f => roundTo f z q

/-! ## Values -/

/-- The rational a finite value denotes. -/
def numVal : NumVal → Option Rat
  | .fin q => some q
  | .negZero => some 0
  | .inf _ => none
  | .nan _ _ => none

/-- The sign bit of a finite value. -/
def numNegative : NumVal → Bool
  | .fin q => decide (q < 0)
  | .negZero => true
  | .inf n => n
  | .nan n _ => n

/-- An integer converted exactly to `NUM` (44_loop_filter.md R76, R79; log 16). -/
def numOfInt (n : Int) : NumVal := .fin n

/-! ## Operations (00_scope.md R8, R11) -/

/-- Exact negation; under `NUM = EXACT` there is no minus zero. -/
def numNeg (y : NumSys) : NumVal → NumVal
  | .fin q => if q = 0 then (match y with | .exact => .fin 0 | .f32 => .negZero | .f64 => .negZero) else .fin (-q)
  | .negZero => .fin 0
  | .inf n => .inf (!n)
  | .nan n p => .nan (!n) p

def numAdd (y : NumSys) (a b : NumVal) : NumVal :=
  match numVal a, numVal b with
  | some p, some q => numRound y (numNegative a && numNegative b) (p + q)
  | _, _ => poison

def numSub (y : NumSys) (a b : NumVal) : NumVal := numAdd y a (numNeg y b)

def numMul (y : NumSys) (a b : NumVal) : NumVal :=
  match numVal a, numVal b with
  | some p, some q => numRound y (numNegative a != numNegative b) (p * q)
  | _, _ => poison

/-- Division; a zero divisor has no finite result (no rule divides by zero: `den` is tested first). -/
def numDiv (y : NumSys) (a b : NumVal) : NumVal :=
  match numVal a, numVal b with
  | some p, some q => if q = 0 then poison else numRound y (numNegative a != numNegative b) (p / q)
  | _, _ => poison

/-- `sign(x)`: +1, −1, and 0 at zero (00_scope.md R11). -/
def numSign (x : NumVal) : NumVal :=
  match numVal x with
  | some q => if 0 < q then .fin 1 else if q < 0 then .fin (-1) else .fin 0
  | none => poison

/-- A value that compares equal to zero; a value that is not finite does not (44_loop_filter.md R78). -/
def numIsZero (x : NumVal) : Bool :=
  match numVal x with
  | some q => decide (q = 0)
  | none => false

/-! ## Where 93 U3 leaves a value unspecified -/

/-- The value of a bit image of `p + e` bits (30_encoding.md R60). -/
def ofImage (f : Fmt) (b : Nat) : NumVal :=
  let frac := b % 2 ^ (f.prec - 1)
  let e := b / 2 ^ (f.prec - 1) % 2 ^ f.expBits
  let neg : Bool := decide (b / 2 ^ (f.prec - 1 + f.expBits) % 2 = 1)
  if e = 2 ^ f.expBits - 1 then (if frac = 0 then .inf neg else .nan neg frac)
  else if e = 0 then
    if frac = 0 then (if neg then .negZero else .fin 0)
    else
      let m : Rat := (frac : Rat) * twoPow (f.emin - ((f.prec : Int) - 1))
      .fin (if neg then -m else m)
  else
    let m : Rat := ((2 ^ (f.prec - 1) + frac : Nat) : Rat) * twoPow ((e : Int) - f.bias - ((f.prec : Int) - 1))
    .fin (if neg then -m else m)

/-- The bit image of a value, where it has one (30_encoding.md R60). -/
def toImage (f : Fmt) (x : NumVal) : Option Nat :=
  let top := fun (neg : Bool) => if neg then 2 ^ (f.prec - 1 + f.expBits) else 0
  let ones := (2 ^ f.expBits - 1) * 2 ^ (f.prec - 1)
  match x with
  | .negZero => some (top true)
  | .inf n => some (top n + ones)
  | .nan n p => if 0 < p ∧ p < 2 ^ (f.prec - 1) then some (top n + ones + p) else none
  | .fin q =>
    if q = 0 then some 0
    else
      let m : Rat := |q| / twoPow (f.quantum q)
      if m.den ≠ 1 ∨ twoPow (f.bias + 1) ≤ |q| then none
      else
        let k := m.num.natAbs
        if k < 2 ^ (f.prec - 1) then some (top (decide (q < 0)) + k)
        else some (top (decide (q < 0)) + (floorLog2 q + f.bias).toNat * 2 ^ (f.prec - 1) + (k - 2 ^ (f.prec - 1)))

/-- The values a `NUM` register or element can hold: the rationals, or what has a bit image (R8, R60). -/
def inDomain (y : NumSys) (x : NumVal) : Bool :=
  match fmtOf y with
  | none => match x with
    | .fin _ => true
    | .negZero => false
    | .inf _ => false
    | .nan _ _ => false
  | some f => (toImage f x).isSome

/-- A free `NUM` value read from a free rational, or from a free bit image (log 4). -/
def freeNum (y : NumSys) (q : Rat) (image : BitVec 64) : NumVal :=
  match y with
  | .exact => .fin q
  | .f32 => ofImage Fmt.b32 (image.setWidth 32).toNat
  | .f64 => ofImage Fmt.b64 image.toNat

/-- The unspecified value of place `site` of computation `epoch` (93 U3; log 4, log 5). -/
def openNum (y : NumSys) (epoch site : Nat) : NumVal :=
  freeNum y (Config.openRat epoch site) (Config.openImage epoch site)

/-- What is stored where a rule stores `x`: `x` itself when it is finite, a free value otherwise (93 U3). DESIGN CHOICE
(unsafe, log 23): once stored, a free value is a value like any other, which later rules copy and compute from, where
93 U3 calls every value derived from it unspecified too. -/
def settle (y : NumSys) (epoch site : Nat) (x : NumVal) : NumVal :=
  match x with
  | .fin q => .fin q
  | .negZero => .negZero
  | .inf _ => openNum y epoch site
  | .nan _ _ => openNum y epoch site

/-- Both parts of a complex value stored; the places are `site` and `site + 1`. -/
def settleCpx (y : NumSys) (epoch site : Nat) (z : Cpx) : Cpx :=
  ⟨settle y epoch site z.re, settle y epoch (site + 1) z.im⟩

/-- `a < b`; free when an operand is not finite (93 U3). -/
def numLt (epoch site : Nat) (a b : NumVal) : Bool :=
  match numVal a, numVal b with
  | some p, some q => decide (p < q)
  | _, _ => Config.openBool epoch site

/-- `clamp(x, −1, 1)` (00_scope.md R11); the comparisons are the places `site` and `site + 1`. -/
def numClamp (epoch site : Nat) (x : NumVal) : NumVal :=
  if numLt epoch site x (.fin (-1)) then .fin (-1)
  else if numLt epoch (site + 1) (.fin 1) x then .fin 1
  else x

/-- `round(x)`; free when `x` is not finite (93 U3). -/
def numRoundInt (epoch site : Nat) (x : NumVal) : Int :=
  match numVal x with
  | some q => roundEven q
  | none => Config.openInt epoch site

/-! ## Complex values (00_scope.md R11) -/

def cpxConj (y : NumSys) (a : Cpx) : Cpx := ⟨a.re, numNeg y a.im⟩
def cpxAdd (y : NumSys) (a b : Cpx) : Cpx := ⟨numAdd y a.re b.re, numAdd y a.im b.im⟩
def cpxSub (y : NumSys) (a b : Cpx) : Cpx := ⟨numSub y a.re b.re, numSub y a.im b.im⟩
def cpxMul (y : NumSys) (a b : Cpx) : Cpx :=
  ⟨numSub y (numMul y a.re b.re) (numMul y a.im b.im), numAdd y (numMul y a.re b.im) (numMul y a.im b.re)⟩
def cpxScale (y : NumSys) (r : NumVal) (a : Cpx) : Cpx := ⟨numMul y r a.re, numMul y r a.im⟩

end Sys2Proof.Machine
end

