-- ==== Sys2Proof/Machine/Flags.lean ====
section
/-! DEFINITION. The status and configuration words as the host sees them (10_state.md R19, R20), and every
change the rules make to the flags. TRX-STR has no carry, overflow, zero or sign flag (10_state.md R28). -/

namespace Sys2Proof.Machine

/-- `ERRCODE` (60_exceptions.md R101). -/
def ErrCode.code : ErrCode → BitVec 4
  | .none => 0
  | .nsps => 1
  | .den => 2
  | .ted => 3
  | .wrap => 4
  | .seq => 5
  | .cap => 6
  | .opc => 7

/-- `STOPCAUSE` (10_state.md R19, 45_timing_loop.md R84). -/
def StopCause.code : StopCause → BitVec 2
  | .none => 0
  | .eob => 1
  | .low => 2
  | .full => 3

/-- The image of `STATUS` (10_state.md R19), bit 31 first. -/
def Status.image (b : Bool) (t : Status) : Word :=
  (0#18 ++ t.stopCause.code ++ t.errCode.code ++ 0#1 ++ BitVec.ofBool t.cmdOvr ++ BitVec.ofBool t.mfOk
    ++ BitVec.ofBool t.initOk ++ BitVec.ofBool t.stop ++ BitVec.ofBool t.err ++ BitVec.ofBool t.done
    ++ BitVec.ofBool b : BitVec 32)

/-- The image of `CFG` (10_state.md R20): reserved bits read 0 (30_encoding.md R55). -/
def Cfg.image (c : Cfg) : Word :=
  (0#27 ++ BitVec.ofBool c.syncEn ++ BitVec.ofBool c.idxSel ++ BitVec.ofBool c.wrapSel ++ c.tedSel : BitVec 32)

/-- What a host write of `w` leaves in `CFG`: reserved bits are not stored (10_state.md R20). -/
def Cfg.ofImage (w : Word) : Cfg where
  tedSel := w.extractLsb' 0 2
  wrapSel := w.getLsbD 2
  idxSel := w.getLsbD 3
  syncEn := w.getLsbD 4

/-- `STATUS.BUSY` (10_state.md R19): a command is in flight (log 9). -/
def State.busy (s : State) : Bool :=
  match s.eng with
  | .idle => false
  | .command _ _ => true
  | .inner _ => false

/-- Acceptance (60_exceptions.md R99 (1)): `DONE`, `ERR` and `ERRCODE` are cleared. -/
def Status.accepted (t : Status) : Status := { t with done := false, err := false, errCode := .none }

/-- Completion (R99 (4)): `DONE` is set. -/
def Status.completed (t : Status) : Status := { t with done := true }

/-- `fail(code)` (60_exceptions.md R100): `ERR` and `ERRCODE`, then completion. -/
def Status.failed (c : ErrCode) (t : Status) : Status := { t with err := true, errCode := c, done := true }

/-- `stop(cause)` (45_timing_loop.md R84). -/
def Status.stopped (c : StopCause) (t : Status) : Status := { t with stop := true, stopCause := c }

/-- A successful INIT (44_loop_filter.md R78). -/
def Status.runStarted (t : Status) : Status := { t with stop := false, stopCause := .none, initOk := true }

/-- A host write to `CFG`, `BNTS` or `KP`, and the first act of INIT (20_memory.md R37, 44_loop_filter.md R78). -/
def Status.initCleared (t : Status) : Status := { t with initOk := false }

/-- A host write to `NRX` or RX, and the first act of MFILT (20_memory.md R37, 42_matched_filter.md R69). -/
def Status.mfCleared (t : Status) : Status := { t with mfOk := false }

/-- A successful MFILT (42_matched_filter.md R69). -/
def Status.mfValid (t : Status) : Status := { t with mfOk := true }

/-- A dropped write to `CMD` (70_reset_and_hazards.md R113). -/
def Status.overrun (t : Status) : Status := { t with cmdOvr := true }

end Sys2Proof.Machine
end

