-- ==== Sys2Proof/Machine/Ops.lean ====
section
/-! DEFINITION. The named operations over the buffers and registers (20_memory.md), and the life of a command:
acceptance, command error, completion (60_exceptions.md R99, R100). A command error is what TRX-STR has in place
of an exception; there is no return from one but the acceptance of the next command (60_exceptions.md R105). -/

namespace Sys2Proof.Machine

/-! ## One buffer -/

/-- The element written at index `n`, if one was. -/
def Buf.get? {α : Type} : Buf α → Nat → Option α
  | [], _ => none
  | (a, v) :: r, n => if a = n then some v else Buf.get? r n

/-- Write one element, keeping the indices strictly rising. -/
def Buf.put {α : Type} (n : Nat) (v : α) : Buf α → Buf α
  | [] => [(n, v)]
  | (a, w) :: r =>
    if n < a then (n, v) :: (a, w) :: r
    else if n = a then (n, v) :: r
    else (a, w) :: Buf.put n v r

/-- The pairs of the elements `vs` at the indices from `i` on. -/
def Buf.number {α : Type} : Nat → List α → Buf α
  | _, [] => []
  | i, v :: r => (i, v) :: Buf.number (i + 1) r

/-- Write the elements `vs` at the indices 0, 1, …; elements above keep what they hold (93 U4). -/
def Buf.fill {α : Type} (vs : List α) (b : Buf α) : Buf α :=
  Buf.number 0 vs ++ b.filter (fun c => decide (vs.length ≤ c.1))

/-- The canonical form of one buffer: strictly rising indices. -/
def Buf.rising {α : Type} : Buf α → Bool
  | [] => true
  | (a, _) :: r => (match r with
    | [] => true
    | (b, _) :: _ => decide (a < b)) && Buf.rising r

/-- Every index lies below the capacity (20_memory.md R33, R39). -/
def Buf.below {α : Type} (cap : Nat) (b : Buf α) : Bool := b.all (fun c => decide (c.1 < cap))

/-- The canonical form of the memory. -/
def Memory.wf (m : Memory) : Bool :=
  Buf.rising m.bit && Buf.rising m.sym && Buf.rising m.up && Buf.rising m.pul && Buf.rising m.rx
    && Buf.rising m.mf && Buf.rising m.out && Buf.rising m.derr && Buf.rising m.dtau

/-- No buffer holds an element at or above its capacity (10_state.md R29). -/
def Memory.inCap (p : Params) (m : Memory) : Bool :=
  Buf.below p.capBit m.bit && Buf.below p.capSym m.sym && Buf.below p.capUp m.up && Buf.below p.capPul m.pul
    && Buf.below p.capRx m.rx && Buf.below p.capMf m.mf && Buf.below p.capOut m.out
    && Buf.below p.capOut m.derr && Buf.below p.capOut m.dtau

/-! ## The complex buffers by name (20_memory.md R33) -/

/-- The buffers whose elements are complex. -/
inductive CBuf where
  | sym
  | up
  | pul
  | rx
  | mf
  | out
deriving DecidableEq, Repr

/-- The space number (20_memory.md R33). -/
def CBuf.space : CBuf → Nat
  | .sym => 1
  | .up => 2
  | .pul => 3
  | .rx => 4
  | .mf => 5
  | .out => 6

def CBuf.cap (p : Params) : CBuf → Nat
  | .sym => p.capSym
  | .up => p.capUp
  | .pul => p.capPul
  | .rx => p.capRx
  | .mf => p.capMf
  | .out => p.capOut

def Memory.cbuf (m : Memory) : CBuf → Buf Cpx
  | .sym => m.sym
  | .up => m.up
  | .pul => m.pul
  | .rx => m.rx
  | .mf => m.mf
  | .out => m.out

def Memory.setCbuf (m : Memory) (c : CBuf) (b : Buf Cpx) : Memory :=
  match c with
  | .sym => { m with sym := b }
  | .up => { m with up := b }
  | .pul => { m with pul := b }
  | .rx => { m with rx := b }
  | .mf => { m with mf := b }
  | .out => { m with out := b }

/-! ## Reading one element: what was written, or the stable arbitrary contents of 10_state.md R31 -/

/-- The unspecified contents of one `NUM` part of an unwritten element (10_state.md R31, 93 U4). -/
def resetNum (y : NumSys) (era sp n part : Nat) : NumVal :=
  freeNum y (Config.resetRat era sp n part) (Config.resetImage era sp n part)

def State.bitAt (s : State) (n : Nat) : Bool := (Buf.get? s.mem.bit n).getD (Config.resetBit s.era n)

def State.cpxAt (s : State) (c : CBuf) (n : Nat) : Cpx :=
  (Buf.get? (s.mem.cbuf c) n).getD
    ⟨resetNum s.par.num s.era c.space n 0, resetNum s.par.num s.era c.space n 1⟩

def State.derrAt (s : State) (n : Nat) : NumVal := (Buf.get? s.mem.derr n).getD (resetNum s.par.num s.era 7 n 0)

def State.dtauAt (s : State) (n : Nat) : Word := (Buf.get? s.mem.dtau n).getD (Config.resetWord s.era n)

/-- The live part of a complex buffer as a sequence (00_scope.md R10). -/
def State.live (s : State) (c : CBuf) (len : Nat) : List Cpx := (List.range len).map (s.cpxAt c)

/-- `BARKER[0..12]` (10_state.md R30). -/
def barker : List Bool :=
  [true, true, true, true, true, false, false, true, true, false, true, false, true]

/-! ## Writing -/

/-- A command's output sequence written to indices 0, 1, … of a complex buffer. -/
def State.fillCpx (s : State) (c : CBuf) (vs : List Cpx) : State :=
  { s with mem := s.mem.setCbuf c (Buf.fill vs (s.mem.cbuf c)) }

/-- One computation is over: later free values are new ones (log 5). -/
def State.tick (s : State) : State := { s with epoch := s.epoch + 1 }

/-! ## The life of a command (60_exceptions.md R99) -/

/-- Acceptance (R99 (1)). `STATUS.BUSY` is the activity of the engine, which `issue` sets when the command
stays in flight. This is also the only return from a command error (60_exceptions.md R105). -/
def accept (s : State) : State := { s with regs := { s.regs with status := s.regs.status.accepted } }

/-- Completion (R99 (4)): `BUSY <- 0`, `DONE <- 1`, as the last action; `done` of 00_scope.md R12. -/
def complete (s : State) : State :=
  { s with regs := { s.regs with status := s.regs.status.completed }, eng := .idle }

/-- A command error, `fail(code)` (60_exceptions.md R100): the only exceptional event, writing `STATUS` alone. -/
def fail (c : ErrCode) (s : State) : State :=
  { s with regs := { s.regs with status := s.regs.status.failed c }, eng := .idle }

/-- `stop(cause)` (45_timing_loop.md R84). -/
def stopLoop (c : StopCause) (s : State) : State :=
  { s with regs := { s.regs with status := s.regs.status.stopped c } }

/-- A reserved command word: accepted, then `fail(ERR_OPC)` (30_encoding.md R49). -/
def rejectWord (s : State) : State := fail .opc (accept s)

/-- Every register at its reset value (10_state.md R31). -/
def resetRegs (s : State) : State := { s with regs := .reset }

/-- The reset event (70_reset_and_hazards.md R111): registers at their reset values, a running command
abandoned, every buffer element unspecified anew. The host's own data stay. -/
def hardReset (s : State) : State :=
  { s with regs := .reset, mem := .unwritten, eng := .idle, err := .fin 0, era := s.era + 1 }

end Sys2Proof.Machine
end

