-- ==== Sys2Proof/Machine/Operands.lean ====
section
/-! DEFINITION. The implicit operands of the commands (30_encoding.md R48): the lengths and the factor read from
their registers, the bit stream and the bit pairs of MAP, the boxcar's window, and the indices of an iteration. -/

namespace Sys2Proof.Machine

/-- `NSPS ≤ 0`, the register read as a signed integer (10_state.md R21). -/
def nspsBad (s : State) : Bool := decide (s.regs.nsps.toInt ≤ 0)

/-- `NSPS` where it is legal, as a count. -/
def nspsNat (s : State) : Nat := s.regs.nsps.toInt.toNat

/-! ## MAP (40_mapper.md R63) -/

/-- `P`, the number of Barker bits in front of the payload. -/
def syncLen (s : State) : Nat := if s.regs.cfg.syncEn then 13 else 0

/-- `T`, the length of the stream to map. -/
def streamLen (s : State) : Nat := syncLen s + s.regs.nbit.toNat

/-- `M`, the number of symbols. -/
def symbolCount (s : State) : Nat := (streamLen s + 1) / 2

/-- `S[n]`: the Barker bits if enabled, the payload, one padding 0 (30_encoding.md R56). -/
def streamBit (s : State) (n : Nat) : Bool :=
  if n < syncLen s then barker.getD n false
  else if n < streamLen s then s.bitAt (n - syncLen s)
  else false

/-- One component of `QMAP` (30_encoding.md R57): bit 0 gives `+A`, bit 1 gives `−A`. -/
def qmapPart (y : NumSys) (a : NumVal) (b : Bool) : NumVal := if b then numNeg y a else a

/-- The quadrant table (30_encoding.md R57): the first bit of the pair selects I, the second Q. -/
def qmap (y : NumSys) (a : NumVal) (b0 b1 : Bool) : Cpx := ⟨qmapPart y a b0, qmapPart y a b1⟩

/-! ## The boxcar full convolution (41_pulse_shaper.md R65) -/

/-- `Xz(m)`: the element, and (0, 0) outside the sequence. -/
def xz (x : List Cpx) (m : Int) : Cpx := if 0 ≤ m then x.getD m.toNat Cpx.zero else Cpx.zero

/-- `Σ_{j=0}^{N−1} t(j)`, from 0, in ascending `j` (00_scope.md R9). -/
def numSum (y : NumSys) (n : Nat) (t : Nat → NumVal) : NumVal :=
  (List.range n).foldl (fun acc j => numAdd y acc (t j)) (.fin 0)

/-- `Y[n]` of R65. -/
def boxAt (y : NumSys) (x : List Cpx) (width n : Nat) : Cpx :=
  ⟨numSum y width (fun j => (xz x ((n : Int) - j)).re), numSum y width (fun j => (xz x ((n : Int) - j)).im)⟩

/-- The length `L + N − 1` of `box(X, L, N)` for `N ≥ 1` (R65). -/
def boxLen (len width : Nat) : Nat := len + width - 1

/-! ## The indices of an iteration (43_ted.md R71) -/

/-- `i = K × N`. -/
def baseIndex (s : State) : Int := (s.regs.kidx.toNat : Int) * s.regs.nsps.toInt

/-- `s = i + TAU`. -/
def startIndex (s : State) : Int := baseIndex s + s.regs.tau.toInt

/-- `m = s + (N div 2)`. -/
def midIndex (s : State) : Int := startIndex s + s.regs.nsps.toInt / 2

/-- `e = s + N`. -/
def endIndex (s : State) : Int := startIndex s + s.regs.nsps.toInt

/-- `MF[k]`. Inside STEP the index is in the live part (43_ted.md R71); an element at a negative index does
not exist and its value is free (log 15). -/
def mfAt (s : State) (k : Int) : Cpx :=
  if 0 ≤ k then s.cpxAt .mf k.toNat else ⟨openNum s.par.num s.epoch 20, openNum s.par.num s.epoch 21⟩

/-- `q`, the index of the element emitted (45_timing_loop.md R83). -/
def emitIndex (s : State) : Int := if s.regs.cfg.idxSel then startIndex s else midIndex s

end Sys2Proof.Machine
end

