-- ==== Sys2Proof/Machine/Housekeeping.lean ====
section
/-! DEFINITION. NOP and SRST (45_timing_loop.md R88, R89). -/

namespace Sys2Proof.Machine

/-- NOP (R88): nothing but the acceptance and the completion every command has. -/
def execNop (s : State) : Host.Outcome State Fault Refusal := .next (complete (accept s))

/-- SRST (R89): every register at its reset value, buffers kept, then `DONE`. -/
def execSrst (s : State) : Host.Outcome State Fault Refusal := .next (complete (resetRegs (accept s)))

end Sys2Proof.Machine
end

