-- ==== Sys2Proof/Machine/LoopFilter.lean ====
section
/-! DEFINITION. The loop filter: the coefficients (44_loop_filter.md R76, R77), command INIT (R78) and
micro-operation LF.UPD (R79). -/

namespace Sys2Proof.Machine

/-! ## Coefficients -/

/-- √2 correctly rounded to the format (93 G4; log 3). Not used under `NUM = EXACT` (R77). -/
def sqrtTwo : NumSys → NumVal
  | .exact => poison
  | .f32 => .fin (11863283 / 8388608)
  | .f64 => .fin (6369051672525773 / 4503599627370496)

/-- `u = B ÷ N` (R76, R77). -/
def coeffU (y : NumSys) (b : NumVal) (n : Int) : NumVal := numDiv y b (numOfInt n)

/-- `g` of R77: 1 + (4 × u) ÷ 3 + (8 × u × u) ÷ 9. -/
def coeffG (y : NumSys) (u : NumVal) : NumVal :=
  numAdd y (numAdd y (.fin 1) (numDiv y (numMul y (.fin 4) u) (.fin 3)))
    (numDiv y (numMul y (numMul y (.fin 8) u) u) (.fin 9))

/-- `den` and, for a divisor that is not zero, `K1` and `K2` by the closed form of R77, the definition under
`NUM = EXACT`. -/
def coeffExact (b g : NumVal) (n : Int) : NumVal × NumVal × NumVal :=
  let y := NumSys.exact
  let u := coeffU y b n
  let den := numMul y (coeffG y u) g
  let k1 := numDiv y (numNeg y (numDiv y (numMul y (.fin 8) u) (.fin 3))) den
  let k2 := numDiv y (numNeg y (numDiv y (numMul y (numMul y (.fin 32) u) u) (.fin 9))) den
  (den, k1, k2)

/-- The same by the formulas of R76 in their order of evaluation, for a floating-point `NUM`. -/
def coeffFloat (y : NumSys) (b g : NumVal) (n : Int) : NumVal × NumVal × NumVal :=
  let zeta := numDiv y (sqrtTwo y) (.fin 2)
  let u := coeffU y b n
  let theta := numDiv y u (numAdd y zeta (numDiv y (.fin (1 / 4)) zeta))
  let den := numMul y
    (numAdd y (numAdd y (.fin 1) (numMul y (numMul y (.fin 2) zeta) theta)) (numMul y theta theta)) g
  let k1 := numDiv y (numMul y (numMul y (.fin (-4)) zeta) theta) den
  let k2 := numDiv y (numMul y (numMul y (.fin (-4)) theta) theta) den
  (den, k1, k2)

/-- `coeff(B, G, N)`: `(den, K1, K2)`; `K1` and `K2` are used only when `den` is not 0 (R76). -/
def coeff (y : NumSys) (b g : NumVal) (n : Int) : NumVal × NumVal × NumVal :=
  match y with
  | .exact => coeffExact b g n
  | .f32 => coeffFloat .f32 b g n
  | .f64 => coeffFloat .f64 b g n

/-- `coeff(BNTS, KP, NSPS)`. -/
def coeffOf (s : State) : NumVal × NumVal × NumVal := coeff s.par.num s.regs.bnts s.regs.kp s.regs.nsps.toInt

/-! ## INIT -/

/-- `STATUS.INIT_OK <- 0`, the first act of INIT. -/
def clearInitOk (s : State) : State := { s with regs := { s.regs with status := s.regs.status.initCleared } }

/-- What a successful INIT writes (R78). -/
def initWrite (s : State) : State :=
  { s with regs := { s.regs with
      k1 := settle s.par.num s.epoch 0 (coeffOf s).2.1
      k2 := settle s.par.num s.epoch 1 (coeffOf s).2.2
      p1 := .fin 0
      p2 := .fin 0
      tau := 0
      kidx := 0
      nout := 0
      clampTot := 0
      clampCon := 0
      status := s.regs.status.runStarted } }

/-- The body of INIT after its first act, the four checks in their order (R78; 60_exceptions.md R102). -/
def initBody (s : State) : State :=
  if nspsBad s then fail .nsps s
  else if s.regs.cfg.tedSel.toNat = 3 then fail .ted s
  else if s.regs.cfg.wrapSel then fail .wrap s
  else if numIsZero (coeffOf s).1 then fail .den s
  else complete (initWrite s).tick

/-- INIT (R78). -/
def execInit (s : State) : Host.Outcome State Fault Refusal := .next (initBody (clearInitOk (accept s)))

/-! ## LF.UPD -/

/-- `P1 <- err × K1`; the place of a free value is 0. -/
def lfP1 (s : State) : NumVal := settle s.par.num s.epoch 0 (numMul s.par.num s.err s.regs.k1)

/-- `t <- P2 + (P1 + (err × K2))`, with the `P1` just written. -/
def lfAccum (s : State) : NumVal :=
  numAdd s.par.num s.regs.p2 (numAdd s.par.num (lfP1 s) (numMul s.par.num s.err s.regs.k2))

/-- `(t > 1) or (t < −1)`; the places are 2 and 3. -/
def lfClamps (s : State) : Bool :=
  numLt s.epoch 2 (.fin 1) (lfAccum s) || numLt s.epoch 3 (lfAccum s) (.fin (-1))

/-- `P2 <- clamp(t, −1, 1)`; the places are 4 and 5, and 1 for the value stored. -/
def lfP2 (s : State) : NumVal := settle s.par.num s.epoch 1 (numClamp s.epoch 4 (lfAccum s))

/-- `round(P2 × NSPS)`, with the `P2` just written; the place is 6. -/
def lfTau (s : State) : Int :=
  numRoundInt s.epoch 6 (numMul s.par.num (lfP2 s) (numOfInt s.regs.nsps.toInt))

/-- LF.UPD (R79) with the detector's output `err`. -/
def lfUpd (s : State) : State :=
  { s with regs := { s.regs with
      p1 := lfP1 s
      p2 := lfP2 s
      tau := BitVec.ofInt 32 (lfTau s)
      clampTot := if lfClamps s then s.regs.clampTot + 1 else s.regs.clampTot
      clampCon := if lfClamps s then s.regs.clampCon + 1 else 0 } }

/-- LF.UPD as an instruction: the inner step alone. -/
def execLfUpd (s : State) : Host.Outcome State Fault Refusal := .next (lfUpd s).tick

end Sys2Proof.Machine
end

