-- ==== Sys2Proof/Machine/Mapper.lean ====
section
/-! DEFINITION. The symbol mapper, command MAP (40_mapper.md R63). -/

namespace Sys2Proof.Machine

/-- `SYM[k]`: the point of the pair `(S[2k], S[2k+1])` (R63; 30_encoding.md R56, R57). -/
def mapSymbol (s : State) (k : Nat) : Cpx :=
  settleCpx s.par.num s.epoch (2 * k)
    (qmap s.par.num s.regs.qamp (streamBit s (2 * k)) (streamBit s (2 * k + 1)))

/-- `SYM[0..M−1]` and `NSYM` written. -/
def mapWrite (s : State) : State :=
  let t := s.fillCpx .sym ((List.range (symbolCount s)).map (mapSymbol s))
  { t with regs := { t.regs with nsym := BitVec.ofNat 32 (symbolCount s) } }

/-- The body of MAP, from its pseudocode's first line to its end. -/
def mapBody (s : State) : State :=
  if s.par.capBit < s.regs.nbit.toNat then fail .cap s
  else if s.par.capSym < symbolCount s then fail .cap s
  else complete (mapWrite s).tick

/-- MAP (R63). -/
def execMap (s : State) : Host.Outcome State Fault Refusal := .next (mapBody (accept s))

end Sys2Proof.Machine
end

