-- ==== Sys2Proof/Machine/Shaper.lean ====
section
/-! DEFINITION. The pulse shaper, commands UPS and SHAPE (41_pulse_shaper.md R66, R67). -/

namespace Sys2Proof.Machine

/-- `UP[n]`: symbol `n div NSPS` where `n` is a multiple of `NSPS`, else (0, 0) (R66). -/
def upsElem (s : State) (n : Nat) : Cpx :=
  if n % nspsNat s = 0 then settleCpx s.par.num s.epoch (2 * n) (s.cpxAt .sym (n / nspsNat s)) else Cpx.zero

/-- `L = NSYM × NSPS`. -/
def upsLen (s : State) : Nat := s.regs.nsym.toNat * nspsNat s

/-- `UP[0..L−1]` and `NUP` written. -/
def upsWrite (s : State) : State :=
  let t := s.fillCpx .up ((List.range (upsLen s)).map (upsElem s))
  { t with regs := { t.regs with nup := BitVec.ofNat 32 (upsLen s) } }

/-- The body of UPS. -/
def upsBody (s : State) : State :=
  if nspsBad s then fail .nsps s
  else if s.par.capUp < upsLen s then fail .cap s
  else complete (upsWrite s).tick

/-- UPS (R66). -/
def execUps (s : State) : Host.Outcome State Fault Refusal := .next (upsBody (accept s))

/-- `box` of the live part of a buffer, each element as it is stored (R65; 93 U3). -/
def boxOut (s : State) (c : CBuf) (len : Nat) : List Cpx :=
  let x := s.live c len
  (List.range (boxLen len (nspsNat s))).map fun n =>
    settleCpx s.par.num s.epoch (2 * n) (boxAt s.par.num x (nspsNat s) n)

/-- `L = NUP + NSPS − 1`. -/
def shapeLen (s : State) : Nat := boxLen s.regs.nup.toNat (nspsNat s)

/-- `PUL[0..L−1]` and `NPUL` written. -/
def shapeWrite (s : State) : State :=
  let t := s.fillCpx .pul (boxOut s .up s.regs.nup.toNat)
  { t with regs := { t.regs with npul := BitVec.ofNat 32 (shapeLen s) } }

/-- The body of SHAPE. -/
def shapeBody (s : State) : State :=
  if nspsBad s then fail .nsps s
  else if s.par.capPul < shapeLen s then fail .cap s
  else complete (shapeWrite s).tick

/-- SHAPE (R67). -/
def execShape (s : State) : Host.Outcome State Fault Refusal := .next (shapeBody (accept s))

end Sys2Proof.Machine
end

