-- ==== Sys2Proof/Machine/MatchedFilter.lean ====
section
/-! DEFINITION. The matched filter, command MFILT (42_matched_filter.md R69). -/

namespace Sys2Proof.Machine

/-- `STATUS.MF_OK <- 0`, the first act of MFILT. -/
def clearMfOk (s : State) : State := { s with regs := { s.regs with status := s.regs.status.mfCleared } }

/-- `L = NRX + NSPS − 1`. -/
def mfiltLen (s : State) : Nat := boxLen s.regs.nrx.toNat (nspsNat s)

/-- `MF[0..L−1]`, `NMF` and `MF_OK` written. -/
def mfiltWrite (s : State) : State :=
  let t := s.fillCpx .mf (boxOut s .rx s.regs.nrx.toNat)
  { t with regs := { t.regs with nmf := BitVec.ofNat 32 (mfiltLen s), status := t.regs.status.mfValid } }

/-- The body of MFILT after its first act. -/
def mfiltBody (s : State) : State :=
  if nspsBad s then fail .nsps s
  else if s.par.capRx < s.regs.nrx.toNat then fail .cap s
  else if s.par.capMf < mfiltLen s then fail .cap s
  else complete (mfiltWrite s).tick

/-- MFILT (R69): the unnormalised boxcar of length `NSPS` over RX. -/
def execMfilt (s : State) : Host.Outcome State Fault Refusal := .next (mfiltBody (clearMfOk (accept s)))

end Sys2Proof.Machine
end

