-- ==== Sys2Proof/Machine/Ted.lean ====
section
/-! DEFINITION. The timing-error detectors, micro-operations TED.GA, TED.GC and TED.ZC (43_ted.md R72 to R74). Each
is a pure function of three elements of MF; the model hands the result on in `State.err` (log 10). -/

namespace Sys2Proof.Machine

/-- TED.GA (R72), in the order of evaluation. -/
def tedGaValue (y : NumSys) (zs zm ze : Cpx) : NumVal :=
  let dI := numSub y ze.re zs.re
  let dQ := numSub y ze.im zs.im
  numAdd y (numMul y dI zm.re) (numMul y dQ zm.im)

/-- TED.GC (R73), in the order of evaluation. -/
def tedGcValue (y : NumSys) (zs zm ze : Cpx) : NumVal :=
  let cRe := numSub y ze.re zs.re
  let cIm := numSub y (numNeg y ze.im) (numNeg y zs.im)
  let p := numSub y (numMul y cRe zm.re) (numMul y cIm zm.im)
  numNeg y p

/-- TED.ZC (R74), in the order of evaluation; the mid sample is not read. -/
def tedZcValue (y : NumSys) (zs ze : Cpx) : NumVal :=
  let a := numSub y (numMul y zs.re (numSign ze.re)) (numMul y ze.re (numSign zs.re))
  let b := numSub y (numMul y zs.im (numSign ze.im)) (numMul y ze.im (numSign zs.im))
  numNeg y (numAdd y a b)

/-- The detector's result on its way to the loop filter; the place of a free value is 7 (93 U3). -/
def setErr (s : State) (x : NumVal) : State := { s with err := settle s.par.num s.epoch 7 x }

/-- TED.GA on the three elements of the iteration (R71, R72). -/
def tedGa (s : State) : State :=
  setErr s (tedGaValue s.par.num (mfAt s (startIndex s)) (mfAt s (midIndex s)) (mfAt s (endIndex s)))

/-- TED.GC on the three elements of the iteration (R71, R73). -/
def tedGc (s : State) : State :=
  setErr s (tedGcValue s.par.num (mfAt s (startIndex s)) (mfAt s (midIndex s)) (mfAt s (endIndex s)))

/-- TED.ZC on the start and end elements of the iteration (R71, R74). -/
def tedZc (s : State) : State :=
  setErr s (tedZcValue s.par.num (mfAt s (startIndex s)) (mfAt s (endIndex s)))

/-- TED.GA as an instruction: the inner step alone. -/
def execTedGa (s : State) : Host.Outcome State Fault Refusal := .next (tedGa s).tick

/-- TED.GC as an instruction: the inner step alone. -/
def execTedGc (s : State) : Host.Outcome State Fault Refusal := .next (tedGc s).tick

/-- TED.ZC as an instruction: the inner step alone. -/
def execTedZc (s : State) : Host.Outcome State Fault Refusal := .next (tedZc s).tick

/-- The detector `CFG.TED_SEL` selects (30_encoding.md R51). Value 3 cannot be reached inside STEP
(45_timing_loop.md R82); the spec states no result for it, and the result is free (log 15). -/
def tedSelected (s : State) : State :=
  match s.regs.cfg.tedSel.toNat with
  | 0 => tedGa s
  | 1 => tedGc s
  | 2 => tedZc s
  | _ => setErr s poison

end Sys2Proof.Machine
end

