-- ==== Sys2Proof/Machine/TimingLoop.lean ====
section
/-! DEFINITION. The recovery state machine, commands STEP and RUN (45_timing_loop.md R82 to R86). -/

namespace Sys2Proof.Machine

/-- STEP and RUN need both validity flags (10_state.md R28). -/
def seqOk (s : State) : Bool := s.regs.status.initOk && s.regs.status.mfOk

/-- Which stop test holds first, if one does (R82, R84). -/
def stopTest (s : State) : Option StopCause :=
  if (s.regs.nrx.toNat : Int) < 2 * s.regs.nsps.toInt then some .eob
  else if startIndex s < 0 then some .low
  else if (s.regs.nmf.toNat : Int) - 1 < endIndex s then some .eob
  else if s.regs.nout.toNat = s.par.capOut then some .full
  else none

/-- One element appended to each of OUT, DERR and DTAU, and the counts advanced (R82, R83). `z` is the element
of MF emitted; the places of its free values are 8 and 9. -/
def emit (z : Cpx) (s : State) : State :=
  { s with
    mem := { s.mem with
      out := Buf.put s.regs.nout.toNat (settleCpx s.par.num s.epoch 8 z) s.mem.out
      derr := Buf.put s.regs.nout.toNat s.err s.mem.derr
      dtau := Buf.put s.regs.nout.toNat s.regs.tau s.mem.dtau }
    regs := { s.regs with nout := s.regs.nout + 1, kidx := s.regs.kidx + 1 } }

/-- An iteration performed: detector, loop filter, resampler, in the document's order (R82). The element emitted
is chosen with the `TAU` of before the update (R83). -/
def advance (s : State) : State := (emit (mfAt s (emitIndex s)) (lfUpd (tedSelected s))).tick

/-- The body of STEP from "N <- NSPS" to its end, without the completion (R82). -/
def iterate (s : State) : State :=
  match stopTest s with
  | some c => stopLoop c s
  | none => advance s

/-- The body of STEP. -/
def stepBody (s : State) : State :=
  if seqOk s then
    if s.regs.status.stop then complete s else complete (iterate s)
  else fail .seq s

/-- STEP (R82). -/
def execStep (s : State) : Host.Outcome State Fault Refusal := .next (stepBody (accept s))

/-- `while STATUS.STOP = 0` of R85, at most `fuel` times. -/
def runLoop : Nat → State → State
  | 0, s => s
  | fuel + 1, s => if s.regs.status.stop then s else runLoop fuel (iterate s)

/-- Enough fuel for the loop to stop: every iteration performed adds one to `NOUT`, and the loop stops when
`NOUT = CAP_OUT` (R82; log 19). -/
def runFuel (s : State) : Nat := (BitVec.ofNat 32 s.par.capOut - s.regs.nout).toNat + 1

/-- The body of RUN. -/
def runBody (s : State) : State :=
  if seqOk s then complete (runLoop (runFuel s) s) else fail .seq s

/-- RUN (R85). -/
def execRun (s : State) : Host.Outcome State Fault Refusal := .next (runBody (accept s))

end Sys2Proof.Machine
end

