-- ==== Sys2Proof/Machine/Dispatch.lean ====
section
/-! DEFINITION. Which meaning each instruction has. -/

namespace Sys2Proof.Machine

def exec (i : Instr) (s : State) : Host.Outcome State Fault Refusal :=
  match i with
  | .nop => Sys2Proof.Machine.execNop s
  | .map => Sys2Proof.Machine.execMap s
  | .ups => Sys2Proof.Machine.execUps s
  | .shape => Sys2Proof.Machine.execShape s
  | .mfilt => Sys2Proof.Machine.execMfilt s
  | .init => Sys2Proof.Machine.execInit s
  | .step => Sys2Proof.Machine.execStep s
  | .run => Sys2Proof.Machine.execRun s
  | .srst => Sys2Proof.Machine.execSrst s
  | .tedGa => Sys2Proof.Machine.execTedGa s
  | .tedGc => Sys2Proof.Machine.execTedGc s
  | .tedZc => Sys2Proof.Machine.execTedZc s
  | .lfUpd => Sys2Proof.Machine.execLfUpd s

end Sys2Proof.Machine
end

