-- ==== Sys2Proof/Machine/HostPort.lean ====
section
/-! DEFINITION. The register port and the buffer port (10_state.md R17, 20_memory.md R33 to R38, 30_encoding.md R61):
what the host reads, and every host write but that of `CMD`. -/

namespace Sys2Proof.Machine

/-- What a host read of register `r` returns (10_state.md R17): `CMD` and numbers above 21 read 0. -/
def State.readReg (s : State) : Nat → PortVal
  | 1 => .word (s.regs.status.image s.busy)
  | 2 => .word s.regs.cfg.image
  | 3 => .word s.regs.nsps
  | 4 => .num s.regs.bnts
  | 5 => .num s.regs.kp
  | 6 => .num s.regs.qamp
  | 7 => .word s.regs.nbit
  | 8 => .word s.regs.nrx
  | 9 => .num s.regs.k1
  | 10 => .num s.regs.k2
  | 11 => .num s.regs.p1
  | 12 => .num s.regs.p2
  | 13 => .word s.regs.tau
  | 14 => .word s.regs.kidx
  | 15 => .word s.regs.nsym
  | 16 => .word s.regs.nup
  | 17 => .word s.regs.npul
  | 18 => .word s.regs.nmf
  | 19 => .word s.regs.nout
  | 20 => .word s.regs.clampTot
  | 21 => .word s.regs.clampCon
  | _ => .word 0

/-- A bit on the port: bit 0 of the word (20_memory.md R36). -/
def bitWord (b : Bool) : Word := if b then 1 else 0

/-- What a host read of element `n` of space `sp` returns, where the element exists (20_memory.md R33, R38). -/
def State.readElem (s : State) (sp n : Nat) : Option PortVal :=
  match sp with
  | 0 => if n < s.par.capBit then some (.word (bitWord (s.bitAt n))) else none
  | 1 => if n < s.par.capSym then some (.cpx (s.cpxAt .sym n)) else none
  | 2 => if n < s.par.capUp then some (.cpx (s.cpxAt .up n)) else none
  | 3 => if n < s.par.capPul then some (.cpx (s.cpxAt .pul n)) else none
  | 4 => if n < s.par.capRx then some (.cpx (s.cpxAt .rx n)) else none
  | 5 => if n < s.par.capMf then some (.cpx (s.cpxAt .mf n)) else none
  | 6 => if n < s.par.capOut then some (.cpx (s.cpxAt .out n)) else none
  | 7 => if n < s.par.capOut then some (.num (s.derrAt n)) else none
  | 8 => if n < s.par.capOut then some (.word (s.dtauAt n)) else none
  | 9 => if n < 13 then some (.word (bitWord (barker.getD n false))) else none
  | _ => none

/-- The unspecified value a read outside a buffer returns, in the form the space's elements have (R38; log 12). -/
def State.openRead (s : State) (sp : Nat) : PortVal :=
  if 1 ≤ sp ∧ sp ≤ 6 then .cpx ⟨openNum s.par.num s.epoch 0, openNum s.par.num s.epoch 1⟩
  else if sp = 7 then .num (openNum s.par.num s.epoch 0)
  else .word (Config.openWord s.epoch)

/-- A read's value handed to the host; nothing of the block changes (20_memory.md R37). -/
def State.observe (s : State) (v : PortVal) : State := { s with seen := v :: s.seen }

/-- A host write to `CFG` (10_state.md R20): `INIT_OK` cleared. -/
def writeCfg (s : State) (w : Word) : State :=
  { s with regs := { s.regs with cfg := Cfg.ofImage w, status := s.regs.status.initCleared } }

/-- A host write to `NSPS` (10_state.md R21): `INIT_OK` and `MF_OK` cleared. -/
def writeNsps (s : State) (w : Word) : State :=
  { s with regs := { s.regs with nsps := w, status := s.regs.status.initCleared.mfCleared } }

/-- A host write to `BNTS` (10_state.md R22): `INIT_OK` cleared. -/
def writeBnts (s : State) (x : NumVal) : State :=
  { s with regs := { s.regs with bnts := x, status := s.regs.status.initCleared } }

/-- A host write to `KP` (10_state.md R23): `INIT_OK` cleared. -/
def writeKp (s : State) (x : NumVal) : State :=
  { s with regs := { s.regs with kp := x, status := s.regs.status.initCleared } }

/-- A host write to `QAMP` (10_state.md R24): no flag cleared. -/
def writeQamp (s : State) (x : NumVal) : State := { s with regs := { s.regs with qamp := x } }

/-- A host write to `NBIT` (10_state.md R25). -/
def writeNbit (s : State) (w : Word) : State := { s with regs := { s.regs with nbit := w } }

/-- A host write to `NRX` (10_state.md R25): `MF_OK` cleared. -/
def writeNrx (s : State) (w : Word) : State :=
  { s with regs := { s.regs with nrx := w, status := s.regs.status.mfCleared } }

/-- A host write to an element of BIT: bit 0 of the word (20_memory.md R36). -/
def writeBit (s : State) (n : Nat) (w : Word) : State :=
  { s with mem := { s.mem with bit := Buf.put n (w.getLsbD 0) s.mem.bit } }

/-- A host write to an element of RX: `MF_OK` cleared (20_memory.md R37). -/
def writeRx (s : State) (n : Nat) (z : Cpx) : State :=
  { s with
    mem := { s.mem with rx := Buf.put n z s.mem.rx }
    regs := { s.regs with status := s.regs.status.mfCleared } }

/-- A host write of a register other than `CMD` (10_state.md R17): read-only registers and numbers above 21
ignore it. -/
def hostWriteReg (r : Nat) (v : PortVal) (s : State) : Host.Outcome State Fault Refusal :=
  match v with
  | .word w => match r with
    | 2 => .next (writeCfg s w)
    | 3 => .next (writeNsps s w)
    | 7 => .next (writeNbit s w)
    | 8 => .next (writeNrx s w)
    | _ => .next s
  | .num x =>
    if r = 4 ∨ r = 5 ∨ r = 6 then
      if inDomain s.par.num x then match r with
        | 4 => .next (writeBnts s x)
        | 5 => .next (writeKp s x)
        | _ => .next (writeQamp s x)
      else .refused .notInDomain
    else .next s
  | .cpx _ => .next s

/-- A host write of one element (20_memory.md R33): a space the host may not write, and an index at or above the
capacity, ignore it (R38). -/
def hostWriteElem (sp n : Nat) (v : PortVal) (s : State) : Host.Outcome State Fault Refusal :=
  match v with
  | .word w => if sp = 0 ∧ n < s.par.capBit then .next (writeBit s n w) else .next s
  | .num _ => .next s
  | .cpx z =>
    if sp = 4 ∧ n < s.par.capRx then
      if inDomain s.par.num z.re && inDomain s.par.num z.im then .next (writeRx s n z)
      else .refused .notInDomain
    else .next s

/-- A host read of one element (20_memory.md R37, R38). -/
def hostReadElem (sp n : Nat) (s : State) : State :=
  match s.readElem sp n with
  | some v => s.observe v
  | none => (s.observe (s.openRead sp)).tick

/-- A host transaction while the engine is idle, other than a write to `CMD`. -/
def hostAccess (op : HostOp) (s : State) : Host.Outcome State Fault Refusal :=
  if op.wf then match op with
    | .wr r v => hostWriteReg r v s
    | .rd r => .next (s.observe (s.readReg r))
    | .wb sp n v => hostWriteElem sp n v s
    | .rb sp n => .next (hostReadElem sp n s)
    | .reset => .next (hardReset s)
  else .refused .portForm

/-- A write to `CMD` while a command executes: dropped, `CMD_OVR` set (10_state.md R18, 70 R113). -/
def dropCommand (s : State) : State := { s with regs := { s.regs with status := s.regs.status.overrun } }

/-- A host transaction while a command executes (70_reset_and_hazards.md R113; log 11). -/
def busyAccess (op : HostOp) (s : State) : Host.Outcome State Fault Refusal :=
  if op.wf then match op with
    | .wr r _ => if r = 0 then .next (dropCommand s) else .refused .accessWhileBusy
    | .rd r => if r = 1 then .next (s.observe (s.readReg 1)) else .refused .accessWhileBusy
    | .wb _ _ _ => .refused .accessWhileBusy
    | .rb _ _ => .refused .accessWhileBusy
    | .reset => .next (hardReset s)
  else .refused .portForm

end Sys2Proof.Machine
end

