-- ==== Sys2Proof/Machine/Engine.lean ====
section
/-! DEFINITION. The engine and the host taking their turns (45_timing_loop.md R81, 20_memory.md R42,
70_reset_and_hazards.md R120). -/

namespace Sys2Proof.Machine

/-- The engine decodes the latched word and executes the command to its completion (60_exceptions.md R99 (2) to
(4)); a reserved word fails with `ERR_OPC`. -/
def engineRun (w : Word) (s : State) : Host.Outcome State Fault Refusal :=
  match decode ⟨.command, w⟩ with
  | .ok i => exec i s
  | .rejected _ => .next (rejectWord s)

/-- One micro-operation on its own (log 10). -/
def engineInner (sel : Word) (s : State) : Host.Outcome State Fault Refusal :=
  match decode ⟨.selector, sel⟩ with
  | .ok i => exec i s
  | .rejected _ => .refused .noMicroOp

/-- A write of `w` to `CMD` while the engine is idle (10_state.md R18). With no host transaction landing while it
executes, the command is one atomic transition; otherwise this is its acceptance (70_reset_and_hazards.md R120). -/
def issue (w : Word) (s : State) : Host.Outcome State Fault Refusal :=
  match s.lat with
  | [] => engineRun w s
  | 0 :: r => engineRun w { s with lat := r }
  | (k + 1) :: r => .next { accept s with lat := r, eng := .command w (k + 1) }

/-- The host's next transaction while the engine is idle. With none left nothing happens (60 R110). -/
def hostTurn (s : State) : Host.Outcome State Fault Refusal :=
  match s.script with
  | [] => .next s
  | .wr 0 (.word w) :: rest => issue w { s with script := rest }
  | op :: rest => hostAccess op { s with script := rest }

/-- A command in flight: the host's next transaction lands while it executes, or it completes. -/
def busyTurn (w : Word) (left : Nat) (s : State) : Host.Outcome State Fault Refusal :=
  match left, s.script with
  | k + 1, op :: rest => busyAccess op { s with script := rest, eng := .command w k }
  | _, _ => engineRun w { s with eng := .idle }

/-- One transition of TRX-STR and its host. -/
def turn (s : State) : Host.Outcome State Fault Refusal :=
  match s.eng with
  | .idle => hostTurn s
  | .command w left => busyTurn w left s
  | .inner sel => engineInner sel { s with eng := .idle }

/-- The state in which the next transition runs one encoded instruction: for a command word, the host's next
transaction is its write to `CMD` with no transaction landing while it executes; for a selector image, the
engine is about to perform that inner step (log 7, log 10). -/
def fetchNext (c : Code) (s : State) : State :=
  match c.space with
  | .command => { s with eng := .idle, lat := 0 :: s.lat, script := .wr 0 (.word c.bits) :: s.script }
  | .selector => { s with eng := .inner c.bits }

end Sys2Proof.Machine
end

