-- ==== Sys2Proof/Machine/Step.lean ====
section
/-! DEFINITION. The step, and where it takes its next instruction from. -/

namespace Sys2Proof.Machine

/-- One step of the machine. -/
def step (s : State) : Host.Outcome State Fault Refusal := turn s

/-- `s` with the opcode-table word `w` of `nbits` bits as the next instruction the step runs (log 7, log 10). -/
def State.withFetchWord (s : State) (nbits w : Nat) : State := fetchNext (tableCode nbits w) s

end Sys2Proof.Machine
end

