-- ==== Sys2Proof/Machine/Environment.lean ====
section
/-! DEFINITION. Host software that surrounds the block (46_environment.md R90 to R97) and the pseudo-instructions of
the host script (30_encoding.md R62), as functions of the host. Nothing here is part of the hardware, and no step
calls it; end-to-end statements use it (log 18). -/

namespace Sys2Proof.Machine

/-! ## Bits and packets -/

/-- `pack(text)`: 8 bits a byte, most significant first (R90). -/
def pack (c : List (BitVec 8)) : List Bool := c.flatMap fun b => (List.range 8).map b.getMsbD

/-- The byte of eight bits, most significant first (R90). -/
def byteOf (b : List Bool) : BitVec 8 := BitVec.ofNat 8 (b.foldl (fun acc x => 2 * acc + x.toNat) 0)

/-- `unpack`, the inverse of `pack`; a tail of fewer than eight bits is no byte (R90). -/
def unpack : List Bool → List (BitVec 8)
  | b0 :: b1 :: b2 :: b3 :: b4 :: b5 :: b6 :: b7 :: r => byteOf [b0, b1, b2, b3, b4, b5, b6, b7] :: unpack r
  | _ => []

/-- One trailing 0 after an odd-length sequence (R91). -/
def padEven (x : List Bool) : List Bool := if x.length % 2 = 1 then x ++ [false] else x

/-- `packetize(payload, sync?)` (R91). -/
def packetize (p : List Bool) (sync : Bool) : List Bool := padEven ((if sync then barker else []) ++ p)

/-- The sync-word file (R95). -/
def syncWordFile : String := String.ofList (barker.map fun b => if b then '1' else '0')

/-- One bit of `demod` (R96); no decision is defined for a value that is not finite. -/
def demodBit (x : NumVal) : Option Bool := (numVal x).map fun q => decide (q < 0)

/-- `demod(z)` (R96). -/
def demod (z : Cpx) : Option Bool × Option Bool := (demodBit z.re, demodBit z.im)

/-! ## Channel and files -/

/-- The random draws of one use of the channel (R92), each on the scale of a unit: the host's own (log 18). -/
structure ChannelDraws where
  /-- Draws of standard deviation 1, two for each sample of the noise buffer. -/
  normal : List Cpx
  /-- A uniform draw from [−1, 1], for the scale. -/
  unit : NumVal
  /-- (cos φ, sin φ) of the phase drawn. -/
  rotation : Cpx
deriving DecidableEq, Repr

/-- Step 1 of R92 for one sample: `noise_level` times a draw of standard deviation `noise_level`, which is
`noise_level` times a draw of standard deviation 1; the effective standard deviation is `noise_level²`. -/
def channelNoise (y : NumSys) (level : NumVal) (g : Cpx) : Cpx := cpxScale y level (cpxScale y level g)

/-- Step 3 of R92: a draw from [1 − `amp_var`, 1 + `amp_var`]. -/
def channelScale (y : NumSys) (ampVar unit : NumVal) : NumVal := numAdd y (.fin 1) (numMul y ampVar unit)

/-- The offset of step 2 of R92 for a signal of length `len`. -/
def channelOffset (len : Nat) : Nat := len - len / 2

/-- `impair(signal, noise_level, amp_var, phase_var)` for the draws made (R92): noise, embed, scale, rotate. The
argument `phase_var` bounds the rotation drawn, in `ChannelDraws.Legal`. -/
def impair (y : NumSys) (signal : List Cpx) (level ampVar : NumVal) (d : ChannelDraws) : List Cpx :=
  let len := signal.length
  let off := channelOffset len
  (List.range (2 * len)).map fun n =>
    let noise := channelNoise y level (d.normal.getD n Cpx.zero)
    let embedded := if off ≤ n ∧ n < off + len then cpxAdd y noise (signal.getD (n - off) Cpx.zero) else noise
    cpxMul y d.rotation (cpxScale y (channelScale y ampVar d.unit) embedded)

/-- A value of the numeric domain nearest to a real number; under `NUM = EXACT` the number itself. -/
def IsNearest (y : NumSys) (x : ℝ) (v : NumVal) : Prop :=
  inDomain y v = true ∧ ∃ q, numVal v = some q ∧
    ∀ w p, inDomain y w = true → numVal w = some p → |(q : ℝ) - x| ≤ |(p : ℝ) - x|

/-- A finite value of the numeric domain. -/
def IsFinite (y : NumSys) (x : NumVal) : Prop := inDomain y x = true ∧ (numVal x).isSome = true

/-- Draws the channel can make for a signal of length `len` (R92): a draw for every sample of the noise buffer, the
scale's within [−1, 1], and the rotation by a phase within [−`phase_var`, `phase_var`]. -/
def ChannelDraws.Legal (y : NumSys) (phaseVar : Rat) (len : Nat) (d : ChannelDraws) : Prop :=
  d.normal.length = 2 * len ∧ (∀ z ∈ d.normal, IsFinite y z.re ∧ IsFinite y z.im) ∧
    (IsFinite y d.unit ∧ ∃ u, numVal d.unit = some u ∧ -1 ≤ u ∧ u ≤ 1) ∧
    ∃ φ : ℝ, |φ| ≤ (phaseVar : ℝ) ∧ IsNearest y (Real.cos φ) d.rotation.re ∧ IsNearest y (Real.sin φ) d.rotation.im

/-- What the channel can make of a signal (R92). -/
def ChannelGives (y : NumSys) (signal : List Cpx) (level ampVar : NumVal) (phaseVar : Rat) (out : List Cpx) : Prop :=
  ∃ d : ChannelDraws, d.Legal y phaseVar signal.length ∧ out = impair y signal level ampVar d

/-- A little-endian 16-bit signed integer (R93). -/
def int16 (lo hi : BitVec 8) : Int := (hi ++ lo : BitVec 16).toInt

/-- The sample file to RX: pairs I, Q converted exactly; an incomplete pair at the end is dropped (R93). -/
def fileToSamples : List (BitVec 8) → List Cpx
  | i0 :: i1 :: q0 :: q1 :: r => ⟨numOfInt (int16 i0 i1), numOfInt (int16 q0 q1)⟩ :: fileToSamples r
  | _ => []

/-- `trunc`: rounding toward zero (R93). -/
def truncRat (q : Rat) : Int := if q < 0 then -(-q).floor else q.floor

/-- The producer's scale factor of the reference host (R93). -/
def referenceScale : NumVal := .fin 1

/-- One component `x × SCALE`, truncated, as two bytes, least significant first (R93); a result outside
−32768..32767 is an error of the host. -/
def int16Bytes (y : NumSys) (scale x : NumVal) : Option (List (BitVec 8)) :=
  match numVal (numMul y x scale) with
  | none => none
  | some q =>
    if -32768 ≤ truncRat q ∧ truncRat q ≤ 32767 then
      let w := BitVec.ofInt 16 (truncRat q)
      some [w.extractLsb' 0 8, w.extractLsb' 8 8]
    else none

/-- Samples to the sample file, interleaved `I0, Q0, I1, Q1, …` (R93). -/
def samplesToFile (y : NumSys) (scale : NumVal) : List Cpx → Option (List (BitVec 8))
  | [] => some []
  | z :: r =>
    match int16Bytes y scale z.re, int16Bytes y scale z.im, samplesToFile y scale r with
    | some i, some q, some bytes => some (i ++ q ++ bytes)
    | _, _, _ => none

/-- The live part of PUL, or of any buffer, to the sample file (R93). -/
def bufferToFile (scale : NumVal) (s : State) (c : CBuf) (len : Nat) : Option (List (BitVec 8)) :=
  samplesToFile s.par.num scale (s.live c len)

/-- The least number of decimal places that holds a value with the denominator `den`, if any number does: a power of
ten that `den` divides is found among the exponents up to log2 of `den`, or there is none. -/
def decimalPlaces (den : Nat) : Option Nat := (List.range (Nat.log2 den + 1)).find? fun k => 10 ^ k % den = 0

/-- The last `k` decimal digits of `n`, leading zeros included. -/
def lastDigits : Nat → Nat → List Char
  | 0, _ => []
  | k + 1, n => lastDigits k (n / 10) ++ [Char.ofNat (48 + n % 10)]

/-- The digits of a rational: decimal places `k` and the integer |q| × 10^k. No number of digits reads back a value
such as 1/3, which only `NUM = EXACT` has. -/
def decimalDigits (q : Rat) : Option (Nat × Nat) :=
  (decimalPlaces q.den).map fun k => (k, q.num.natAbs * 10 ^ k / q.den)

/-- A value in decimal, with enough digits to read it back (R94, 92 D29). -/
def decimal (x : NumVal) : Option String :=
  match numVal x with
  | none => none
  | some q => (decimalDigits q).map fun (k, n) =>
    (if numNegative x then "-" else "") ++ toString (n / 10 ^ k)
      ++ (if k = 0 then "" else "." ++ String.ofList (lastDigits k n))

/-- One line of the text diagnostic file: `I, Q` and a line feed (R94). -/
def textLine (z : Cpx) : Option String :=
  match decimal z.re, decimal z.im with
  | some i, some q => some (i ++ ", " ++ q ++ "\n")
  | _, _ => none

/-- Samples to the text diagnostic file, one line each (R94). -/
def textFile : List Cpx → Option String
  | [] => some ""
  | z :: r =>
    match textLine z, textFile r with
    | some l, some f => some (l ++ f)
    | _, _ => none

/-- The live part of a buffer to the text diagnostic file (R94). -/
def bufferToText (s : State) (c : CBuf) (len : Nat) : Option String := textFile (s.live c len)

/-! ## Pseudo-instructions of the host script (30_encoding.md R62) -/

/-- `CMD <mnemonic>`. -/
def scriptCmd (i : Instr) : HostOp := .wr 0 (.word (encode i).bits)

/-- A mnemonic alone on a line: the command, then `WAIT`, which reads `STATUS` once where a command is one
transition (70_reset_and_hazards.md R120). -/
def scriptAwaited (i : Instr) : List HostOp := [scriptCmd i, .rd 1]

/-- `LDBITS`. -/
def scriptLdbits (b : List Bool) : List HostOp :=
  (b.mapIdx fun n x => HostOp.wb 0 n (.word (bitWord x))) ++ [.wr 7 (.word (BitVec.ofNat 32 b.length))]

/-- `LDTEXT`. -/
def scriptLdtext (c : List (BitVec 8)) : List HostOp := scriptLdbits (pack c)

/-- `LDRX`. -/
def scriptLdrx (z : List Cpx) : List HostOp :=
  (z.mapIdx fun n x => HostOp.wb 4 n (.cpx x)) ++ [.wr 8 (.word (BitVec.ofNat 32 z.length))]

/-- The sample file loaded into RX, and `NRX` the number of its pairs (46_environment.md R93). -/
def scriptLoadFile (f : List (BitVec 8)) : List HostOp := scriptLdrx (fileToSamples f)

/-- `LOOPBACK d`: what the host writes after it has read `NPUL` and PUL from the state `s`. -/
def scriptLoopback (d : Nat) (s : State) : List HostOp :=
  scriptLdrx (List.replicate d Cpx.zero ++ s.live .pul s.regs.npul.toNat)

/-- The reads of a visualization sink after a run with `NOUT` = n (R97). -/
def scriptSink (n : Nat) : List HostOp := (List.range n).flatMap fun k => [.rb 6 k, .rb 7 k, .rb 8 k]

/-- Commands issued one after the other, stopping at the first that ends with `ERR = 1`. -/
def runChain : List Instr → State → Host.Outcome State Fault Refusal
  | [], s => .next s
  | i :: r, s => match exec i s with
    | .next t => if t.regs.status.err then .next t else runChain r t
    | .fault f => .fault f
    | .refused e => .refused e

/-- `TXCHAIN`. -/
def txChain (s : State) : Host.Outcome State Fault Refusal := runChain [.map, .ups, .shape] s

/-- `RECOVER`. -/
def recover (s : State) : Host.Outcome State Fault Refusal := runChain [.init, .mfilt, .run] s

end Sys2Proof.Machine
end

