-- ==== Sys2Proof/Safety.lean ====
section
/-! DEFINITION. The terms statements are made in: what stays the same, what a command leaves in `STATUS`, and the
invariants of a run. -/

namespace Sys2Proof.Machine

/-! ## Frames -/

/-- Every register reads as before, but those listed (10_state.md R17). -/
def SameRegs (except : List Nat) (s t : State) : Prop := ∀ r, r ∉ except → t.readReg r = s.readReg r

/-- Every element of every space reads as before, but those stored to (20_memory.md R33). -/
def SameElems (stored : Nat → Nat → Prop) (s t : State) : Prop :=
  ∀ sp n, ¬ stored sp n → t.readElem sp n = s.readElem sp n

/-- No element is stored to. -/
def nothing : Nat → Nat → Prop := fun _ _ => False

/-- The elements below `len` of space `sp`. -/
def firstOf (sp len : Nat) : Nat → Nat → Prop := fun a n => a = sp ∧ n < len

/-- The implementation parameters and the host's own data stay. -/
def SameHost (s t : State) : Prop :=
  t.par = s.par ∧ t.script = s.script ∧ t.seen = s.seen ∧ t.lat = s.lat ∧ t.era = s.era

/-- `STATUS` after a command that ends with `done`, seen from `STATUS` before it (60_exceptions.md R99). -/
def doneStatus (t : Status) : Status := { t with done := true, err := false, errCode := .none }

/-- `STATUS` after a command that ends with `fail(c)` (60_exceptions.md R100). -/
def failStatus (c : ErrCode) (t : Status) : Status := { t with done := true, err := true, errCode := c }

/-- A command that failed with `c`: nothing but `STATUS` has changed, and the engine is idle (R100). -/
def FailedOnly (c : ErrCode) (s t : State) : Prop :=
  t.regs.status = failStatus c s.regs.status ∧ t.busy = false ∧ SameRegs [1] s t ∧ SameElems nothing s t
    ∧ SameHost s t

/-- The next state of an outcome is one with the property. -/
def NextWith (o : Host.Outcome State Fault Refusal) (P : State → Prop) : Prop := ∃ t, o = .next t ∧ P t

/-- The commands, as against the micro-operations (00_scope.md R2). -/
def isCommand : Instr → Bool
  | .nop => true
  | .map => true
  | .ups => true
  | .shape => true
  | .mfilt => true
  | .init => true
  | .step => true
  | .run => true
  | .srst => true
  | .tedGa => false
  | .tedGc => false
  | .tedZc => false
  | .lfUpd => false

/-! ## Exact reference values -/

/-- `clamp(x, −1, 1)` over the rationals (00_scope.md R11). -/
def clampRat (x : Rat) : Rat := if x < -1 then -1 else if 1 < x then 1 else x

/-- `sign(x)` over the rationals (00_scope.md R11). -/
def signRat (x : Rat) : Rat := if 0 < x then 1 else if x < 0 then -1 else 0

/-- A pair of rationals as a complex value. -/
def cpxRat (z : Rat × Rat) : Cpx := ⟨.fin z.1, .fin z.2⟩

/-- The three detector formulas of 43_ted.md R72 to R74 over the rationals, by the value of `TED_SEL`. -/
def detectorRat (sel : Nat) (zs zm ze : Rat × Rat) : Rat :=
  if sel = 0 then (ze.1 - zs.1) * zm.1 + (ze.2 - zs.2) * zm.2
  else if sel = 1 then -((ze.1 - zs.1) * zm.1 - (-ze.2 - -zs.2) * zm.2)
  else -((zs.1 * signRat ze.1 - ze.1 * signRat zs.1) + (zs.2 * signRat ze.2 - ze.2 * signRat zs.2))

/-- The three elements of MF that the detectors of iteration `K` read are `zs`, `zm`, `ze` (43_ted.md R71). -/
def SamplesAre (s : State) (zs zm ze : Rat × Rat) : Prop :=
  mfAt s (startIndex s) = cpxRat zs ∧ mfAt s (midIndex s) = cpxRat zm ∧ mfAt s (endIndex s) = cpxRat ze

/-- The term `Xz(n − j)` of 41_pulse_shaper.md R65 over the live part of a buffer. -/
def windowTerm (s : State) (c : CBuf) (len n j : Nat) : Cpx :=
  if j ≤ n ∧ n - j < len then s.cpxAt c (n - j) else Cpx.zero

/-- The element `Y[n]` of `box` over the live part of a buffer (41_pulse_shaper.md R65). -/
def windowSum (s : State) (c : CBuf) (len n : Nat) : Cpx :=
  ⟨numSum s.par.num (nspsNat s) (fun j => (windowTerm s c len n j).re),
    numSum s.par.num (nspsNat s) (fun j => (windowTerm s c len n j).im)⟩

/-- The spaces each instruction's own rule lets it write (20_memory.md R33). -/
def writesSpace : Instr → Nat → Bool
  | .nop, _ => false
  | .map, sp => decide (sp = 1)
  | .ups, sp => decide (sp = 2)
  | .shape, sp => decide (sp = 3)
  | .mfilt, sp => decide (sp = 5)
  | .init, _ => false
  | .step, sp => decide (sp = 6 ∨ sp = 7 ∨ sp = 8)
  | .run, sp => decide (sp = 6 ∨ sp = 7 ∨ sp = 8)
  | .srst, _ => false
  | .tedGa, _ => false
  | .tedGc, _ => false
  | .tedZc, _ => false
  | .lfUpd, _ => false

/-- STEP neither fails nor finds the loop stopped, `NSPS ≥ 1` (which INIT has checked), and no stop test holds
(45_timing_loop.md R82). -/
def IterationRuns (s : State) : Prop :=
  s.regs.status.initOk = true ∧ s.regs.status.mfOk = true ∧ s.regs.status.stop = false ∧ 0 < s.regs.nsps.toInt
    ∧ 2 * s.regs.nsps.toInt ≤ (s.regs.nrx.toNat : Int) ∧ 0 ≤ startIndex s
    ∧ endIndex s ≤ (s.regs.nmf.toNat : Int) - 1 ∧ s.regs.nout.toNat < s.par.capOut

/-- The host's next transaction is `op`, and the engine is idle. -/
def HostNext (s : State) (op : HostOp) (rest : List HostOp) : Prop := s.eng = .idle ∧ s.script = op :: rest

/-! ## Invariants -/

/-- What holds in every state a run reaches from reset, whatever the numeric system. -/
structure BaseInv (s : State) : Prop where
  /-- The instance meets 00_scope.md R7. -/
  params : s.par.wf = true
  /-- No host transaction starts an inner step (log 10). -/
  notInner : ∀ c, s.eng ≠ .inner c
  /-- The memory has its canonical form and lies within the capacities (10_state.md R29, 20_memory.md R39). -/
  memory : s.mem.wf = true ∧ s.mem.inCap s.par = true
  /-- Live lengths lie within the capacities (20_memory.md R39). -/
  lengths : s.regs.nsym.toNat ≤ s.par.capSym ∧ s.regs.nup.toNat ≤ s.par.capUp
    ∧ s.regs.npul.toNat ≤ s.par.capPul ∧ s.regs.nmf.toNat ≤ s.par.capMf ∧ s.regs.nout.toNat ≤ s.par.capOut
  /-- `K` and `NOUT` go together (10_state.md R16). -/
  counts : s.regs.kidx = s.regs.nout
  /-- The clamp counters (10_state.md R27). -/
  clamps : s.regs.clampCon.toNat ≤ s.regs.clampTot.toNat ∧ s.regs.clampTot.toNat ≤ s.regs.nout.toNat
  /-- `INIT_OK` vouches for the configuration (10_state.md R19, 45_timing_loop.md R82). -/
  configured : s.regs.status.initOk = true →
    0 < s.regs.nsps.toInt ∧ s.regs.cfg.tedSel.toNat ≠ 3 ∧ s.regs.cfg.wrapSel = false
  /-- `MF_OK` vouches for the length of MF (42_matched_filter.md R69). -/
  filtered : s.regs.status.mfOk = true →
    0 < s.regs.nsps.toInt ∧ s.regs.nrx.toNat ≤ s.par.capRx ∧ s.regs.nmf.toNat = mfiltLen s
  /-- `ERR` and `ERRCODE` go together (10_state.md R19). -/
  errors : s.regs.status.err = true ↔ s.regs.status.errCode ≠ .none
  /-- `STOP` and `STOPCAUSE` go together (45_timing_loop.md R84). -/
  stops : s.regs.status.stop = true ↔ s.regs.status.stopCause ≠ .none
  /-- While a command executes, the flags are as acceptance left them (60_exceptions.md R99). -/
  inFlight : s.busy = true → s.regs.status.done = false ∧ s.regs.status.err = false

/-- A rational value. -/
def IsFin (x : NumVal) : Prop := ∃ q, x = .fin q

/-- A complex value with rational parts. -/
def CpxFin (z : Cpx) : Prop := IsFin z.re ∧ IsFin z.im

/-- Under `NUM = EXACT` every `NUM` register and every stored element is a rational (00_scope.md R8). -/
structure AllRational (s : State) : Prop where
  exact : s.par.num = .exact
  registers : IsFin s.regs.bnts ∧ IsFin s.regs.kp ∧ IsFin s.regs.qamp ∧ IsFin s.regs.k1 ∧ IsFin s.regs.k2
    ∧ IsFin s.regs.p1 ∧ IsFin s.regs.p2 ∧ IsFin s.err
  elements : ∀ c n, CpxFin (s.cpxAt c n)
  errors : ∀ n, IsFin (s.derrAt n)

/-- The loop invariants of a run under `NUM = EXACT` (10_state.md R14, 44_loop_filter.md R80,
45_timing_loop.md R86). -/
structure LoopInv (s : State) : Prop where
  base : BaseInv s
  rational : AllRational s
  /-- The accumulator stays in [−1, 1] (10_state.md R14). -/
  accumulator : ∃ q, s.regs.p2 = .fin q ∧ -1 ≤ q ∧ q ≤ 1
  /-- The offset stays within ± `NSPS` while `INIT_OK` = 1 (10_state.md R14; log 17). -/
  offset : s.regs.status.initOk = true → -s.regs.nsps.toInt ≤ s.regs.tau.toInt ∧ s.regs.tau.toInt ≤ s.regs.nsps.toInt
  /-- Iteration 0 starts with `TAU` = 0 (43_ted.md R71). -/
  firstOffset : s.regs.kidx = 0 → s.regs.tau = 0
  /-- The cause `LOW` is never reported (45_timing_loop.md R86 (c)). -/
  neverLow : s.regs.status.stopCause ≠ .low
  /-- `INIT_OK` vouches for the gain and the coefficients (10_state.md R19, R28). -/
  coefficients : s.regs.status.initOk = true →
    s.regs.kp ≠ .fin 0 ∧ s.regs.k1 = (coeffOf s).2.1 ∧ s.regs.k2 = (coeffOf s).2.2
  /-- `MF_OK` vouches for the contents of MF (10_state.md R19). -/
  contents : s.regs.status.mfOk = true → ∀ n, n < s.regs.nmf.toNat →
    s.cpxAt .mf n = boxAt .exact (s.live .rx s.regs.nrx.toNat) (nspsNat s) n

/-! ## Many steps -/

/-- `n` STEP commands, one after the other. -/
def stepTimes : Nat → State → Host.Outcome State Fault Refusal
  | 0, s => .next s
  | n + 1, s => match exec .step s with
    | .next t => stepTimes n t
    | .fault f => .fault f
    | .refused e => .refused e

end Sys2Proof.Machine
end

