-- ==== Sys2Proof/Certificates/Slice0/Obligations.lean ====
section
/-! DEFINITION. The statements for the provers. Each formalises what a numbered rule of spec/ says an instruction
or the machine does; OBLIGATIONS.json names the rules. -/

open Sys2Proof Sys2Proof.Machine

/-! ## Encoding and the step -/

/-- R47, R51, R52: every well-formed instruction's code decodes to it. -/
def Obligations.DecodeOfEncode : Prop :=
  ∀ i : Instr, i.wf = true → decode (encode i) = .ok i

/-- R47, R49: no two command words mean the same command, and no bit of one is dropped. -/
def Obligations.EveryCommandHasOneWord : Prop :=
  ∀ (w : Word) (i : Instr), decode ⟨.command, w⟩ = .ok i → encode i = ⟨.command, w⟩ ∧ isCommand i = true

/-- R47, R51, R52: words written out bit by bit from the tables decode to their instructions. -/
def Obligations.TableWordsDecode : Prop :=
  decodeTableWord 32 0b00000000000000000000000000000001 = some .map ∧
  decodeTableWord 32 0b00000000000000000000000000000101 = some .init ∧
  decodeTableWord 32 0b00000000000000000000000000001111 = some .srst ∧
  decodeTableWord 32 0b00000000000000000000000000001000 = none ∧
  decodeTableWord 32 0b00000000000000000000000100000111 = none ∧
  decodeTableWord 8 0b00000001 = some .tedGc ∧
  decodeTableWord 8 0b00000011 = some .lfUpd

/-- R18, R99, R120: a write of a command word to `CMD` while the engine is idle runs the decoded command; the
selector image of an inner step runs that step. -/
def Obligations.StepRunsTheDecodedInstruction : Prop :=
  (∀ (s : State) (w : Word) (i : Instr) (rest : List HostOp),
    decode ⟨.command, w⟩ = .ok i → HostNext s (.wr 0 (.word w)) rest →
    (s.lat = [] → step s = exec i { s with script := rest }) ∧
    (∀ r, s.lat = 0 :: r → step s = exec i { s with script := rest, lat := r })) ∧
  (∀ (s : State) (c : Word) (i : Instr), decode ⟨.selector, c⟩ = .ok i → s.eng = .inner c →
    step s = exec i { s with eng := .idle }) ∧
  (∀ (s : State) (w : Word) (i : Instr), decode ⟨.command, w⟩ = .ok i →
    step (s.withFetchWord 32 w.toNat) = exec i { s with eng := .idle })

/-- R49, R101: a reserved word is accepted, fails with `ERR_OPC` and changes nothing but `STATUS`, as one atomic
transition: `lat` has no entry for it, or the entry 0, which is consumed (log 9). -/
def Obligations.ReservedWordFailsWithErrOpc : Prop :=
  ∀ (s : State) (w : Word) (rest : List HostOp),
    HostNext s (.wr 0 (.word w)) rest →
    (w.toNat / 256 ≠ 0 ∨ (8 ≤ w.toNat % 256 ∧ w.toNat % 256 ≠ 15)) →
    (s.lat = [] → NextWith (step s) (FailedOnly .opc { s with script := rest })) ∧
    (∀ r, s.lat = 0 :: r → NextWith (step s) (FailedOnly .opc { s with script := rest, lat := r }))

/-- R120: a command that host reads of `STATUS` overlap ends in the state the atomic transition gives, and each of
those reads returned `BUSY = 1`. -/
def Obligations.SplitCommandEqualsAtomicCommand : Prop :=
  ∀ (s a : State) (w : Word) (k : Nat) (lats : List Nat) (rest : List HostOp),
    s.eng = .idle → s.script = .wr 0 (.word w) :: (List.replicate (k + 1) (.rd 1) ++ rest) →
    s.lat = (k + 1) :: lats →
    step { s with script := .wr 0 (.word w) :: rest, lat := 0 :: lats } = .next a →
    core.run (k + 3) s = .next
      { a with seen := List.replicate (k + 1) (.word (s.regs.status.accepted.image true)) ++ s.seen }

/-! ## Every command -/

/-- R99, R119: every instruction has a next state; a command ends idle with `DONE` = 1 and leaves the parameters
and the host's data alone. -/
def Obligations.EveryInstructionCompletes : Prop :=
  ∀ (i : Instr) (s : State), NextWith (exec i s) fun t =>
    SameHost s t ∧ (isCommand i = true → t.busy = false ∧ t.regs.status.done = true)

/-- R100: a command that fails has written nothing but `STATUS`, where besides `DONE`, `ERR` and `ERRCODE` only
INIT clears `INIT_OK` and only MFILT clears `MF_OK`. -/
def Obligations.FailedCommandWritesOnlyStatus : Prop :=
  ∀ (i : Instr) (s t : State), isCommand i = true → exec i s = .next t → t.regs.status.err = true →
    SameRegs [1] s t ∧ SameElems nothing s t ∧
    t.regs.status = failStatus t.regs.status.errCode
      { s.regs.status with
        initOk := if i = .init then false else s.regs.status.initOk
        mfOk := if i = .mfilt then false else s.regs.status.mfOk }

/-- R29, R33: an instruction stores to no space but the one its rule names. -/
def Obligations.InstructionsStoreOnlyToTheirBuffers : Prop :=
  ∀ (i : Instr) (s t : State), exec i s = .next t →
    SameElems (fun sp _ => writesSpace i sp = true) s t

/-- R14 to R16, R27: only INIT, STEP, RUN and SRST (and reset) change the loop state and the counters, only INIT
and SRST the coefficients, and no host access but reset any of them. -/
def Obligations.LoopStateHasFewWriters : Prop :=
  (∀ (i : Instr) (s t : State), i = .nop ∨ i = .map ∨ i = .ups ∨ i = .shape ∨ i = .mfilt →
    exec i s = .next t → ∀ r, 9 ≤ r → r ≤ 14 ∨ r = 19 ∨ r = 20 ∨ r = 21 → t.readReg r = s.readReg r) ∧
  (∀ (i : Instr) (s t : State), i ≠ .init → i ≠ .srst → exec i s = .next t →
    t.readReg 9 = s.readReg 9 ∧ t.readReg 10 = s.readReg 10) ∧
  (∀ (op : HostOp) (s t : State), op ≠ .reset → (hostAccess op s = .next t ∨ busyAccess op s = .next t) →
    ∀ r, 9 ≤ r → t.readReg r = s.readReg r)

/-! ## NOP, SRST, reset -/

/-- R88. -/
def Obligations.NopOnlyClearsTheReport : Prop :=
  encode .nop = ⟨.command, 0x00⟩ ∧
  ∀ s : State, NextWith (exec .nop s) fun t =>
    t.regs.status = doneStatus s.regs.status ∧ t.busy = false ∧ SameRegs [1] s t ∧ SameElems nothing s t ∧
    SameHost s t ∧ (s.readReg 1 = .word 0x00000506 → t.readReg 1 = .word 0x00000002)

/-- R89. -/
def Obligations.SrstResetsEveryRegister : Prop :=
  encode .srst = ⟨.command, 0x0F⟩ ∧
  (∀ s : State, NextWith (exec .srst s) fun t =>
    t.readReg 1 = .word 0x00000002 ∧ t.readReg 6 = .num (.fin 1) ∧
    (∀ r ∈ [4, 5, 9, 10, 11, 12], t.readReg r = .num (.fin 0)) ∧
    (∀ r ∈ [2, 3, 7, 8, 13, 14, 15, 16, 17, 18, 19, 20, 21], t.readReg r = .word 0) ∧
    t.regs.status.cmdOvr = false ∧ SameElems nothing s t ∧ SameHost s t) ∧
  (∀ (s : State) (w : Word) (k : Nat) (rest : List HostOp),
    s.eng = .command w (k + 1) → s.script = .wr 0 (.word 0x0F) :: rest →
    NextWith (step s) fun t => t.eng = .command w k ∧ SameRegs [1] s t ∧ SameElems nothing s t)

/-- R31, R111: the register values after reset, for every instance. -/
def Obligations.ResetRegisterValues : Prop :=
  ∀ p : Params,
    (State.resetOf p).readReg 1 = .word 0 ∧ (State.resetOf p).readReg 6 = .num (.fin 1) ∧
    (∀ r ∈ [4, 5, 9, 10, 11, 12], (State.resetOf p).readReg r = .num (.fin 0)) ∧
    (∀ r ∈ [0, 2, 3, 7, 8, 13, 14, 15, 16, 17, 18, 19, 20, 21], (State.resetOf p).readReg r = .word 0) ∧
    State.reset = State.resetOf Params.default

/-- R111: the reset event abandons a running command and resets every register, busy or idle. The buffers count as
not written (the form of "unspecified" is the model's, log 2). -/
def Obligations.ResetEventAbandonsTheCommand : Prop :=
  ∀ (s : State) (rest : List HostOp), s.script = .reset :: rest →
    (s.eng = .idle ∨ ∃ w k, s.eng = .command w (k + 1)) →
    NextWith (step s) fun t =>
      t.eng = .idle ∧ t.regs = Regs.reset ∧ t.mem = Memory.unwritten ∧ t.par = s.par ∧ t.script = rest

/-! ## The host ports -/

/-- R55. -/
def Obligations.ReservedBitsReadZeroAndIgnoreWrites : Prop :=
  (∀ (s : State) (w : Word), s.readReg 1 = .word w →
    w.getLsbD 7 = false ∧ ∀ b, 14 ≤ b → w.getLsbD b = false) ∧
  (∀ (s : State) (w : Word), s.readReg 2 = .word w → ∀ b, 5 ≤ b → w.getLsbD b = false) ∧
  (∀ (s : State) (w : Word) (rest : List HostOp), HostNext s (.wr 2 (.word w)) rest →
    NextWith (step s) fun t => t.readReg 2 = .word (w &&& 0x1F)) ∧
  (∀ (s : State) (w : Word) (rest : List HostOp), HostNext s (.wr 1 (.word w)) rest →
    NextWith (step s) fun t => t.readReg 1 = s.readReg 1)

/-- R20 to R22, R25, R37: what a host write of an integer register stores, and the flags it clears. -/
def Obligations.HostWritesOfIntegerRegisters : Prop :=
  ∀ (s : State) (w : Word) (r : Nat) (rest : List HostOp),
    HostNext s (.wr r (.word w)) rest → r = 2 ∨ r = 3 ∨ r = 7 ∨ r = 8 →
    NextWith (step s) fun t =>
      t.readReg r = .word (if r = 2 then w &&& 0x1F else w) ∧ SameRegs [1, r] s t ∧ SameElems nothing s t ∧
      SameHost { s with script := rest } t ∧ t.eng = s.eng ∧
      t.regs.status =
        { s.regs.status with
          initOk := if r = 2 ∨ r = 3 then false else s.regs.status.initOk
          mfOk := if r = 3 ∨ r = 8 then false else s.regs.status.mfOk }

/-- R22 to R24, R37: what a host write of a `NUM` register stores, and the flag it clears. -/
def Obligations.HostWritesOfNumRegisters : Prop :=
  ∀ (s : State) (x : NumVal) (r : Nat) (rest : List HostOp),
    HostNext s (.wr r (.num x)) rest → r = 4 ∨ r = 5 ∨ r = 6 → inDomain s.par.num x = true →
    NextWith (step s) fun t =>
      t.readReg r = .num x ∧ SameRegs [1, r] s t ∧ SameElems nothing s t ∧
      SameHost { s with script := rest } t ∧ t.eng = s.eng ∧
      t.regs.status = { s.regs.status with initOk := if r = 6 then s.regs.status.initOk else false }

/-- R17: read-only registers and register numbers that do not exist ignore host writes. -/
def Obligations.ReadOnlyRegistersIgnoreWrites : Prop :=
  ∀ (s : State) (v : PortVal) (r : Nat) (rest : List HostOp),
    HostNext s (.wr r v) rest → r = 1 ∨ 9 ≤ r → step s = .next { s with script := rest }

/-- R25. -/
def Obligations.NbitAndNrxRules : Prop :=
  (∀ (s : State) (w : Word) (r : Nat) (rest : List HostOp), HostNext s (.wr r (.word w)) rest → r = 7 ∨ r = 8 →
    NextWith (step s) fun t => t.readReg r = .word w ∧ (r = 8 → t.regs.status.mfOk = false)) ∧
  (∀ s : State, s.par.capBit < s.regs.nbit.toNat →
    NextWith (exec .map s) fun t => t.regs.status.err = true ∧ t.regs.status.errCode = .cap) ∧
  (∀ s : State, s.par.capRx < s.regs.nrx.toNat → 0 < s.regs.nsps.toInt →
    NextWith (exec .mfilt s) fun t => t.regs.status.err = true ∧ t.regs.status.errCode = .cap) ∧
  (∀ p : Params, (State.resetOf p).readReg 7 = .word 0 ∧ (State.resetOf p).readReg 8 = .word 0)

/-- R33, R36, R37: a host write of an element of BIT or RX stores it and nothing else; RX clears `MF_OK`. -/
def Obligations.HostWritesOfElements : Prop :=
  (∀ (s : State) (w : Word) (n : Nat) (rest : List HostOp), HostNext s (.wb 0 n (.word w)) rest →
    n < s.par.capBit → NextWith (step s) fun t =>
      t.readElem 0 n = some (.word (w &&& 1)) ∧ SameElems (fun a b => a = 0 ∧ b = n) s t ∧ t.regs = s.regs ∧
      SameHost { s with script := rest } t ∧ t.eng = s.eng) ∧
  (∀ (s : State) (z : Cpx) (n : Nat) (rest : List HostOp), HostNext s (.wb 4 n (.cpx z)) rest →
    n < s.par.capRx → inDomain s.par.num z.re = true → inDomain s.par.num z.im = true →
    NextWith (step s) fun t =>
      t.readElem 4 n = some (.cpx z) ∧ SameElems (fun a b => a = 4 ∧ b = n) s t ∧ SameRegs [1] s t ∧
      SameHost { s with script := rest } t ∧ t.eng = s.eng ∧
      t.regs.status = { s.regs.status with mfOk := false })

/-- R33, R38: a host write to a space it may not write, or at or above the capacity, is ignored. That an ignored write
to RX leaves `MF_OK` as it is, is the model's choice (log 12). -/
def Obligations.ForbiddenElementWritesAreIgnored : Prop :=
  ∀ (s : State) (v : PortVal) (sp n : Nat) (rest : List HostOp),
    HostNext s (.wb sp n v) rest → (HostOp.wb sp n v).wf = true →
    (sp ≠ 0 ∧ sp ≠ 4) ∨ (sp = 0 ∧ s.par.capBit ≤ n) ∨ (sp = 4 ∧ s.par.capRx ≤ n) →
    step s = .next { s with script := rest }

/-- R17, R18, R30, R37, R38: a host read changes nothing of the block and returns the register or the element; `CMD`
and register numbers from 22 on read 0, space 9 reads `BARKER`, and a read outside every buffer also completes. -/
def Obligations.ReadsHaveNoSideEffect : Prop :=
  (∀ (s : State) (r : Nat) (rest : List HostOp), HostNext s (.rd r) rest →
    step s = .next { s with script := rest, seen := s.readReg r :: s.seen }) ∧
  (∀ (s : State) (sp n : Nat) (v : PortVal) (rest : List HostOp), HostNext s (.rb sp n) rest →
    s.readElem sp n = some v → step s = .next { s with script := rest, seen := v :: s.seen }) ∧
  (∀ (s : State) (sp n : Nat) (rest : List HostOp), HostNext s (.rb sp n) rest → s.readElem sp n = none →
    NextWith (step s) fun t => t.regs = s.regs ∧ t.mem = s.mem ∧ t.par = s.par ∧ t.eng = s.eng ∧
      t.script = rest ∧ t.lat = s.lat ∧ t.era = s.era ∧ ∃ v, t.seen = v :: s.seen) ∧
  (∀ s : State, s.readReg 0 = .word 0 ∧ ∀ r, 22 ≤ r → s.readReg r = .word 0) ∧
  (∀ s : State, (List.range 13).map (s.readElem 9) =
      ([1, 1, 1, 1, 1, 0, 0, 1, 1, 0, 1, 0, 1] : List Word).map (fun b => some (.word b)) ∧
    (∀ n, 13 ≤ n → s.readElem 9 n = none) ∧ ∀ sp n, 10 ≤ sp → s.readElem sp n = none)

/-- R18, R42, R113: while a command executes, a write to `CMD` is dropped and sets `CMD_OVR`, a read of `STATUS`
returns `BUSY = 1`, and every other access is refused. -/
def Obligations.BusyEngineTakesOnlyStatusReads : Prop :=
  ∀ (s : State) (w : Word) (k : Nat) (op : HostOp) (rest : List HostOp),
    s.eng = .command w (k + 1) → s.script = op :: rest → op.wf = true →
    (∀ v, op = .wr 0 v → step s = .next
      { s with
        script := rest
        eng := .command w k
        regs := { s.regs with status := { s.regs.status with cmdOvr := true } } }) ∧
    (op = .rd 1 → step s = .next
      { s with script := rest, eng := .command w k, seen := .word (s.regs.status.image true) :: s.seen }) ∧
    (op ≠ .rd 1 → op ≠ .reset → (∀ v, op ≠ .wr 0 v) → step s = .refused .accessWhileBusy)

/-! ## MAP -/

/-- R63: MAP completes, writes `SYM[0..M−1]` and `NSYM`, and nothing else. -/
def Obligations.MapWritesThePointsOfItsStream : Prop :=
  ∀ s : State, s.par.wf = true → s.regs.nbit.toNat ≤ s.par.capBit → symbolCount s ≤ s.par.capSym →
    NextWith (exec .map s) fun t =>
      t.regs.nsym.toNat = ((if s.regs.cfg.syncEn then 13 else 0) + s.regs.nbit.toNat + 1) / 2 ∧
      (∀ k, k < t.regs.nsym.toNat → t.cpxAt .sym k =
        settleCpx s.par.num s.epoch (2 * k)
          (qmap s.par.num s.regs.qamp (streamBit s (2 * k)) (streamBit s (2 * k + 1)))) ∧
      t.regs.status = doneStatus s.regs.status ∧ t.busy = false ∧ SameRegs [1, 15] s t ∧
      SameElems (firstOf 1 t.regs.nsym.toNat) s t ∧ SameHost s t

/-- R63, R102: MAP fails with `ERR_CAP` when its input or its output does not fit. -/
def Obligations.MapFailsWhenItDoesNotFit : Prop :=
  ∀ s : State, s.par.capBit < s.regs.nbit.toNat ∨ s.par.capSym < symbolCount s →
    NextWith (exec .map s) (FailedOnly .cap s)

/-- R54, R56, R57, R63: `SYNC_EN` decides whether the 13 Barker bits stand in front of the payload that MAP maps. A
`QAMP` that is not finite stores free values (log 4). -/
def Obligations.SyncEnPutsBarkerInFront : Prop :=
  ∀ s : State, s.par.wf = true → s.regs.nbit.toNat ≤ s.par.capBit → symbolCount s ≤ s.par.capSym →
    let payload := (List.range s.regs.nbit.toNat).map s.bitAt
    let sync := [true, true, true, true, true, false, false, true, true, false, true, false, true]
    let stream := if s.regs.cfg.syncEn then sync ++ payload else payload
    NextWith (exec .map s) fun t =>
      t.regs.nsym.toNat = (stream.length + 1) / 2 ∧
      ∀ k, k < t.regs.nsym.toNat → t.cpxAt .sym k =
        settleCpx s.par.num s.epoch (2 * k)
          (qmap s.par.num s.regs.qamp (stream.getD (2 * k) false) (stream.getD (2 * k + 1) false))

/-- R91: the stream MAP reads, two bits a symbol, is `packetize` of the payload. -/
def Obligations.MapStreamIsThePacket : Prop :=
  ∀ s : State, (List.range (2 * symbolCount s)).map (streamBit s) =
    packetize ((List.range s.regs.nbit.toNat).map s.bitAt) s.regs.cfg.syncEn

/-- R57, R64: under `NUM = EXACT` every symbol is one of the four points, each of squared modulus 2 × QAMP², bit 0
giving +QAMP and bit 1 −QAMP. -/
def Obligations.MapStaysOnTheAlphabet : Prop :=
  ∀ (s : State) (a : Rat), s.par.wf = true → s.par.num = .exact → s.regs.qamp = .fin a →
    s.regs.nbit.toNat ≤ s.par.capBit → symbolCount s ≤ s.par.capSym →
    NextWith (exec .map s) fun t => ∀ k, k < symbolCount s → ∃ i q : Rat,
      t.cpxAt .sym k = ⟨.fin i, .fin q⟩ ∧ i * i + q * q = 2 * (a * a) ∧
      i = (if streamBit s (2 * k) then -a else a) ∧ q = (if streamBit s (2 * k + 1) then -a else a)

/-- R57, R96: the four points are distinct for a nonzero amplitude, and the reference decision gives back the bits
of any positively scaled point of a positive amplitude. -/
def Obligations.DemodInvertsTheQuadrantTable : Prop :=
  (∀ (a : Rat) (b0 b1 c0 c1 : Bool), a ≠ 0 →
    qmap .exact (.fin a) b0 b1 = qmap .exact (.fin a) c0 c1 → b0 = c0 ∧ b1 = c1) ∧
  (∀ (a c : Rat) (b0 b1 : Bool), 0 < a → 0 < c →
    demod (cpxScale .exact (.fin c) (qmap .exact (.fin a) b0 b1)) = (some b0, some b1))

/-- R64 (c): MAP's symbols depend on `SYNC_EN`, `NBIT`, the live payload and `QAMP` alone. -/
def Obligations.MapIsAPureFunction : Prop :=
  ∀ s s' t t' : State, s.par = s'.par → s.regs.cfg.syncEn = s'.regs.cfg.syncEn → s.regs.nbit = s'.regs.nbit →
    s.regs.qamp = s'.regs.qamp → IsFin s.regs.qamp →
    (∀ n, n < s.regs.nbit.toNat → s.bitAt n = s'.bitAt n) →
    exec .map s = .next t → exec .map s' = .next t' → t.regs.status.err = false →
    t'.regs.status.err = false ∧ t.regs.nsym = t'.regs.nsym ∧
    ∀ k, k < symbolCount s → t.cpxAt .sym k = t'.cpxAt .sym k

/-! ## UPS and SHAPE -/

/-- R66: UPS puts symbol `k` at `k × NSPS`, `NSPS − 1` zeros after each, the last included, and changes nothing
else. -/
def Obligations.UpsStuffsZeros : Prop :=
  ∀ s : State, s.par.wf = true → 0 < s.regs.nsps.toInt → s.regs.nsym.toNat * nspsNat s ≤ s.par.capUp →
    NextWith (exec .ups s) fun t =>
      t.regs.nup.toNat = s.regs.nsym.toNat * nspsNat s ∧
      (∀ k, k < s.regs.nsym.toNat → t.cpxAt .up (k * nspsNat s) =
        settleCpx s.par.num s.epoch (2 * (k * nspsNat s)) (s.cpxAt .sym k)) ∧
      (∀ k r, k < s.regs.nsym.toNat → 1 ≤ r → r < nspsNat s → t.cpxAt .up (k * nspsNat s + r) = Cpx.zero) ∧
      t.regs.status = doneStatus s.regs.status ∧ t.busy = false ∧ SameRegs [1, 16] s t ∧
      SameElems (firstOf 2 t.regs.nup.toNat) s t ∧ SameHost s t

/-- R65, R67: SHAPE writes the full boxcar convolution of the live part of UP, and nothing else. -/
def Obligations.ShapeConvolvesWithTheBoxcar : Prop :=
  ∀ s : State, s.par.wf = true → 0 < s.regs.nsps.toInt →
    s.regs.nup.toNat + nspsNat s - 1 ≤ s.par.capPul →
    NextWith (exec .shape s) fun t =>
      t.regs.npul.toNat = s.regs.nup.toNat + nspsNat s - 1 ∧
      (∀ n, n < t.regs.npul.toNat →
        t.cpxAt .pul n = settleCpx s.par.num s.epoch (2 * n) (windowSum s .up s.regs.nup.toNat n)) ∧
      t.regs.status = doneStatus s.regs.status ∧ t.busy = false ∧ SameRegs [1, 17] s t ∧
      SameElems (firstOf 3 t.regs.npul.toNat) s t ∧ SameHost s t

/-- R66, R67, R102: UPS and SHAPE report `ERR_NSPS` first, then `ERR_CAP`. -/
def Obligations.ShaperErrorsInOrder : Prop :=
  (∀ s : State, s.regs.nsps.toInt ≤ 0 →
    NextWith (exec .ups s) (FailedOnly .nsps s) ∧ NextWith (exec .shape s) (FailedOnly .nsps s)) ∧
  (∀ s : State, 0 < s.regs.nsps.toInt →
    (s.par.capUp < s.regs.nsym.toNat * nspsNat s → NextWith (exec .ups s) (FailedOnly .cap s)) ∧
    (s.par.capPul < s.regs.nup.toNat + nspsNat s - 1 → NextWith (exec .shape s) (FailedOnly .cap s)))

/-- R68 (b): UPS then SHAPE give a rectangular pulse train. -/
def Obligations.ShaperGivesARectangularPulseTrain : Prop :=
  ∀ s : State, s.par.wf = true → s.par.num = .exact → 0 < s.regs.nsps.toInt →
    s.regs.nsym.toNat * nspsNat s ≤ s.par.capUp →
    s.regs.nsym.toNat * nspsNat s + nspsNat s - 1 ≤ s.par.capPul →
    (∀ k, k < s.regs.nsym.toNat → CpxFin (s.cpxAt .sym k)) →
    NextWith (runChain [.ups, .shape] s) fun t =>
      t.regs.status.err = false ∧
      t.regs.npul.toNat = s.regs.nsym.toNat * nspsNat s + nspsNat s - 1 ∧
      (∀ n, n < s.regs.nsym.toNat * nspsNat s → t.cpxAt .pul n = s.cpxAt .sym (n / nspsNat s)) ∧
      (∀ n, s.regs.nsym.toNat * nspsNat s ≤ n → n < t.regs.npul.toNat → t.cpxAt .pul n = Cpx.zero)

/-- R68 (a): the boxcar is linear over the rationals, for complex scalars, and maps the zero sequence to zero. -/
def Obligations.BoxcarIsLinear : Prop :=
  (∀ (a b : Cpx) (x y : List Cpx) (width n : Nat), CpxFin a → CpxFin b → x.length = y.length →
    (∀ z ∈ x, CpxFin z) → (∀ z ∈ y, CpxFin z) →
    boxAt .exact (List.zipWith (fun u v => cpxAdd .exact (cpxMul .exact a u) (cpxMul .exact b v)) x y) width n =
      cpxAdd .exact (cpxMul .exact a (boxAt .exact x width n)) (cpxMul .exact b (boxAt .exact y width n))) ∧
  (∀ (len width n : Nat), boxAt .exact (List.replicate len Cpx.zero) width n = Cpx.zero)

/-! ## MFILT -/

/-- R65, R69: MFILT writes the full unnormalised boxcar convolution of the live part of RX, sets `MF_OK`, and
changes nothing else. -/
def Obligations.MfiltConvolvesWithTheBoxcar : Prop :=
  ∀ s : State, s.par.wf = true → 0 < s.regs.nsps.toInt → s.regs.nrx.toNat ≤ s.par.capRx →
    s.regs.nrx.toNat + nspsNat s - 1 ≤ s.par.capMf →
    NextWith (exec .mfilt s) fun t =>
      t.regs.nmf.toNat = s.regs.nrx.toNat + nspsNat s - 1 ∧
      (∀ n, n < t.regs.nmf.toNat →
        t.cpxAt .mf n = settleCpx s.par.num s.epoch (2 * n) (windowSum s .rx s.regs.nrx.toNat n)) ∧
      t.regs.status = { doneStatus s.regs.status with mfOk := true } ∧ t.busy = false ∧ SameRegs [1, 18] s t ∧
      SameElems (firstOf 5 t.regs.nmf.toNat) s t ∧ SameHost s t

/-- R69, R100, R102: a failing MFILT reports `ERR_NSPS` before `ERR_CAP` and leaves `MF_OK` at 0. -/
def Obligations.MfiltErrorsClearMfOk : Prop :=
  (∀ s : State, s.regs.nsps.toInt ≤ 0 → NextWith (exec .mfilt s) (FailedOnly .nsps (clearMfOk s))) ∧
  (∀ s : State, 0 < s.regs.nsps.toInt →
    s.par.capRx < s.regs.nrx.toNat ∨ s.par.capMf < s.regs.nrx.toNat + nspsNat s - 1 →
    NextWith (exec .mfilt s) (FailedOnly .cap (clearMfOk s)))

/-- R70: a delayed rectangular pulse train comes out of MFILT as triangles. -/
def Obligations.MatchedFilterGivesTriangles : Prop :=
  ∀ (s : State) (d m : Nat) (sym : Nat → Rat × Rat), s.par.wf = true → s.par.num = .exact →
    0 < s.regs.nsps.toInt → s.regs.nrx.toNat = d + m * nspsNat s + nspsNat s - 1 →
    s.regs.nrx.toNat ≤ s.par.capRx → d + m * nspsNat s + 2 * nspsNat s - 2 ≤ s.par.capMf →
    (∀ n, n < d → s.cpxAt .rx n = Cpx.zero) →
    (∀ n, n < m * nspsNat s → s.cpxAt .rx (d + n) = cpxRat (sym (n / nspsNat s))) →
    (∀ n, m * nspsNat s ≤ n → n < m * nspsNat s + nspsNat s - 1 → s.cpxAt .rx (d + n) = Cpx.zero) →
    let part := fun (f : Rat × Rat → Rat) (j : Nat) => if j < m then f (sym j) else 0
    let before := fun (f : Rat × Rat → Rat) (j : Nat) => if j = 0 then 0 else part f (j - 1)
    NextWith (exec .mfilt s) fun t =>
      t.regs.nmf.toNat = d + m * nspsNat s + 2 * nspsNat s - 2 ∧
      (∀ n, n < d → n < t.regs.nmf.toNat → t.cpxAt .mf n = Cpx.zero) ∧
      (∀ k r, r < nspsNat s → d + k * nspsNat s + r < t.regs.nmf.toNat →
        t.cpxAt .mf (d + k * nspsNat s + r) = cpxRat
          (((r : Rat) + 1) * part Prod.fst k + ((nspsNat s : Rat) - 1 - r) * before Prod.fst k,
            ((r : Rat) + 1) * part Prod.snd k + ((nspsNat s : Rat) - 1 - r) * before Prod.snd k))

/-! ## INIT -/

/-- R78: INIT with a legal configuration starts a run, whatever the numeric system. -/
def Obligations.InitStartsARun : Prop :=
  ∀ s : State, 0 < s.regs.nsps.toInt → s.regs.cfg.tedSel.toNat ≠ 3 → s.regs.cfg.wrapSel = false →
    numIsZero (coeffOf s).1 = false →
    NextWith (exec .init s) fun t =>
      t.regs.k1 = settle s.par.num s.epoch 0 (coeffOf s).2.1 ∧
      t.regs.k2 = settle s.par.num s.epoch 1 (coeffOf s).2.2 ∧
      t.regs.p1 = .fin 0 ∧ t.regs.p2 = .fin 0 ∧ t.regs.tau = 0 ∧ t.regs.kidx = 0 ∧ t.regs.nout = 0 ∧
      t.regs.clampTot = 0 ∧ t.regs.clampCon = 0 ∧
      t.regs.status = { doneStatus s.regs.status with stop := false, stopCause := .none, initOk := true } ∧
      t.busy = false ∧ SameRegs [1, 9, 10, 11, 12, 13, 14, 19, 20, 21] s t ∧ SameElems nothing s t ∧ SameHost s t

/-- R77, R78: under `NUM = EXACT` INIT succeeds for every nonzero gain and computes these rationals. -/
def Obligations.InitComputesTheCoefficients : Prop :=
  ∀ (s : State) (b g : Rat), s.par.num = .exact → 0 < s.regs.nsps.toInt → s.regs.cfg.tedSel.toNat ≠ 3 →
    s.regs.cfg.wrapSel = false → s.regs.bnts = .fin b → s.regs.kp = .fin g → g ≠ 0 →
    let u : Rat := b / s.regs.nsps.toInt
    let den : Rat := (1 + 4 * u / 3 + 8 * u * u / 9) * g
    NextWith (exec .init s) fun t =>
      den ≠ 0 ∧ t.regs.k1 = .fin (-(8 * u / 3) / den) ∧ t.regs.k2 = .fin (-(32 * u * u / 9) / den) ∧
      t.regs.status.initOk = true ∧ t.regs.status.err = false

/-- R78, R101, R102: INIT's four errors in their order; each leaves `INIT_OK` at 0 and nothing else changed. The last
is `ERR_DEN` for a computed `den` that compares equal to zero, in every numeric system, which under `NUM = EXACT` a
zero gain gives. -/
def Obligations.InitErrorsInOrder : Prop :=
  (∀ s : State, s.regs.nsps.toInt ≤ 0 → NextWith (exec .init s) (FailedOnly .nsps (clearInitOk s))) ∧
  (∀ s : State, 0 < s.regs.nsps.toInt → s.regs.cfg.tedSel.toNat = 3 →
    NextWith (exec .init s) (FailedOnly .ted (clearInitOk s))) ∧
  (∀ s : State, 0 < s.regs.nsps.toInt → s.regs.cfg.tedSel.toNat ≠ 3 → s.regs.cfg.wrapSel = true →
    NextWith (exec .init s) (FailedOnly .wrap (clearInitOk s))) ∧
  (∀ s : State, 0 < s.regs.nsps.toInt → s.regs.cfg.tedSel.toNat ≠ 3 → s.regs.cfg.wrapSel = false →
    numIsZero (coeffOf s).1 = true → NextWith (exec .init s) (FailedOnly .den (clearInitOk s))) ∧
  (∀ (s : State) (b : Rat), s.par.num = .exact → 0 < s.regs.nsps.toInt → s.regs.cfg.tedSel.toNat ≠ 3 →
    s.regs.cfg.wrapSel = false → s.regs.bnts = .fin b → s.regs.kp = .fin 0 →
    NextWith (exec .init s) (FailedOnly .den (clearInitOk s)))

/-- R76, R77: the rational closed form equals the document's formulas with ζ = √2/2 over the reals, and `den` is 0
exactly when the gain is. -/
def Obligations.ClosedFormEqualsTheRealFormulas : Prop :=
  ∀ (b g : Rat) (n : Int), 0 < n → ∃ den k1 k2 : Rat,
    (coeff .exact (.fin b) (.fin g) n).1 = .fin den ∧ (den = 0 ↔ g = 0) ∧
    (g ≠ 0 → coeff .exact (.fin b) (.fin g) n = (.fin den, .fin k1, .fin k2)) ∧
    (let zeta : ℝ := Real.sqrt 2 / 2
     let theta : ℝ := ((b : ℝ) / (n : ℝ)) / (zeta + 0.25 / zeta)
     (den : ℝ) = (1 + 2 * zeta * theta + theta * theta) * (g : ℝ) ∧
     (g ≠ 0 → (k1 : ℝ) = -4 * zeta * theta / (den : ℝ) ∧ (k2 : ℝ) = -4 * theta * theta / (den : ℝ)))

/-! ## The micro-operations -/

/-- R72 to R74, R79: each micro-operation completes in every state and numeric system; a detector leaves every
register and element alone, the loop filter writes `P1`, `P2`, `TAU` and the two counters. -/
def Obligations.MicroOperationsCompleteWithTheirFrames : Prop :=
  (∀ (i : Instr) (s : State), i = .tedGa ∨ i = .tedGc ∨ i = .tedZc →
    NextWith (exec i s) fun t =>
      t.regs = s.regs ∧ t.eng = s.eng ∧ SameElems nothing s t ∧ SameHost s t) ∧
  (∀ s : State, NextWith (exec .lfUpd s) fun t =>
    t.err = s.err ∧ t.regs.status = s.regs.status ∧ t.eng = s.eng ∧ SameRegs [11, 12, 13, 20, 21] s t ∧
    SameElems nothing s t ∧ SameHost s t)

/-- R72 to R74: under `NUM = EXACT` each detector hands on the value of its formula. -/
def Obligations.DetectorsComputeTheirFormulas : Prop :=
  ∀ (s : State) (zs zm ze : Rat × Rat), s.par.num = .exact → SamplesAre s zs zm ze →
    NextWith (exec .tedGa s) (fun t => t.err = .fin (detectorRat 0 zs zm ze)) ∧
    NextWith (exec .tedGc s) (fun t => t.err = .fin (detectorRat 1 zs zm ze)) ∧
    NextWith (exec .tedZc s) (fun t => t.err = .fin (detectorRat 2 zs zm ze))

/-- R75: TED.GC gives the negation of TED.GA on the same samples, in every numeric system. -/
def Obligations.ComplexGardnerNegatesAmplitudeGardner : Prop :=
  ∀ (y : NumSys) (zs zm ze : Cpx),
    numVal (tedGcValue y zs zm ze) = (numVal (tedGaValue y zs zm ze)).map fun q => -q

/-- R79, R80 (b): under `NUM = EXACT` LF.UPD adds both products into the accumulator, clamps it, counts the clamp
and rounds the offset. -/
def Obligations.LoopFilterUpdatesTheAccumulator : Prop :=
  ∀ (s : State) (e k1 k2 p : Rat), s.par.num = .exact → s.err = .fin e → s.regs.k1 = .fin k1 →
    s.regs.k2 = .fin k2 → s.regs.p2 = .fin p →
    let t0 : Rat := p + e * (k1 + k2)
    NextWith (exec .lfUpd s) fun t =>
      t.regs.p1 = .fin (e * k1) ∧ t.regs.p2 = .fin (clampRat t0) ∧
      t.regs.tau = BitVec.ofInt 32 (roundEven (clampRat t0 * s.regs.nsps.toInt)) ∧
      (1 < t0 ∨ t0 < -1 →
        t.regs.clampTot = s.regs.clampTot + 1 ∧ t.regs.clampCon = s.regs.clampCon + 1) ∧
      (-1 ≤ t0 → t0 ≤ 1 → t.regs.clampTot = s.regs.clampTot ∧ t.regs.clampCon = 0)

/-- R11: `round` gives the nearest integer, and the even one half-way between two. -/
def Obligations.RoundTakesTheNearestEvenOnTies : Prop :=
  ∀ q : Rat, |q - (roundEven q : Rat)| ≤ 1 / 2 ∧
    (|q - (roundEven q : Rat)| = 1 / 2 → roundEven q % 2 = 0)

/-- R8: a floating-point result is a value of the format nearest to the exact one, the even one of two (IEEE 754 itself
is general knowledge in the spec, log 3). A finite result is a multiple of the last place, within half a place of the
exact one, an even multiple at a tie, and below the overflow bound; a minus zero comes from a zero with that sign or from
a negative result of at most half a place; a result that is not finite comes only from an exact one within half a place
of the bound or beyond it; and an exact result that the format represents is not changed. -/
def Obligations.FloatResultsAreNearest : Prop :=
  (∀ (f : Fmt) (z : Bool) (q v : Rat), roundTo f z q = .fin v →
    |v| < twoPow (f.bias + 1) ∧ |v - q| ≤ twoPow (f.quantum q) / 2 ∧
    ∃ m : Int, v = (m : Rat) * twoPow (f.quantum q) ∧ (|v - q| = twoPow (f.quantum q) / 2 → m % 2 = 0)) ∧
  (∀ (f : Fmt) (z : Bool) (q : Rat), roundTo f z q = .negZero →
    (q = 0 ∧ z = true) ∨ (q < 0 ∧ |q| ≤ twoPow (f.quantum q) / 2)) ∧
  (∀ (f : Fmt) (z : Bool) (q : Rat), numVal (roundTo f z q) = none →
    twoPow (f.bias + 1) ≤ |q| + twoPow (f.quantum q) / 2) ∧
  (∀ (f : Fmt) (z : Bool) (m : Int) (q : Rat), q = (m : Rat) * twoPow (f.quantum q) → q ≠ 0 →
    |q| < twoPow (f.bias + 1) → roundTo f z q = .fin q)

/-! ## STEP and RUN -/

/-- R82, R85: without both validity flags STEP and RUN fail with `ERR_SEQ`; stopped, they change nothing. -/
def Obligations.StepAndRunNeedBothFlags : Prop :=
  ∀ (i : Instr) (s : State), i = .step ∨ i = .run →
    (s.regs.status.initOk = false ∨ s.regs.status.mfOk = false → NextWith (exec i s) (FailedOnly .seq s)) ∧
    (s.regs.status.initOk = true → s.regs.status.mfOk = true → s.regs.status.stop = true →
      NextWith (exec i s) fun t =>
        t.regs.status = doneStatus s.regs.status ∧ SameRegs [1] s t ∧ SameElems nothing s t ∧ SameHost s t)

/-- R82, R84: STEP stops at the first stop test that holds and changes nothing but `STOP` and `STOPCAUSE`. -/
def Obligations.StepStopsWithTheFirstCause : Prop :=
  ∀ s : State, s.regs.status.initOk = true → s.regs.status.mfOk = true → s.regs.status.stop = false →
    let n := s.regs.nsps.toInt
    let start := (s.regs.kidx.toNat : Int) * n + s.regs.tau.toInt
    let stopsWith := fun (c : StopCause) => NextWith (exec .step s) fun t =>
      t.regs.status = { doneStatus s.regs.status with stop := true, stopCause := c } ∧
      SameRegs [1] s t ∧ SameElems nothing s t ∧ SameHost s t
    if (s.regs.nrx.toNat : Int) < 2 * n then stopsWith .eob
    else if start < 0 then stopsWith .low
    else if (s.regs.nmf.toNat : Int) - 1 < start + n then stopsWith .eob
    else if s.regs.nout.toNat = s.par.capOut then stopsWith .full
    else NextWith (exec .step s) fun t => t.regs.status = doneStatus s.regs.status

/-- R71 to R74, R82, R83: an iteration performed appends one element to OUT, DERR and DTAU and advances both counts,
whatever the numeric system; the element of OUT is the one at the index chosen before the update, and the element of DERR
is the selected detector's formula, in its order of evaluation, on the samples at the three indices. A value that is not
finite is stored as a free value (log 4). -/
def Obligations.StepAppendsOneIteration : Prop :=
  ∀ s : State, IterationRuns s →
    NextWith (exec .step s) fun t =>
      t.regs.nout = s.regs.nout + 1 ∧ t.regs.kidx = s.regs.kidx + 1 ∧
      t.cpxAt .out s.regs.nout.toNat = settleCpx s.par.num s.epoch 8
        (s.cpxAt .mf (if s.regs.cfg.idxSel then startIndex s else midIndex s).toNat) ∧
      (s.regs.cfg.tedSel.toNat = 0 → t.derrAt s.regs.nout.toNat = settle s.par.num s.epoch 7
        (tedGaValue s.par.num (mfAt s (startIndex s)) (mfAt s (midIndex s)) (mfAt s (endIndex s)))) ∧
      (s.regs.cfg.tedSel.toNat = 1 → t.derrAt s.regs.nout.toNat = settle s.par.num s.epoch 7
        (tedGcValue s.par.num (mfAt s (startIndex s)) (mfAt s (midIndex s)) (mfAt s (endIndex s)))) ∧
      (s.regs.cfg.tedSel.toNat = 2 → t.derrAt s.regs.nout.toNat = settle s.par.num s.epoch 7
        (tedZcValue s.par.num (mfAt s (startIndex s)) (mfAt s (endIndex s)))) ∧
      t.derrAt s.regs.nout.toNat = t.err ∧ t.dtauAt s.regs.nout.toNat = t.regs.tau ∧
      t.regs.status = doneStatus s.regs.status ∧ t.busy = false ∧
      SameRegs [1, 11, 12, 13, 14, 19, 20, 21] s t ∧
      SameElems (fun sp n => (sp = 6 ∨ sp = 7 ∨ sp = 8) ∧ n = s.regs.nout.toNat) s t ∧ SameHost s t

/-- R79, R82: under `NUM = EXACT` an iteration computes the selected detector's formula and the loop filter's. -/
def Obligations.StepComputesTheIteration : Prop :=
  ∀ (s : State) (zs zm ze : Rat × Rat) (k1 k2 p : Rat), IterationRuns s → s.par.num = .exact →
    s.regs.cfg.tedSel.toNat ≠ 3 → SamplesAre s zs zm ze → s.regs.k1 = .fin k1 → s.regs.k2 = .fin k2 →
    s.regs.p2 = .fin p →
    let e := detectorRat s.regs.cfg.tedSel.toNat zs zm ze
    let t0 : Rat := p + e * (k1 + k2)
    NextWith (exec .step s) fun t =>
      t.derrAt s.regs.nout.toNat = .fin e ∧ t.regs.p1 = .fin (e * k1) ∧ t.regs.p2 = .fin (clampRat t0) ∧
      t.regs.tau = BitVec.ofInt 32 (roundEven (clampRat t0 * s.regs.nsps.toInt)) ∧
      t.regs.clampCon = (if 1 < t0 ∨ t0 < -1 then s.regs.clampCon + 1 else 0) ∧
      t.regs.clampTot = (if 1 < t0 ∨ t0 < -1 then s.regs.clampTot + 1 else s.regs.clampTot)

/-- R53, R82, R83: `IDX_SEL` picks the element STEP emits, the mid one for 0 and the start one for 1, and changes
nothing else. A copy of a value that is not finite is a free value (log 4). -/
def Obligations.IdxSelOnlyPicksTheElement : Prop :=
  ∀ s : State, IterationRuns s →
    let with0 : State := { s with regs := { s.regs with cfg := { s.regs.cfg with idxSel := false } } }
    let with1 : State := { s with regs := { s.regs with cfg := { s.regs.cfg with idxSel := true } } }
    NextWith (exec .step with0) fun t0 => NextWith (exec .step with1) fun t1 =>
      t0.cpxAt .out s.regs.nout.toNat = settleCpx s.par.num s.epoch 8 (s.cpxAt .mf (midIndex s).toNat) ∧
      t1.cpxAt .out s.regs.nout.toNat = settleCpx s.par.num s.epoch 8 (s.cpxAt .mf (startIndex s).toNat) ∧
      SameRegs [2] t0 t1 ∧
      SameElems (fun sp n => sp = 6 ∧ n = s.regs.nout.toNat) t0 t1

/-- R83, R85: RUN ends stopped, in every state with both validity flags, and writes only what STEP writes; where `NOUT`
lies within the capacity (`BaseInv.lengths`) it only appends to OUT, DERR and DTAU. -/
def Obligations.RunEndsStopped : Prop :=
  ∀ s : State, s.par.wf = true → s.regs.status.initOk = true → s.regs.status.mfOk = true →
    NextWith (exec .run s) fun t =>
      t.regs.status.stop = true ∧ t.regs.status.done = true ∧ t.regs.status.err = false ∧ t.busy = false ∧
      SameRegs [1, 11, 12, 13, 14, 19, 20, 21] s t ∧
      SameElems (fun sp _ => sp = 6 ∨ sp = 7 ∨ sp = 8) s t ∧ SameHost s t ∧
      (s.regs.nout.toNat ≤ s.par.capOut →
        s.regs.nout.toNat ≤ t.regs.nout.toNat ∧ t.regs.nout.toNat ≤ s.par.capOut ∧
        SameElems (fun sp n => (sp = 6 ∨ sp = 7 ∨ sp = 8) ∧ s.regs.nout.toNat ≤ n ∧ n < t.regs.nout.toNat) s t)

/-- R85: RUN gives exactly the state that STEP commands give, issued until one leaves `STOP` = 1. -/
def Obligations.RunEqualsRepeatedStep : Prop :=
  ∀ s : State, s.par.wf = true → s.regs.status.initOk = true → s.regs.status.mfOk = true →
    ∃ (n : Nat) (t : State), stepTimes (n + 1) s = .next t ∧ exec .run s = .next t ∧
      t.regs.status.stop = true ∧
      ∀ m, 1 ≤ m → m ≤ n → NextWith (stepTimes m s) fun u => u.regs.status.stop = false

/-- R86 (a), (b): how many iterations a RUN from the start of a run performs; the quotient is the floor, as `NSPS` is
positive. -/
def Obligations.RunIsBoundedByTheBuffer : Prop :=
  ∀ s t : State, LoopInv s → s.regs.status.initOk = true → s.regs.status.mfOk = true →
    s.regs.status.stop = false → s.regs.kidx = 0 → exec .run s = .next t →
    let last : Int := (s.regs.nmf.toNat : Int) - 1
    let n : Int := s.regs.nsps.toInt
    (t.regs.kidx.toNat : Int) ≤ last / n + 1 ∧
    (2 * n ≤ (s.regs.nrx.toNat : Int) → last / n + 1 ≤ (s.par.capOut : Int) →
      last / n - 1 ≤ (t.regs.kidx.toNat : Int))

/-! ## Invariants -/

/-- Reset meets the invariants (R31), in every legal instance, and in every exact one those of the loop. -/
def Obligations.ResetMeetsTheInvariants : Prop :=
  ∀ p : Params, p.wf = true →
    BaseInv (State.resetOf p) ∧ (p.num = .exact → LoopInv (State.resetOf p))

/-- R16, R19, R27, R28, R39, R84, R101: every step keeps the invariants of registers, flags and memory. -/
def Obligations.StepKeepsBaseInv : Prop :=
  ∀ s t : State, BaseInv s → step s = .next t → BaseInv t

/-- R14, R19, R28, R80, R86: every step keeps the invariants of the loop under `NUM = EXACT`: the accumulator and
the offset stay bounded, `LOW` is never reported, the flags vouch for the coefficients and for MF. -/
def Obligations.StepKeepsLoopInv : Prop :=
  ∀ s t : State, LoopInv s → step s = .next t → LoopInv t

/-! ## Host software -/

/-- R90: `pack` gives 8 bits a byte and `unpack` gives the bytes back. -/
def Obligations.UnpackInvertsPack : Prop :=
  ∀ c : List (BitVec 8), (pack c).length = 8 * c.length ∧ unpack (pack c) = c
end

