-- ==== Sys2Proof/Laws/State.lean ====
section
/-! SUPPORT. One lemma per field per named update of the state, and the frames of the host-visible reads. -/

namespace Sys2Proof.Machine

/-! ## Fields after each named update -/

@[simp] theorem accept_par (s : State) : (accept s).par = s.par := rfl
@[simp] theorem accept_regs (s : State) : (accept s).regs = { s.regs with status := s.regs.status.accepted } := rfl
@[simp] theorem accept_mem (s : State) : (accept s).mem = s.mem := rfl
@[simp] theorem accept_eng (s : State) : (accept s).eng = s.eng := rfl
@[simp] theorem accept_err (s : State) : (accept s).err = s.err := rfl
@[simp] theorem accept_script (s : State) : (accept s).script = s.script := rfl
@[simp] theorem accept_seen (s : State) : (accept s).seen = s.seen := rfl
@[simp] theorem accept_lat (s : State) : (accept s).lat = s.lat := rfl
@[simp] theorem accept_epoch (s : State) : (accept s).epoch = s.epoch := rfl
@[simp] theorem accept_era (s : State) : (accept s).era = s.era := rfl

@[simp] theorem complete_par (s : State) : (complete s).par = s.par := rfl
@[simp] theorem complete_regs (s : State) : (complete s).regs = { s.regs with status := s.regs.status.completed } := rfl
@[simp] theorem complete_mem (s : State) : (complete s).mem = s.mem := rfl
@[simp] theorem complete_eng (s : State) : (complete s).eng = .idle := rfl
@[simp] theorem complete_err (s : State) : (complete s).err = s.err := rfl
@[simp] theorem complete_script (s : State) : (complete s).script = s.script := rfl
@[simp] theorem complete_seen (s : State) : (complete s).seen = s.seen := rfl
@[simp] theorem complete_lat (s : State) : (complete s).lat = s.lat := rfl
@[simp] theorem complete_epoch (s : State) : (complete s).epoch = s.epoch := rfl
@[simp] theorem complete_era (s : State) : (complete s).era = s.era := rfl

@[simp] theorem fail_par (c : ErrCode) (s : State) : (fail c s).par = s.par := rfl
@[simp] theorem fail_regs (c : ErrCode) (s : State) : (fail c s).regs = { s.regs with status := s.regs.status.failed c } := rfl
@[simp] theorem fail_mem (c : ErrCode) (s : State) : (fail c s).mem = s.mem := rfl
@[simp] theorem fail_eng (c : ErrCode) (s : State) : (fail c s).eng = .idle := rfl
@[simp] theorem fail_err (c : ErrCode) (s : State) : (fail c s).err = s.err := rfl
@[simp] theorem fail_script (c : ErrCode) (s : State) : (fail c s).script = s.script := rfl
@[simp] theorem fail_seen (c : ErrCode) (s : State) : (fail c s).seen = s.seen := rfl
@[simp] theorem fail_lat (c : ErrCode) (s : State) : (fail c s).lat = s.lat := rfl
@[simp] theorem fail_epoch (c : ErrCode) (s : State) : (fail c s).epoch = s.epoch := rfl
@[simp] theorem fail_era (c : ErrCode) (s : State) : (fail c s).era = s.era := rfl

@[simp] theorem stopLoop_par (c : StopCause) (s : State) : (stopLoop c s).par = s.par := rfl
@[simp] theorem stopLoop_regs (c : StopCause) (s : State) : (stopLoop c s).regs = { s.regs with status := s.regs.status.stopped c } := rfl
@[simp] theorem stopLoop_mem (c : StopCause) (s : State) : (stopLoop c s).mem = s.mem := rfl
@[simp] theorem stopLoop_eng (c : StopCause) (s : State) : (stopLoop c s).eng = s.eng := rfl
@[simp] theorem stopLoop_err (c : StopCause) (s : State) : (stopLoop c s).err = s.err := rfl
@[simp] theorem stopLoop_script (c : StopCause) (s : State) : (stopLoop c s).script = s.script := rfl
@[simp] theorem stopLoop_seen (c : StopCause) (s : State) : (stopLoop c s).seen = s.seen := rfl
@[simp] theorem stopLoop_lat (c : StopCause) (s : State) : (stopLoop c s).lat = s.lat := rfl
@[simp] theorem stopLoop_epoch (c : StopCause) (s : State) : (stopLoop c s).epoch = s.epoch := rfl
@[simp] theorem stopLoop_era (c : StopCause) (s : State) : (stopLoop c s).era = s.era := rfl

@[simp] theorem resetRegs_par (s : State) : (resetRegs s).par = s.par := rfl
@[simp] theorem resetRegs_regs (s : State) : (resetRegs s).regs = .reset := rfl
@[simp] theorem resetRegs_mem (s : State) : (resetRegs s).mem = s.mem := rfl
@[simp] theorem resetRegs_eng (s : State) : (resetRegs s).eng = s.eng := rfl
@[simp] theorem resetRegs_err (s : State) : (resetRegs s).err = s.err := rfl
@[simp] theorem resetRegs_script (s : State) : (resetRegs s).script = s.script := rfl
@[simp] theorem resetRegs_seen (s : State) : (resetRegs s).seen = s.seen := rfl
@[simp] theorem resetRegs_lat (s : State) : (resetRegs s).lat = s.lat := rfl
@[simp] theorem resetRegs_epoch (s : State) : (resetRegs s).epoch = s.epoch := rfl
@[simp] theorem resetRegs_era (s : State) : (resetRegs s).era = s.era := rfl

@[simp] theorem tick_par (s : State) : (s.tick).par = s.par := rfl
@[simp] theorem tick_regs (s : State) : (s.tick).regs = s.regs := rfl
@[simp] theorem tick_mem (s : State) : (s.tick).mem = s.mem := rfl
@[simp] theorem tick_eng (s : State) : (s.tick).eng = s.eng := rfl
@[simp] theorem tick_err (s : State) : (s.tick).err = s.err := rfl
@[simp] theorem tick_script (s : State) : (s.tick).script = s.script := rfl
@[simp] theorem tick_seen (s : State) : (s.tick).seen = s.seen := rfl
@[simp] theorem tick_lat (s : State) : (s.tick).lat = s.lat := rfl
@[simp] theorem tick_epoch (s : State) : (s.tick).epoch = s.epoch + 1 := rfl
@[simp] theorem tick_era (s : State) : (s.tick).era = s.era := rfl

@[simp] theorem hardReset_par (s : State) : (hardReset s).par = s.par := rfl
@[simp] theorem hardReset_regs (s : State) : (hardReset s).regs = .reset := rfl
@[simp] theorem hardReset_mem (s : State) : (hardReset s).mem = .unwritten := rfl
@[simp] theorem hardReset_eng (s : State) : (hardReset s).eng = .idle := rfl
@[simp] theorem hardReset_err (s : State) : (hardReset s).err = .fin 0 := rfl
@[simp] theorem hardReset_script (s : State) : (hardReset s).script = s.script := rfl
@[simp] theorem hardReset_seen (s : State) : (hardReset s).seen = s.seen := rfl
@[simp] theorem hardReset_lat (s : State) : (hardReset s).lat = s.lat := rfl
@[simp] theorem hardReset_epoch (s : State) : (hardReset s).epoch = s.epoch := rfl
@[simp] theorem hardReset_era (s : State) : (hardReset s).era = s.era + 1 := rfl

@[simp] theorem fillCpx_par (c : CBuf) (vs : List Cpx) (s : State) : (s.fillCpx c vs).par = s.par := rfl
@[simp] theorem fillCpx_regs (c : CBuf) (vs : List Cpx) (s : State) : (s.fillCpx c vs).regs = s.regs := rfl
@[simp] theorem fillCpx_mem (c : CBuf) (vs : List Cpx) (s : State) : (s.fillCpx c vs).mem = s.mem.setCbuf c (Buf.fill vs (s.mem.cbuf c)) := rfl
@[simp] theorem fillCpx_eng (c : CBuf) (vs : List Cpx) (s : State) : (s.fillCpx c vs).eng = s.eng := rfl
@[simp] theorem fillCpx_err (c : CBuf) (vs : List Cpx) (s : State) : (s.fillCpx c vs).err = s.err := rfl
@[simp] theorem fillCpx_script (c : CBuf) (vs : List Cpx) (s : State) : (s.fillCpx c vs).script = s.script := rfl
@[simp] theorem fillCpx_seen (c : CBuf) (vs : List Cpx) (s : State) : (s.fillCpx c vs).seen = s.seen := rfl
@[simp] theorem fillCpx_lat (c : CBuf) (vs : List Cpx) (s : State) : (s.fillCpx c vs).lat = s.lat := rfl
@[simp] theorem fillCpx_epoch (c : CBuf) (vs : List Cpx) (s : State) : (s.fillCpx c vs).epoch = s.epoch := rfl
@[simp] theorem fillCpx_era (c : CBuf) (vs : List Cpx) (s : State) : (s.fillCpx c vs).era = s.era := rfl

@[simp] theorem observe_par (v : PortVal) (s : State) : (s.observe v).par = s.par := rfl
@[simp] theorem observe_regs (v : PortVal) (s : State) : (s.observe v).regs = s.regs := rfl
@[simp] theorem observe_mem (v : PortVal) (s : State) : (s.observe v).mem = s.mem := rfl
@[simp] theorem observe_eng (v : PortVal) (s : State) : (s.observe v).eng = s.eng := rfl
@[simp] theorem observe_err (v : PortVal) (s : State) : (s.observe v).err = s.err := rfl
@[simp] theorem observe_script (v : PortVal) (s : State) : (s.observe v).script = s.script := rfl
@[simp] theorem observe_seen (v : PortVal) (s : State) : (s.observe v).seen = v :: s.seen := rfl
@[simp] theorem observe_lat (v : PortVal) (s : State) : (s.observe v).lat = s.lat := rfl
@[simp] theorem observe_epoch (v : PortVal) (s : State) : (s.observe v).epoch = s.epoch := rfl
@[simp] theorem observe_era (v : PortVal) (s : State) : (s.observe v).era = s.era := rfl

@[simp] theorem dropCommand_par (s : State) : (dropCommand s).par = s.par := rfl
@[simp] theorem dropCommand_regs (s : State) : (dropCommand s).regs = { s.regs with status := s.regs.status.overrun } := rfl
@[simp] theorem dropCommand_mem (s : State) : (dropCommand s).mem = s.mem := rfl
@[simp] theorem dropCommand_eng (s : State) : (dropCommand s).eng = s.eng := rfl
@[simp] theorem dropCommand_err (s : State) : (dropCommand s).err = s.err := rfl
@[simp] theorem dropCommand_script (s : State) : (dropCommand s).script = s.script := rfl
@[simp] theorem dropCommand_seen (s : State) : (dropCommand s).seen = s.seen := rfl
@[simp] theorem dropCommand_lat (s : State) : (dropCommand s).lat = s.lat := rfl
@[simp] theorem dropCommand_epoch (s : State) : (dropCommand s).epoch = s.epoch := rfl
@[simp] theorem dropCommand_era (s : State) : (dropCommand s).era = s.era := rfl

@[simp] theorem clearInitOk_par (s : State) : (clearInitOk s).par = s.par := rfl
@[simp] theorem clearInitOk_regs (s : State) : (clearInitOk s).regs = { s.regs with status := s.regs.status.initCleared } := rfl
@[simp] theorem clearInitOk_mem (s : State) : (clearInitOk s).mem = s.mem := rfl
@[simp] theorem clearInitOk_eng (s : State) : (clearInitOk s).eng = s.eng := rfl
@[simp] theorem clearInitOk_err (s : State) : (clearInitOk s).err = s.err := rfl
@[simp] theorem clearInitOk_script (s : State) : (clearInitOk s).script = s.script := rfl
@[simp] theorem clearInitOk_seen (s : State) : (clearInitOk s).seen = s.seen := rfl
@[simp] theorem clearInitOk_lat (s : State) : (clearInitOk s).lat = s.lat := rfl
@[simp] theorem clearInitOk_epoch (s : State) : (clearInitOk s).epoch = s.epoch := rfl
@[simp] theorem clearInitOk_era (s : State) : (clearInitOk s).era = s.era := rfl

@[simp] theorem clearMfOk_par (s : State) : (clearMfOk s).par = s.par := rfl
@[simp] theorem clearMfOk_regs (s : State) : (clearMfOk s).regs = { s.regs with status := s.regs.status.mfCleared } := rfl
@[simp] theorem clearMfOk_mem (s : State) : (clearMfOk s).mem = s.mem := rfl
@[simp] theorem clearMfOk_eng (s : State) : (clearMfOk s).eng = s.eng := rfl
@[simp] theorem clearMfOk_err (s : State) : (clearMfOk s).err = s.err := rfl
@[simp] theorem clearMfOk_script (s : State) : (clearMfOk s).script = s.script := rfl
@[simp] theorem clearMfOk_seen (s : State) : (clearMfOk s).seen = s.seen := rfl
@[simp] theorem clearMfOk_lat (s : State) : (clearMfOk s).lat = s.lat := rfl
@[simp] theorem clearMfOk_epoch (s : State) : (clearMfOk s).epoch = s.epoch := rfl
@[simp] theorem clearMfOk_era (s : State) : (clearMfOk s).era = s.era := rfl

@[simp] theorem setErr_par (x : NumVal) (s : State) : (setErr s x).par = s.par := rfl
@[simp] theorem setErr_regs (x : NumVal) (s : State) : (setErr s x).regs = s.regs := rfl
@[simp] theorem setErr_mem (x : NumVal) (s : State) : (setErr s x).mem = s.mem := rfl
@[simp] theorem setErr_eng (x : NumVal) (s : State) : (setErr s x).eng = s.eng := rfl
@[simp] theorem setErr_err (x : NumVal) (s : State) : (setErr s x).err = settle s.par.num s.epoch 7 x := rfl
@[simp] theorem setErr_script (x : NumVal) (s : State) : (setErr s x).script = s.script := rfl
@[simp] theorem setErr_seen (x : NumVal) (s : State) : (setErr s x).seen = s.seen := rfl
@[simp] theorem setErr_lat (x : NumVal) (s : State) : (setErr s x).lat = s.lat := rfl
@[simp] theorem setErr_epoch (x : NumVal) (s : State) : (setErr s x).epoch = s.epoch := rfl
@[simp] theorem setErr_era (x : NumVal) (s : State) : (setErr s x).era = s.era := rfl

@[simp] theorem lfUpd_par (s : State) : (lfUpd s).par = s.par := rfl
@[simp] theorem lfUpd_mem (s : State) : (lfUpd s).mem = s.mem := rfl
@[simp] theorem lfUpd_eng (s : State) : (lfUpd s).eng = s.eng := rfl
@[simp] theorem lfUpd_err (s : State) : (lfUpd s).err = s.err := rfl
@[simp] theorem lfUpd_script (s : State) : (lfUpd s).script = s.script := rfl
@[simp] theorem lfUpd_seen (s : State) : (lfUpd s).seen = s.seen := rfl
@[simp] theorem lfUpd_lat (s : State) : (lfUpd s).lat = s.lat := rfl
@[simp] theorem lfUpd_epoch (s : State) : (lfUpd s).epoch = s.epoch := rfl
@[simp] theorem lfUpd_era (s : State) : (lfUpd s).era = s.era := rfl

@[simp] theorem initWrite_par (s : State) : (initWrite s).par = s.par := rfl
@[simp] theorem initWrite_mem (s : State) : (initWrite s).mem = s.mem := rfl
@[simp] theorem initWrite_eng (s : State) : (initWrite s).eng = s.eng := rfl
@[simp] theorem initWrite_err (s : State) : (initWrite s).err = s.err := rfl
@[simp] theorem initWrite_script (s : State) : (initWrite s).script = s.script := rfl
@[simp] theorem initWrite_seen (s : State) : (initWrite s).seen = s.seen := rfl
@[simp] theorem initWrite_lat (s : State) : (initWrite s).lat = s.lat := rfl
@[simp] theorem initWrite_epoch (s : State) : (initWrite s).epoch = s.epoch := rfl
@[simp] theorem initWrite_era (s : State) : (initWrite s).era = s.era := rfl

@[simp] theorem emit_par (z : Cpx) (s : State) : (emit z s).par = s.par := rfl
@[simp] theorem emit_regs (z : Cpx) (s : State) : (emit z s).regs = { s.regs with nout := s.regs.nout + 1, kidx := s.regs.kidx + 1 } := rfl
@[simp] theorem emit_eng (z : Cpx) (s : State) : (emit z s).eng = s.eng := rfl
@[simp] theorem emit_err (z : Cpx) (s : State) : (emit z s).err = s.err := rfl
@[simp] theorem emit_script (z : Cpx) (s : State) : (emit z s).script = s.script := rfl
@[simp] theorem emit_seen (z : Cpx) (s : State) : (emit z s).seen = s.seen := rfl
@[simp] theorem emit_lat (z : Cpx) (s : State) : (emit z s).lat = s.lat := rfl
@[simp] theorem emit_epoch (z : Cpx) (s : State) : (emit z s).epoch = s.epoch := rfl
@[simp] theorem emit_era (z : Cpx) (s : State) : (emit z s).era = s.era := rfl

@[simp] theorem mapWrite_par (s : State) : (mapWrite s).par = s.par := rfl
@[simp] theorem mapWrite_regs (s : State) : (mapWrite s).regs = { s.regs with nsym := BitVec.ofNat 32 (symbolCount s) } := rfl
@[simp] theorem mapWrite_eng (s : State) : (mapWrite s).eng = s.eng := rfl
@[simp] theorem mapWrite_err (s : State) : (mapWrite s).err = s.err := rfl
@[simp] theorem mapWrite_script (s : State) : (mapWrite s).script = s.script := rfl
@[simp] theorem mapWrite_seen (s : State) : (mapWrite s).seen = s.seen := rfl
@[simp] theorem mapWrite_lat (s : State) : (mapWrite s).lat = s.lat := rfl
@[simp] theorem mapWrite_epoch (s : State) : (mapWrite s).epoch = s.epoch := rfl
@[simp] theorem mapWrite_era (s : State) : (mapWrite s).era = s.era := rfl

@[simp] theorem upsWrite_par (s : State) : (upsWrite s).par = s.par := rfl
@[simp] theorem upsWrite_regs (s : State) : (upsWrite s).regs = { s.regs with nup := BitVec.ofNat 32 (upsLen s) } := rfl
@[simp] theorem upsWrite_eng (s : State) : (upsWrite s).eng = s.eng := rfl
@[simp] theorem upsWrite_err (s : State) : (upsWrite s).err = s.err := rfl
@[simp] theorem upsWrite_script (s : State) : (upsWrite s).script = s.script := rfl
@[simp] theorem upsWrite_seen (s : State) : (upsWrite s).seen = s.seen := rfl
@[simp] theorem upsWrite_lat (s : State) : (upsWrite s).lat = s.lat := rfl
@[simp] theorem upsWrite_epoch (s : State) : (upsWrite s).epoch = s.epoch := rfl
@[simp] theorem upsWrite_era (s : State) : (upsWrite s).era = s.era := rfl

@[simp] theorem shapeWrite_par (s : State) : (shapeWrite s).par = s.par := rfl
@[simp] theorem shapeWrite_regs (s : State) : (shapeWrite s).regs = { s.regs with npul := BitVec.ofNat 32 (shapeLen s) } := rfl
@[simp] theorem shapeWrite_eng (s : State) : (shapeWrite s).eng = s.eng := rfl
@[simp] theorem shapeWrite_err (s : State) : (shapeWrite s).err = s.err := rfl
@[simp] theorem shapeWrite_script (s : State) : (shapeWrite s).script = s.script := rfl
@[simp] theorem shapeWrite_seen (s : State) : (shapeWrite s).seen = s.seen := rfl
@[simp] theorem shapeWrite_lat (s : State) : (shapeWrite s).lat = s.lat := rfl
@[simp] theorem shapeWrite_epoch (s : State) : (shapeWrite s).epoch = s.epoch := rfl
@[simp] theorem shapeWrite_era (s : State) : (shapeWrite s).era = s.era := rfl

@[simp] theorem mfiltWrite_par (s : State) : (mfiltWrite s).par = s.par := rfl
@[simp] theorem mfiltWrite_regs (s : State) : (mfiltWrite s).regs = { s.regs with nmf := BitVec.ofNat 32 (mfiltLen s), status := s.regs.status.mfValid } := rfl
@[simp] theorem mfiltWrite_eng (s : State) : (mfiltWrite s).eng = s.eng := rfl
@[simp] theorem mfiltWrite_err (s : State) : (mfiltWrite s).err = s.err := rfl
@[simp] theorem mfiltWrite_script (s : State) : (mfiltWrite s).script = s.script := rfl
@[simp] theorem mfiltWrite_seen (s : State) : (mfiltWrite s).seen = s.seen := rfl
@[simp] theorem mfiltWrite_lat (s : State) : (mfiltWrite s).lat = s.lat := rfl
@[simp] theorem mfiltWrite_epoch (s : State) : (mfiltWrite s).epoch = s.epoch := rfl
@[simp] theorem mfiltWrite_era (s : State) : (mfiltWrite s).era = s.era := rfl

/-! ## The three detectors change `err` alone -/

@[simp] theorem tedGa_par (s : State) : (tedGa s).par = s.par := rfl
@[simp] theorem tedGa_regs (s : State) : (tedGa s).regs = s.regs := rfl
@[simp] theorem tedGa_mem (s : State) : (tedGa s).mem = s.mem := rfl
@[simp] theorem tedGa_eng (s : State) : (tedGa s).eng = s.eng := rfl
@[simp] theorem tedGa_script (s : State) : (tedGa s).script = s.script := rfl
@[simp] theorem tedGa_seen (s : State) : (tedGa s).seen = s.seen := rfl
@[simp] theorem tedGa_lat (s : State) : (tedGa s).lat = s.lat := rfl
@[simp] theorem tedGa_epoch (s : State) : (tedGa s).epoch = s.epoch := rfl
@[simp] theorem tedGa_era (s : State) : (tedGa s).era = s.era := rfl

@[simp] theorem tedGc_par (s : State) : (tedGc s).par = s.par := rfl
@[simp] theorem tedGc_regs (s : State) : (tedGc s).regs = s.regs := rfl
@[simp] theorem tedGc_mem (s : State) : (tedGc s).mem = s.mem := rfl
@[simp] theorem tedGc_eng (s : State) : (tedGc s).eng = s.eng := rfl
@[simp] theorem tedGc_script (s : State) : (tedGc s).script = s.script := rfl
@[simp] theorem tedGc_seen (s : State) : (tedGc s).seen = s.seen := rfl
@[simp] theorem tedGc_lat (s : State) : (tedGc s).lat = s.lat := rfl
@[simp] theorem tedGc_epoch (s : State) : (tedGc s).epoch = s.epoch := rfl
@[simp] theorem tedGc_era (s : State) : (tedGc s).era = s.era := rfl

@[simp] theorem tedZc_par (s : State) : (tedZc s).par = s.par := rfl
@[simp] theorem tedZc_regs (s : State) : (tedZc s).regs = s.regs := rfl
@[simp] theorem tedZc_mem (s : State) : (tedZc s).mem = s.mem := rfl
@[simp] theorem tedZc_eng (s : State) : (tedZc s).eng = s.eng := rfl
@[simp] theorem tedZc_script (s : State) : (tedZc s).script = s.script := rfl
@[simp] theorem tedZc_seen (s : State) : (tedZc s).seen = s.seen := rfl
@[simp] theorem tedZc_lat (s : State) : (tedZc s).lat = s.lat := rfl
@[simp] theorem tedZc_epoch (s : State) : (tedZc s).epoch = s.epoch := rfl
@[simp] theorem tedZc_era (s : State) : (tedZc s).era = s.era := rfl

/-- The selected detector changes `err` alone. -/
theorem tedSelected_eq (s : State) : tedSelected s = { s with err := (tedSelected s).err } := by
  unfold tedSelected
  split <;> rfl

@[simp] theorem tedSelected_par (s : State) : (tedSelected s).par = s.par := by rw [tedSelected_eq]
@[simp] theorem tedSelected_regs (s : State) : (tedSelected s).regs = s.regs := by rw [tedSelected_eq]
@[simp] theorem tedSelected_mem (s : State) : (tedSelected s).mem = s.mem := by rw [tedSelected_eq]
@[simp] theorem tedSelected_eng (s : State) : (tedSelected s).eng = s.eng := by rw [tedSelected_eq]
@[simp] theorem tedSelected_script (s : State) : (tedSelected s).script = s.script := by rw [tedSelected_eq]
@[simp] theorem tedSelected_seen (s : State) : (tedSelected s).seen = s.seen := by rw [tedSelected_eq]
@[simp] theorem tedSelected_lat (s : State) : (tedSelected s).lat = s.lat := by rw [tedSelected_eq]
@[simp] theorem tedSelected_epoch (s : State) : (tedSelected s).epoch = s.epoch := by rw [tedSelected_eq]
@[simp] theorem tedSelected_era (s : State) : (tedSelected s).era = s.era := by rw [tedSelected_eq]

/-! ## Status -/

@[simp] theorem accepted_accepted (t : Status) : t.accepted.accepted = t.accepted := rfl
@[simp] theorem completed_accepted (t : Status) : t.accepted.completed = doneStatus t := rfl
@[simp] theorem failed_accepted (c : ErrCode) (t : Status) : t.accepted.failed c = failStatus c t := rfl

/-- Accepting twice is accepting once. -/
theorem accept_accept (s : State) : accept (accept s) = accept s := rfl

/-! ## Reads depend on little -/

/-- An element's value depends on the memory, the instance and the reset number alone. -/
theorem readElem_congr {s t : State} (hp : t.par = s.par) (hm : t.mem = s.mem) (he : t.era = s.era) (sp n : Nat) :
    t.readElem sp n = s.readElem sp n := by
  simp only [State.readElem, State.bitAt, State.cpxAt, State.derrAt, State.dtauAt, hp, hm, he]

/-- With the same memory, instance and reset number, every element reads as before. -/
theorem sameElems_of_eq {s t : State} (P : Nat → Nat → Prop) (hp : t.par = s.par) (hm : t.mem = s.mem)
    (he : t.era = s.era) : SameElems P s t :=
  fun sp n _ => readElem_congr hp hm he sp n

/-- With the same memory, instance and reset number, the complex elements are the same. -/
theorem cpxAt_congr {s t : State} (hp : t.par = s.par) (hm : t.mem = s.mem) (he : t.era = s.era) (c : CBuf)
    (n : Nat) : t.cpxAt c n = s.cpxAt c n := by
  simp only [State.cpxAt, hp, hm, he]

/-- With the same registers but `STATUS`, every register but `STATUS` reads as before. -/
theorem sameRegs_status {s t : State} (st : Status) (h : t.regs = { s.regs with status := st }) :
    SameRegs [1] s t := by
  intro r hr
  have h1 : r ≠ 1 := by simpa using hr
  unfold State.readReg
  rw [h]
  split <;> first | rfl | exact absurd rfl h1

end Sys2Proof.Machine
end

