-- ==== Sys2Proof/Laws/Buffers.lean ====
section
/-! SUPPORT. The laws of the buffers: a read after a write, the frame of a write, and that every write keeps the
canonical form and the capacities. -/

namespace Sys2Proof.Machine

variable {α : Type}

/-! ## Writing one element -/

@[simp] theorem get?_put_same (n : Nat) (v : α) (b : Buf α) : Buf.get? (Buf.put n v b) n = some v := by
  induction b with
  | nil => simp [Buf.put, Buf.get?]
  | cons c r ih =>
    obtain ⟨a, w⟩ := c
    simp only [Buf.put]
    split
    · simp [Buf.get?]
    · split
      · simp [Buf.get?]
      · rename_i h1 h2
        simp [Buf.get?, show a ≠ n from fun h => h2 h.symm, ih]

theorem get?_put_other {n m : Nat} (h : m ≠ n) (v : α) (b : Buf α) :
    Buf.get? (Buf.put n v b) m = Buf.get? b m := by
  induction b with
  | nil => simp [Buf.put, Buf.get?, Ne.symm h]
  | cons c r ih =>
    obtain ⟨a, w⟩ := c
    simp only [Buf.put]
    split
    · simp [Buf.get?, Ne.symm h]
    · split
      · rename_i h1 h2
        subst h2
        simp [Buf.get?, Ne.symm h]
      · simp only [Buf.get?, ih]

/-! ## Writing the elements 0, 1, … -/

theorem get?_number (i : Nat) (vs : List α) (n : Nat) :
    Buf.get? (Buf.number i vs) n = if i ≤ n then vs[n - i]? else none := by
  induction vs generalizing i with
  | nil => simp [Buf.number, Buf.get?]
  | cons v r ih =>
    simp only [Buf.number, Buf.get?, ih]
    by_cases h : i = n
    · subst h; simp
    · by_cases h2 : i + 1 ≤ n
      · obtain ⟨k, rfl⟩ := Nat.exists_eq_add_of_le h2
        simp [h, show i ≤ i + 1 + k by omega, show i + 1 + k - i = k + 1 by omega]
      · simp [h, h2, show ¬ i ≤ n by omega]

theorem get?_append (a b : Buf α) (n : Nat) :
    Buf.get? (a ++ b) n = (Buf.get? a n).or (Buf.get? b n) := by
  induction a with
  | nil => simp [Buf.get?]
  | cons c r ih =>
    obtain ⟨k, v⟩ := c
    simp only [List.cons_append, Buf.get?, ih]
    split <;> simp

theorem get?_filter_ge (len : Nat) (b : Buf α) (n : Nat) (h : len ≤ n) :
    Buf.get? (b.filter (fun c => decide (len ≤ c.1))) n = Buf.get? b n := by
  induction b with
  | nil => rfl
  | cons c r ih =>
    obtain ⟨k, v⟩ := c
    by_cases hk : len ≤ k
    · simp only [List.filter_cons, hk, decide_true, if_true, Buf.get?, ih]
    · simp only [List.filter_cons, hk, decide_false, Buf.get?, show k ≠ n by omega, if_false]
      simpa using ih

/-- What each index holds after the elements 0, 1, … have been written. -/
theorem get?_fill (vs : List α) (b : Buf α) (n : Nat) :
    Buf.get? (Buf.fill vs b) n = if n < vs.length then vs[n]? else Buf.get? b n := by
  simp only [Buf.fill, get?_append, get?_number, Nat.zero_le, if_true, Nat.sub_zero]
  split
  · rename_i h
    simp [List.getElem?_eq_getElem h]
  · rename_i h
    simp [List.getElem?_eq_none (Nat.le_of_not_lt h), get?_filter_ge vs.length b n (Nat.le_of_not_lt h)]

/-! ## The canonical form -/

/-- The canonical form as a relation between all pairs. -/
theorem rising_iff (b : Buf α) : Buf.rising b = true ↔ b.Pairwise (fun c d => c.1 < d.1) := by
  induction b with
  | nil => simp [Buf.rising]
  | cons c r ih =>
    obtain ⟨a, v⟩ := c
    cases r with
    | nil => simp [Buf.rising]
    | cons d q =>
      obtain ⟨e, w⟩ := d
      simp only [Buf.rising, Bool.and_eq_true, decide_eq_true_eq] at ih ⊢
      rw [ih, List.pairwise_cons (a := (a, v))]
      constructor
      · rintro ⟨h1, h2⟩
        refine ⟨?_, h2⟩
        intro x hx
        rcases List.mem_cons.1 hx with rfl | hx
        · exact h1
        · exact Nat.lt_trans h1 (List.rel_of_pairwise_cons h2 hx)
      · rintro ⟨h1, h2⟩
        exact ⟨h1 _ List.mem_cons_self, h2⟩

theorem mem_put {n : Nat} {v : α} {b : Buf α} {c : Nat × α} (h : c ∈ Buf.put n v b) : c = (n, v) ∨ c ∈ b := by
  induction b with
  | nil => simpa [Buf.put] using h
  | cons d r ih =>
    obtain ⟨a, w⟩ := d
    simp only [Buf.put] at h
    split at h
    · simpa using h
    · split at h
      · rcases List.mem_cons.1 h with h | h
        · exact .inl h
        · exact .inr (List.mem_cons_of_mem _ h)
      · rcases List.mem_cons.1 h with h | h
        · exact .inr (h ▸ List.mem_cons_self)
        · exact (ih h).imp_right (List.mem_cons_of_mem _)

/-- Writing one element keeps the canonical form. -/
theorem rising_put (n : Nat) (v : α) {b : Buf α} (h : Buf.rising b = true) : Buf.rising (Buf.put n v b) = true := by
  rw [rising_iff] at h ⊢
  induction b with
  | nil => simp [Buf.put]
  | cons d r ih =>
    obtain ⟨a, w⟩ := d
    obtain ⟨h1, h2⟩ := List.pairwise_cons.1 h
    simp only [Buf.put]
    split
    · rename_i hn
      refine List.pairwise_cons.2 ⟨?_, h⟩
      intro x hx
      rcases List.mem_cons.1 hx with rfl | hx
      · exact hn
      · exact Nat.lt_trans hn (h1 x hx)
    · split
      · rename_i hn
        subst hn
        exact List.pairwise_cons.2 ⟨h1, h2⟩
      · rename_i hn hne
        refine List.pairwise_cons.2 ⟨?_, ih h2⟩
        intro x hx
        rcases mem_put hx with rfl | hx
        · simp only; omega
        · exact h1 x hx

theorem mem_number {i : Nat} {vs : List α} {c : Nat × α} (h : c ∈ Buf.number i vs) :
    i ≤ c.1 ∧ c.1 < i + vs.length := by
  induction vs generalizing i with
  | nil => simp [Buf.number] at h
  | cons v r ih =>
    rcases List.mem_cons.1 h with rfl | h
    · simp
    · have := ih h
      simp only [List.length_cons]
      omega

theorem pairwise_number (i : Nat) (vs : List α) : (Buf.number i vs).Pairwise (fun c d => c.1 < d.1) := by
  induction vs generalizing i with
  | nil => simp [Buf.number]
  | cons v r ih =>
    refine List.pairwise_cons.2 ⟨?_, ih (i + 1)⟩
    intro x hx
    have := mem_number hx
    simp only; omega

/-- Writing the elements 0, 1, … keeps the canonical form. -/
theorem rising_fill (vs : List α) {b : Buf α} (h : Buf.rising b = true) : Buf.rising (Buf.fill vs b) = true := by
  rw [rising_iff] at h ⊢
  refine List.pairwise_append.2 ⟨pairwise_number 0 vs, h.filter _, ?_⟩
  intro x hx y hy
  have h1 := mem_number hx
  have h2 : vs.length ≤ y.1 := by simpa using (List.mem_filter.1 hy).2
  omega

theorem below_put {cap n : Nat} (hn : n < cap) (v : α) {b : Buf α} (h : Buf.below cap b = true) :
    Buf.below cap (Buf.put n v b) = true := by
  simp only [Buf.below, List.all_eq_true, decide_eq_true_eq] at h ⊢
  intro c hc
  rcases mem_put hc with rfl | hc
  · exact hn
  · exact h c hc

theorem below_fill {cap : Nat} {vs : List α} (hl : vs.length ≤ cap) {b : Buf α} (h : Buf.below cap b = true) :
    Buf.below cap (Buf.fill vs b) = true := by
  simp only [Buf.below, List.all_eq_true, decide_eq_true_eq] at h ⊢
  intro c hc
  rcases List.mem_append.1 hc with hc | hc
  · have := mem_number hc
    omega
  · exact h c (List.mem_filter.1 hc).1

/-! ## The memory -/

@[simp] theorem cbuf_setCbuf_same (m : Memory) (c : CBuf) (b : Buf Cpx) : (m.setCbuf c b).cbuf c = b := by
  cases c <;> rfl

theorem cbuf_setCbuf_other (m : Memory) {c d : CBuf} (h : d ≠ c) (b : Buf Cpx) :
    (m.setCbuf c b).cbuf d = m.cbuf d := by
  cases c <;> cases d <;> first | rfl | exact absurd rfl h

@[simp] theorem setCbuf_bit (m : Memory) (c : CBuf) (b : Buf Cpx) : (m.setCbuf c b).bit = m.bit := by cases c <;> rfl
@[simp] theorem setCbuf_derr (m : Memory) (c : CBuf) (b : Buf Cpx) : (m.setCbuf c b).derr = m.derr := by
  cases c <;> rfl
@[simp] theorem setCbuf_dtau (m : Memory) (c : CBuf) (b : Buf Cpx) : (m.setCbuf c b).dtau = m.dtau := by
  cases c <;> rfl

/-- The canonical form of the memory, buffer by buffer. -/
theorem memory_wf_iff (m : Memory) : m.wf = true ↔
    Buf.rising m.bit = true ∧ (∀ c, Buf.rising (m.cbuf c) = true) ∧ Buf.rising m.derr = true ∧
      Buf.rising m.dtau = true := by
  simp only [Memory.wf, Bool.and_eq_true]
  constructor
  · rintro ⟨⟨⟨⟨⟨⟨⟨⟨h1, h2⟩, h3⟩, h4⟩, h5⟩, h6⟩, h7⟩, h8⟩, h9⟩
    exact ⟨h1, fun c => by cases c <;> assumption, h8, h9⟩
  · rintro ⟨h1, h2, h8, h9⟩
    exact ⟨⟨⟨⟨⟨⟨⟨⟨h1, h2 .sym⟩, h2 .up⟩, h2 .pul⟩, h2 .rx⟩, h2 .mf⟩, h2 .out⟩, h8⟩, h9⟩

/-- The capacities, buffer by buffer. -/
theorem memory_inCap_iff (p : Params) (m : Memory) : m.inCap p = true ↔
    Buf.below p.capBit m.bit = true ∧ (∀ c, Buf.below (c.cap p) (m.cbuf c) = true) ∧
      Buf.below p.capOut m.derr = true ∧ Buf.below p.capOut m.dtau = true := by
  simp only [Memory.inCap, Bool.and_eq_true]
  constructor
  · rintro ⟨⟨⟨⟨⟨⟨⟨⟨h1, h2⟩, h3⟩, h4⟩, h5⟩, h6⟩, h7⟩, h8⟩, h9⟩
    exact ⟨h1, fun c => by cases c <;> assumption, h8, h9⟩
  · rintro ⟨h1, h2, h8, h9⟩
    exact ⟨⟨⟨⟨⟨⟨⟨⟨h1, h2 .sym⟩, h2 .up⟩, h2 .pul⟩, h2 .rx⟩, h2 .mf⟩, h2 .out⟩, h8⟩, h9⟩

/-- A command's output sequence keeps the canonical form of the memory. -/
theorem wf_fillCpx (s : State) (c : CBuf) (vs : List Cpx) (h : s.mem.wf = true) :
    (s.fillCpx c vs).mem.wf = true := by
  rw [memory_wf_iff] at h ⊢
  obtain ⟨h1, h2, h3, h4⟩ := h
  refine ⟨by simpa using h1, fun d => ?_, by simpa using h3, by simpa using h4⟩
  by_cases hd : d = c
  · subst hd
    simpa using rising_fill vs (h2 d)
  · simpa [cbuf_setCbuf_other s.mem hd] using h2 d

/-- A command's output sequence that fits keeps the memory within the capacities. -/
theorem inCap_fillCpx (s : State) (c : CBuf) (vs : List Cpx) (hl : vs.length ≤ c.cap s.par)
    (h : s.mem.inCap s.par = true) : (s.fillCpx c vs).mem.inCap s.par = true := by
  rw [memory_inCap_iff] at h ⊢
  obtain ⟨h1, h2, h3, h4⟩ := h
  refine ⟨by simpa using h1, fun d => ?_, by simpa using h3, by simpa using h4⟩
  by_cases hd : d = c
  · subst hd
    simpa using below_fill hl (h2 d)
  · simpa [cbuf_setCbuf_other s.mem hd] using h2 d

/-- The memory of reset has the canonical form. -/
theorem wf_unwritten : Memory.unwritten.wf = true := by decide

/-! ## Reads after the writes of the machine -/

/-- The element of the buffer just written. -/
theorem cpxAt_fillCpx_same (s : State) (c : CBuf) (vs : List Cpx) (n : Nat) :
    (s.fillCpx c vs).cpxAt c n = if h : n < vs.length then vs[n] else s.cpxAt c n := by
  simp only [State.cpxAt, fillCpx_mem, cbuf_setCbuf_same, fillCpx_par, fillCpx_era, get?_fill]
  split
  · rename_i h
    simp [List.getElem?_eq_getElem h]
  · rfl

/-- An element of another buffer. -/
theorem cpxAt_fillCpx_other (s : State) {c d : CBuf} (h : d ≠ c) (vs : List Cpx) (n : Nat) :
    (s.fillCpx c vs).cpxAt d n = s.cpxAt d n := by
  simp only [State.cpxAt, fillCpx_mem, cbuf_setCbuf_other s.mem h, fillCpx_par, fillCpx_era]

/-- Every element of every space but those stored to reads as before. -/
theorem readElem_fillCpx (s : State) (c : CBuf) (vs : List Cpx) :
    SameElems (firstOf c.space vs.length) s (s.fillCpx c vs) := by
  intro sp n hn
  have key : ∀ d : CBuf, d.space = sp → (s.fillCpx c vs).cpxAt d n = s.cpxAt d n := by
    intro d hd
    by_cases hdc : d = c
    · subst hdc
      have : ¬ n < vs.length := fun h => hn ⟨hd.symm, h⟩
      rw [cpxAt_fillCpx_same, dif_neg this]
    · exact cpxAt_fillCpx_other s hdc vs n
  simp only [State.readElem, State.bitAt, State.derrAt, State.dtauAt, fillCpx_mem, fillCpx_par, fillCpx_era,
    setCbuf_bit, setCbuf_derr, setCbuf_dtau]
  split
  · rfl
  · rw [key .sym rfl]; rfl
  · rw [key .up rfl]; rfl
  · rw [key .pul rfl]; rfl
  · rw [key .rx rfl]; rfl
  · rw [key .mf rfl]; rfl
  · rw [key .out rfl]; rfl
  · rfl
  · rfl
  · rfl
  · rfl

/-! ## Rational contents -/

/-- What a read finds was listed. -/
theorem mem_of_get? {n : Nat} {v : α} {b : Buf α} (h : Buf.get? b n = some v) : (n, v) ∈ b := by
  induction b with
  | nil => simp [Buf.get?] at h
  | cons c r ih =>
    obtain ⟨a, w⟩ := c
    simp only [Buf.get?] at h
    split at h
    · rename_i ha
      obtain rfl := Option.some.inj h
      subst ha
      exact List.mem_cons_self
    · exact List.mem_cons_of_mem _ (ih h)

/-- Under `NUM = EXACT` a complex buffer whose written elements are rational reads as rationals everywhere. -/
theorem cpxAt_rational {s : State} (he : s.par.num = .exact) {c : CBuf}
    (hb : ∀ e ∈ s.mem.cbuf c, CpxFin e.2) (n : Nat) : CpxFin (s.cpxAt c n) := by
  unfold State.cpxAt
  cases hg : Buf.get? (s.mem.cbuf c) n with
  | none => rw [he]; exact ⟨⟨_, rfl⟩, ⟨_, rfl⟩⟩
  | some z => exact hb _ (mem_of_get? hg)

/-- The same for DERR. -/
theorem derrAt_rational {s : State} (he : s.par.num = .exact) (hb : ∀ e ∈ s.mem.derr, IsFin e.2) (n : Nat) :
    IsFin (s.derrAt n) := by
  unfold State.derrAt
  cases hg : Buf.get? s.mem.derr n with
  | none => rw [he]; exact ⟨_, rfl⟩
  | some x => exact hb _ (mem_of_get? hg)

end Sys2Proof.Machine
end

