-- ==== Sys2Proof/Laws/Num.lean ====
section
/-! SUPPORT. The arithmetic of `NUM = EXACT` on rationals, and the rounding functions. -/

namespace Sys2Proof.Machine

/-! ## Exact arithmetic on rationals -/

@[simp] theorem numVal_fin (q : Rat) : numVal (.fin q) = some q := rfl

@[simp] theorem numRound_exact (z : Bool) (q : Rat) : numRound .exact z q = .fin q := rfl

@[simp] theorem numNeg_exact (q : Rat) : numNeg .exact (.fin q) = .fin (-q) := by
  by_cases h : q = 0 <;> simp [numNeg, h]

@[simp] theorem numAdd_exact (a b : Rat) : numAdd .exact (.fin a) (.fin b) = .fin (a + b) := rfl

@[simp] theorem numSub_exact (a b : Rat) : numSub .exact (.fin a) (.fin b) = .fin (a - b) := by
  simp [numSub, sub_eq_add_neg]

@[simp] theorem numMul_exact (a b : Rat) : numMul .exact (.fin a) (.fin b) = .fin (a * b) := rfl

theorem numDiv_exact (a : Rat) {b : Rat} (h : b ≠ 0) : numDiv .exact (.fin a) (.fin b) = .fin (a / b) := by
  simp [numDiv, h]

@[simp] theorem numSign_fin (q : Rat) : numSign (.fin q) = .fin (signRat q) := by
  simp only [numSign, numVal_fin, signRat]
  split
  · rfl
  · split <;> rfl

@[simp] theorem numIsZero_fin (q : Rat) : numIsZero (.fin q) = decide (q = 0) := rfl

@[simp] theorem numLt_fin (e k : Nat) (a b : Rat) : numLt e k (.fin a) (.fin b) = decide (a < b) := rfl

@[simp] theorem numClamp_fin (e k : Nat) (q : Rat) : numClamp e k (.fin q) = .fin (clampRat q) := by
  simp only [numClamp, numLt_fin, clampRat, decide_eq_true_eq]
  split
  · rfl
  · split <;> rfl

@[simp] theorem numRoundInt_fin (e k : Nat) (q : Rat) : numRoundInt e k (.fin q) = roundEven q := rfl

@[simp] theorem settle_fin (y : NumSys) (e k : Nat) (q : Rat) : settle y e k (.fin q) = .fin q := rfl

@[simp] theorem settleCpx_cpxRat (y : NumSys) (e k : Nat) (z : Rat × Rat) : settleCpx y e k (cpxRat z) = cpxRat z :=
  rfl

@[simp] theorem settleCpx_zero (y : NumSys) (e k : Nat) : settleCpx y e k Cpx.zero = Cpx.zero := rfl

/-- Storing a finite value stores that value, in every numeric system. -/
theorem settle_of_val {y : NumSys} {e k : Nat} {x : NumVal} {q : Rat} (h : numVal x = some q) :
    settle y e k x = x := by
  cases x <;> first | rfl | simp [numVal] at h

/-- Under `NUM = EXACT` whatever is stored from a rational or a value that is not finite is a rational. -/
theorem settle_exact_isFin (e k : Nat) {x : NumVal} (h : x ≠ .negZero) : IsFin (settle .exact e k x) := by
  cases x with
  | fin q => exact ⟨q, rfl⟩
  | negZero => exact absurd rfl h
  | inf n => exact ⟨_, rfl⟩
  | nan n p => exact ⟨_, rfl⟩

/-- A sum of rationals from 0, in ascending order. -/
theorem numSum_exact (n : Nat) (f : Nat → Rat) :
    numSum .exact n (fun j => .fin (f j)) = .fin (∑ j ∈ Finset.range n, f j) := by
  induction n with
  | zero => simp [numSum]
  | succ n ih =>
    simp only [numSum] at ih ⊢
    rw [List.range_succ, List.foldl_append, ih, Finset.sum_range_succ]
    rfl

/-- Equal terms have equal sums. -/
theorem numSum_congr {y : NumSys} {n : Nat} {f g : Nat → NumVal} (h : ∀ j, j < n → f j = g j) :
    numSum y n f = numSum y n g := by
  simp only [numSum]
  have : ∀ (l : List Nat) (a : NumVal), (∀ j ∈ l, f j = g j) →
      l.foldl (fun acc j => numAdd y acc (f j)) a = l.foldl (fun acc j => numAdd y acc (g j)) a := by
    intro l
    induction l with
    | nil => intro a _; rfl
    | cons x r ih =>
      intro a hl
      simp only [List.foldl_cons, hl x List.mem_cons_self]
      exact ih _ fun j hj => hl j (List.mem_cons_of_mem _ hj)
  exact this _ _ fun j hj => h j (List.mem_range.1 hj)

/-! ## Rounding -/

/-- An integer rounds to itself. -/
@[simp] theorem roundEven_intCast (n : Int) : roundEven (n : Rat) = n := by
  simp [roundEven, Rat.floor_intCast]

/-- The rounded value lies within the floor and the floor plus one. -/
theorem roundEven_cases (q : Rat) : roundEven q = q.floor ∨ roundEven q = q.floor + 1 := by
  simp only [roundEven]
  split
  · exact .inl rfl
  · split
    · exact .inr rfl
    · split
      · exact .inl rfl
      · exact .inr rfl

theorem twoPow_pos (e : Int) : 0 < twoPow e := by
  unfold twoPow
  split <;> positivity

/-! ## Clamping -/

theorem clampRat_bounds (q : Rat) : -1 ≤ clampRat q ∧ clampRat q ≤ 1 := by
  unfold clampRat
  split
  · constructor <;> norm_num
  · split
    · constructor <;> norm_num
    · exact ⟨not_lt.1 ‹_›, not_lt.1 ‹_›⟩

theorem clampRat_of_mem {q : Rat} (h1 : -1 ≤ q) (h2 : q ≤ 1) : clampRat q = q := by
  simp [clampRat, not_lt.2 h1, not_lt.2 h2]

end Sys2Proof.Machine
end

