-- ==== Sys2Proof/Laws/Environment.lean ====
section
/-! SUPPORT. The channel and the files of the host: silence is the identity, and the decimal digits read back. -/

namespace Sys2Proof.Machine

/-! ## The channel (46_environment.md R92) -/

@[simp] theorem length_impair (y : NumSys) (x : List Cpx) (level ampVar : NumVal) (d : ChannelDraws) :
    (impair y x level ampVar d).length = 2 * x.length := by simp [impair]

/-- Under `NUM = EXACT` only the number itself is nearest to a rational. -/
theorem isNearest_exact {x : Rat} {v : NumVal} (h : IsNearest .exact (x : ℝ) v) : v = .fin x := by
  obtain ⟨hd, q, hq, hn⟩ := h
  have h0 : |(q : ℝ) - x| ≤ |(x : ℝ) - x| := hn (.fin x) x rfl rfl
  have hqx : q = x := by
    have : (q : ℝ) = x := by simpa [sub_eq_zero] using h0
    exact_mod_cast this
  subst hqx
  cases v <;> simp_all [inDomain, fmtOf, numVal]

/-- A finite value under `NUM = EXACT` is a rational. -/
theorem isFin_of_isFinite {x : NumVal} (h : IsFinite .exact x) : IsFin x := by
  cases x with
  | fin q => exact ⟨q, rfl⟩
  | negZero => exact absurd h.1 (by decide)
  | inf n => exact absurd h.2 (by simp [numVal])
  | nan n p => exact absurd h.2 (by simp [numVal])

/-- With no noise, no scale and no rotation the channel only embeds the signal, at its offset, into a buffer of zeros. -/
theorem silent_channel_embeds {x out : List Cpx} (hx : ∀ z ∈ x, CpxFin z)
    (h : ChannelGives .exact x (.fin 0) (.fin 0) 0 out) (n : Nat) (hn : n < 2 * x.length) :
    out.getD n Cpx.zero =
      if channelOffset x.length ≤ n ∧ n < channelOffset x.length + x.length
      then x.getD (n - channelOffset x.length) Cpx.zero else Cpx.zero := by
  obtain ⟨d, ⟨hl, hg, ⟨hu, -⟩, φ, hφ, hre, him⟩, rfl⟩ := h
  have hφ0 : φ = 0 := by simpa using hφ
  subst hφ0
  have hre' := isNearest_exact (x := 1) (by simpa using hre)
  have him' := isNearest_exact (x := 0) (by simpa using him)
  obtain ⟨u, hu⟩ := isFin_of_isFinite hu
  have hn' : n < d.normal.length := by omega
  obtain ⟨⟨a, ha⟩, ⟨b, hb⟩⟩ : IsFin (d.normal[n]).re ∧ IsFin (d.normal[n]).im :=
    ⟨isFin_of_isFinite (hg _ (List.getElem_mem hn')).1, isFin_of_isFinite (hg _ (List.getElem_mem hn')).2⟩
  have hz : channelNoise .exact (.fin 0) (d.normal.getD n Cpx.zero) = Cpx.zero := by
    simp [channelNoise, cpxScale, List.getD, hn', ha, hb, Cpx.zero]
  have hs : channelScale .exact (.fin 0) d.unit = .fin 1 := by simp [channelScale, hu]
  have hlen : n < (impair .exact x (.fin 0) (.fin 0) d).length := by simpa using hn
  have hone : ∀ z : Cpx, CpxFin z → cpxMul .exact d.rotation (cpxScale .exact (.fin 1) z) = z := by
    rintro ⟨re, im⟩ ⟨⟨p, rfl⟩, ⟨q, rfl⟩⟩
    simp [cpxMul, cpxScale, hre', him']
  rw [List.getD_eq_getElem _ _ hlen]
  simp only [impair, List.getElem_map, List.getElem_range, hz, hs]
  split
  · rename_i hc
    have hm : n - channelOffset x.length < x.length := by omega
    rw [List.getD_eq_getElem _ _ hm]
    have hf := hx _ (List.getElem_mem hm)
    rw [hone]
    · obtain ⟨⟨p, hp⟩, ⟨q, hq⟩⟩ := hf
      generalize x[n - channelOffset x.length] = z at hp hq ⊢
      cases z; simp_all [cpxAdd, Cpx.zero]
    · obtain ⟨⟨p, hp⟩, ⟨q, hq⟩⟩ := hf
      exact ⟨⟨p, by simp [cpxAdd, Cpx.zero, hp]⟩, ⟨q, by simp [cpxAdd, Cpx.zero, hq]⟩⟩
  · exact hone _ ⟨⟨0, rfl⟩, ⟨0, rfl⟩⟩

/-! ## The files (R93, R94) -/

/-- The digits written for a value read back as its magnitude. -/
theorem decimalDigits_value {q : Rat} {k n : Nat} (h : decimalDigits q = some (k, n)) : |q| = (n : Rat) / 10 ^ k := by
  simp only [decimalDigits, Option.map_eq_some_iff, Prod.mk.injEq] at h
  obtain ⟨k', hk, rfl, rfl⟩ := h
  have hd : q.den ∣ 10 ^ k' := by
    have := List.find?_some hk
    exact Nat.dvd_of_mod_eq_zero (by simpa using this)
  have hden : (q.den : Rat) ≠ 0 := by exact_mod_cast q.den_nz
  rw [Nat.cast_div (hd.mul_left _) hden]
  have hq : |q| = (q.num.natAbs : Rat) / q.den := by
    conv_lhs => rw [← Rat.num_div_den q, abs_div]
    simp [Nat.cast_natAbs]
  rw [hq]
  push_cast
  field_simp

/-- A file holds two bytes for each component of each sample. -/
theorem length_samplesToFile {y : NumSys} {scale : NumVal} {x : List Cpx} {f : List (BitVec 8)}
    (h : samplesToFile y scale x = some f) : f.length = 4 * x.length := by
  have hb : ∀ {v : NumVal} {b : List (BitVec 8)}, int16Bytes y scale v = some b → b.length = 2 := by
    intro v b hv
    unfold int16Bytes at hv
    split at hv
    · cases hv
    · split at hv
      · cases hv; rfl
      · cases hv
  induction x generalizing f with
  | nil => cases h; rfl
  | cons z r ih =>
    simp only [samplesToFile] at h
    split at h
    · rename_i i q bytes hi hq hr
      cases h
      simp only [List.length_append, hb hi, hb hq, ih hr, List.length_cons]
      omega
    · cases h

end Sys2Proof.Machine
end

