-- ==== Sys2Proof/Laws/Meanings.lean ====
section
/-! SUPPORT. What each shared operation and each meaning can do, said once: a meaning's body either fails or is its
completed write. -/

namespace Sys2Proof.Machine

/-! ## The outcomes of each body -/

/-- MAP fails with `ERR_CAP` or writes. -/
theorem mapBody_cases (s : State) :
    (s.par.capBit < s.regs.nbit.toNat ∨ s.par.capSym < symbolCount s) ∧ mapBody s = fail .cap s ∨
    (s.regs.nbit.toNat ≤ s.par.capBit ∧ symbolCount s ≤ s.par.capSym) ∧ mapBody s = complete (mapWrite s).tick := by
  unfold mapBody
  split
  · exact .inl ⟨.inl ‹_›, rfl⟩
  · split
    · exact .inl ⟨.inr ‹_›, rfl⟩
    · exact .inr ⟨⟨by omega, by omega⟩, rfl⟩

/-- `NSPS ≤ 0` as the model tests it. -/
theorem nspsBad_iff (s : State) : nspsBad s = true ↔ s.regs.nsps.toInt ≤ 0 := by simp [nspsBad]

theorem nspsNat_pos {s : State} (h : 0 < s.regs.nsps.toInt) : 0 < nspsNat s := by
  unfold nspsNat; omega

theorem nspsNat_cast {s : State} (h : 0 < s.regs.nsps.toInt) : (nspsNat s : Int) = s.regs.nsps.toInt := by
  unfold nspsNat; omega

/-- UPS fails with `ERR_NSPS`, fails with `ERR_CAP`, or writes. -/
theorem upsBody_cases (s : State) :
    (s.regs.nsps.toInt ≤ 0 ∧ upsBody s = fail .nsps s) ∨
    (0 < s.regs.nsps.toInt ∧ s.par.capUp < upsLen s ∧ upsBody s = fail .cap s) ∨
    (0 < s.regs.nsps.toInt ∧ upsLen s ≤ s.par.capUp ∧ upsBody s = complete (upsWrite s).tick) := by
  unfold upsBody
  split
  · rename_i h; exact .inl ⟨(nspsBad_iff s).1 h, rfl⟩
  · rename_i h
    rw [nspsBad_iff] at h
    split
    · exact .inr (.inl ⟨by omega, ‹_›, rfl⟩)
    · exact .inr (.inr ⟨by omega, by omega, rfl⟩)

/-- SHAPE fails with `ERR_NSPS`, fails with `ERR_CAP`, or writes. -/
theorem shapeBody_cases (s : State) :
    (s.regs.nsps.toInt ≤ 0 ∧ shapeBody s = fail .nsps s) ∨
    (0 < s.regs.nsps.toInt ∧ s.par.capPul < shapeLen s ∧ shapeBody s = fail .cap s) ∨
    (0 < s.regs.nsps.toInt ∧ shapeLen s ≤ s.par.capPul ∧ shapeBody s = complete (shapeWrite s).tick) := by
  unfold shapeBody
  split
  · rename_i h; exact .inl ⟨(nspsBad_iff s).1 h, rfl⟩
  · rename_i h
    rw [nspsBad_iff] at h
    split
    · exact .inr (.inl ⟨by omega, ‹_›, rfl⟩)
    · exact .inr (.inr ⟨by omega, by omega, rfl⟩)

/-- MFILT fails with `ERR_NSPS`, fails with `ERR_CAP`, or writes. -/
theorem mfiltBody_cases (s : State) :
    (s.regs.nsps.toInt ≤ 0 ∧ mfiltBody s = fail .nsps s) ∨
    (0 < s.regs.nsps.toInt ∧ (s.par.capRx < s.regs.nrx.toNat ∨ s.par.capMf < mfiltLen s) ∧
      mfiltBody s = fail .cap s) ∨
    (0 < s.regs.nsps.toInt ∧ s.regs.nrx.toNat ≤ s.par.capRx ∧ mfiltLen s ≤ s.par.capMf ∧
      mfiltBody s = complete (mfiltWrite s).tick) := by
  unfold mfiltBody
  split
  · rename_i h; exact .inl ⟨(nspsBad_iff s).1 h, rfl⟩
  · rename_i h
    rw [nspsBad_iff] at h
    split
    · exact .inr (.inl ⟨by omega, .inl ‹_›, rfl⟩)
    · split
      · exact .inr (.inl ⟨by omega, .inr ‹_›, rfl⟩)
      · exact .inr (.inr ⟨by omega, by omega, by omega, rfl⟩)

/-- INIT fails with the first of its four errors, or writes. -/
theorem initBody_cases (s : State) :
    (∃ c, c ≠ ErrCode.none ∧ initBody s = fail c s) ∨
    (0 < s.regs.nsps.toInt ∧ s.regs.cfg.tedSel.toNat ≠ 3 ∧ s.regs.cfg.wrapSel = false ∧
      numIsZero (coeffOf s).1 = false ∧ initBody s = complete (initWrite s).tick) := by
  unfold initBody
  split
  · exact .inl ⟨_, by decide, rfl⟩
  · rename_i h1
    split
    · exact .inl ⟨_, by decide, rfl⟩
    · rename_i h2
      split
      · exact .inl ⟨_, by decide, rfl⟩
      · rename_i h3
        split
        · exact .inl ⟨_, by decide, rfl⟩
        · rename_i h4
          rw [nspsBad_iff] at h1
          exact .inr ⟨by omega, h2, by simpa using h3, by simpa using h4, rfl⟩

/-- STEP fails with `ERR_SEQ`, finds the loop stopped, or performs the body of an iteration. -/
theorem stepBody_cases (s : State) :
    (seqOk s = false ∧ stepBody s = fail .seq s) ∨
    (seqOk s = true ∧ s.regs.status.stop = true ∧ stepBody s = complete s) ∨
    (seqOk s = true ∧ s.regs.status.stop = false ∧ stepBody s = complete (iterate s)) := by
  unfold stepBody
  split
  · rename_i h
    split
    · rename_i h1
      exact .inr (.inl ⟨h, h1, rfl⟩)
    · rename_i h1
      exact .inr (.inr ⟨h, Bool.eq_false_iff.2 h1, rfl⟩)
  · rename_i h
    exact .inl ⟨Bool.eq_false_iff.2 h, rfl⟩

/-- RUN fails with `ERR_SEQ` or runs the loop. -/
theorem runBody_cases (s : State) :
    (seqOk s = false ∧ runBody s = fail .seq s) ∨
    (seqOk s = true ∧ runBody s = complete (runLoop (runFuel s) s)) := by
  unfold runBody
  split
  · rename_i h
    exact .inr ⟨h, rfl⟩
  · rename_i h
    exact .inl ⟨Bool.eq_false_iff.2 h, rfl⟩

/-- The body of an iteration stops the loop with a cause or performs the iteration. -/
theorem iterate_cases (s : State) :
    (∃ c, stopTest s = some c ∧ iterate s = stopLoop c s) ∨ (stopTest s = none ∧ iterate s = advance s) := by
  unfold iterate
  cases h : stopTest s with
  | none => exact .inr ⟨rfl, rfl⟩
  | some c => exact .inl ⟨c, rfl, rfl⟩

/-- No stop test holds exactly when all four conditions fail. -/
theorem stopTest_none_iff (s : State) : stopTest s = none ↔
    2 * s.regs.nsps.toInt ≤ (s.regs.nrx.toNat : Int) ∧ 0 ≤ startIndex s ∧
      endIndex s ≤ (s.regs.nmf.toNat : Int) - 1 ∧ s.regs.nout.toNat ≠ s.par.capOut := by
  unfold stopTest
  split
  · simp; omega
  · split
    · simp; omega
    · split
      · simp; omega
      · split
        · simp; omega
        · simp only [true_iff]; omega

/-- A stop cause is never `NONE`. -/
theorem stopTest_some_ne_none {s : State} {c : StopCause} (h : stopTest s = some c) : c ≠ .none := by
  rintro rfl
  unfold stopTest at h
  split at h
  · exact absurd h (by decide)
  · split at h
    · exact absurd h (by decide)
    · split at h
      · exact absurd h (by decide)
      · split at h
        · exact absurd h (by decide)
        · exact absurd h (by decide)

/-! ## An iteration performed -/

theorem advance_regs (s : State) : (advance s).regs =
    { (lfUpd (tedSelected s)).regs with nout := s.regs.nout + 1, kidx := s.regs.kidx + 1 } := by
  have h := tedSelected_regs s
  simp only [advance, tick_regs, emit_regs]
  congr 1
  · simp [lfUpd]
  · simp [lfUpd]

@[simp] theorem advance_status (s : State) : (advance s).regs.status = s.regs.status := by
  simp [advance_regs, lfUpd]

@[simp] theorem advance_par (s : State) : (advance s).par = s.par := by simp [advance]
@[simp] theorem advance_eng (s : State) : (advance s).eng = s.eng := by simp [advance]
@[simp] theorem advance_script (s : State) : (advance s).script = s.script := by simp [advance]
@[simp] theorem advance_seen (s : State) : (advance s).seen = s.seen := by simp [advance]
@[simp] theorem advance_lat (s : State) : (advance s).lat = s.lat := by simp [advance]
@[simp] theorem advance_era (s : State) : (advance s).era = s.era := by simp [advance]
@[simp] theorem advance_epoch (s : State) : (advance s).epoch = s.epoch + 1 := by simp [advance]

theorem advance_mem (s : State) : (advance s).mem =
    { s.mem with
      out := Buf.put s.regs.nout.toNat (settleCpx s.par.num s.epoch 8 (mfAt s (emitIndex s))) s.mem.out
      derr := Buf.put s.regs.nout.toNat (tedSelected s).err s.mem.derr
      dtau := Buf.put s.regs.nout.toNat (BitVec.ofInt 32 (lfTau (tedSelected s))) s.mem.dtau } := by
  simp [advance, emit, lfUpd, State.tick]

/-- What an iteration's body keeps, whether it stops the loop or performs the iteration. -/
theorem iterate_frame (s : State) :
    (iterate s).par = s.par ∧ (iterate s).eng = s.eng ∧ (iterate s).script = s.script ∧
      (iterate s).seen = s.seen ∧ (iterate s).lat = s.lat ∧ (iterate s).era = s.era := by
  rcases iterate_cases s with ⟨c, -, h⟩ | ⟨-, h⟩ <;> simp [h]

/-! ## The convolution's output -/

@[simp] theorem length_boxOut (s : State) (c : CBuf) (len : Nat) :
    (boxOut s c len).length = boxLen len (nspsNat s) := by simp [boxOut]

theorem getElem_boxOut (s : State) (c : CBuf) (len n : Nat) (h : n < (boxOut s c len).length) :
    (boxOut s c len)[n] =
      settleCpx s.par.num s.epoch (2 * n) (boxAt s.par.num (s.live c len) (nspsNat s) n) := by
  simp [boxOut]

/-- The term `Xz(n − j)` over the live part of a buffer, read by index. -/
theorem xz_live (s : State) (c : CBuf) (len n j : Nat) :
    xz (s.live c len) ((n : Int) - j) = windowTerm s c len n j := by
  unfold xz windowTerm State.live
  by_cases h : j ≤ n
  · have h0 : (0 : Int) ≤ (n : Int) - j := by omega
    have h1 : ((n : Int) - j).toNat = n - j := by omega
    simp only [h0, if_true, h1, h, true_and]
    by_cases h2 : n - j < len
    · simp [List.getD, h2]
    · simp [List.getD, h2]
  · simp [h]

/-- One output of the convolution is the window's sum. -/
theorem boxAt_live (s : State) (c : CBuf) (len n : Nat) :
    boxAt s.par.num (s.live c len) (nspsNat s) n = windowSum s c len n := by
  simp only [boxAt, windowSum, xz_live]

end Sys2Proof.Machine
end

