-- ==== Sys2Proof/Laws/Memory.lean ====
section
/-! SUPPORT. Every operation that writes memory keeps its canonical form and the capacities, and stores nowhere
else. -/

namespace Sys2Proof.Machine

/-! ## The canonical form and the capacities -/

theorem wf_writeBit (s : State) (n : Nat) (w : Word) (h : s.mem.wf = true) : (writeBit s n w).mem.wf = true := by
  rw [memory_wf_iff] at h ⊢
  obtain ⟨h1, h2, h3, h4⟩ := h
  refine ⟨rising_put n _ h1, fun c => ?_, h3, h4⟩
  cases c
  exacts [h2 .sym, h2 .up, h2 .pul, h2 .rx, h2 .mf, h2 .out]

theorem inCap_writeBit (s : State) {n : Nat} (w : Word) (hn : n < s.par.capBit)
    (h : s.mem.inCap s.par = true) : (writeBit s n w).mem.inCap s.par = true := by
  rw [memory_inCap_iff] at h ⊢
  obtain ⟨h1, h2, h3, h4⟩ := h
  refine ⟨below_put hn _ h1, fun c => ?_, h3, h4⟩
  cases c
  exacts [h2 .sym, h2 .up, h2 .pul, h2 .rx, h2 .mf, h2 .out]

theorem wf_writeRx (s : State) (n : Nat) (z : Cpx) (h : s.mem.wf = true) : (writeRx s n z).mem.wf = true := by
  rw [memory_wf_iff] at h ⊢
  obtain ⟨h1, h2, h3, h4⟩ := h
  refine ⟨h1, fun c => ?_, h3, h4⟩
  cases c
  exacts [h2 .sym, h2 .up, h2 .pul, rising_put n z (h2 .rx), h2 .mf, h2 .out]

theorem inCap_writeRx (s : State) {n : Nat} (z : Cpx) (hn : n < s.par.capRx)
    (h : s.mem.inCap s.par = true) : (writeRx s n z).mem.inCap s.par = true := by
  rw [memory_inCap_iff] at h ⊢
  obtain ⟨h1, h2, h3, h4⟩ := h
  refine ⟨h1, fun c => ?_, h3, h4⟩
  cases c
  exacts [h2 .sym, h2 .up, h2 .pul, below_put hn z (h2 .rx), h2 .mf, h2 .out]

theorem wf_emit (z : Cpx) (s : State) (h : s.mem.wf = true) : (emit z s).mem.wf = true := by
  rw [memory_wf_iff] at h ⊢
  obtain ⟨h1, h2, h3, h4⟩ := h
  refine ⟨h1, fun c => ?_, rising_put _ _ h3, rising_put _ _ h4⟩
  cases c
  exacts [h2 .sym, h2 .up, h2 .pul, h2 .rx, h2 .mf, rising_put _ _ (h2 .out)]

theorem inCap_emit (z : Cpx) (s : State) (hn : s.regs.nout.toNat < s.par.capOut)
    (h : s.mem.inCap s.par = true) : (emit z s).mem.inCap s.par = true := by
  rw [memory_inCap_iff] at h ⊢
  obtain ⟨h1, h2, h3, h4⟩ := h
  refine ⟨h1, fun c => ?_, below_put hn _ h3, below_put hn _ h4⟩
  cases c
  exacts [h2 .sym, h2 .up, h2 .pul, h2 .rx, h2 .mf, below_put hn _ (h2 .out)]

theorem wf_hardReset (s : State) : (hardReset s).mem.wf = true := wf_unwritten

theorem inCap_hardReset (s : State) : (hardReset s).mem.inCap s.par = true := by
  simp [hardReset, Memory.inCap, Memory.unwritten, Buf.below]

/-! ## Frames -/

/-- A host write to BIT stores one element and nothing else. -/
theorem readElem_writeBit (s : State) (n : Nat) (w : Word) :
    SameElems (fun a b => a = 0 ∧ b = n) s (writeBit s n w) := by
  intro sp m hm
  match sp with
  | 0 =>
    have h : m ≠ n := fun h => hm ⟨rfl, h⟩
    simp only [State.readElem, State.bitAt, writeBit, get?_put_other h]
  | 1 | 2 | 3 | 4 | 5 | 6 | 7 | 8 | 9 => rfl
  | _ + 10 => rfl

/-- A host write to RX stores one element and nothing else. -/
theorem readElem_writeRx (s : State) (n : Nat) (z : Cpx) :
    SameElems (fun a b => a = 4 ∧ b = n) s (writeRx s n z) := by
  intro sp m hm
  match sp with
  | 4 =>
    have h : m ≠ n := fun h => hm ⟨rfl, h⟩
    simp only [State.readElem, State.cpxAt, writeRx, Memory.cbuf, get?_put_other h]
  | 0 | 1 | 2 | 3 | 5 | 6 | 7 | 8 | 9 => rfl
  | _ + 10 => rfl

/-- An iteration's outputs are one element of each of OUT, DERR and DTAU, and nothing else. -/
theorem readElem_emit (z : Cpx) (s : State) :
    SameElems (fun a b => (a = 6 ∨ a = 7 ∨ a = 8) ∧ b = s.regs.nout.toNat) s (emit z s) := by
  intro sp m hm
  match sp with
  | 6 =>
    have h : m ≠ s.regs.nout.toNat := fun h => hm ⟨by simp, h⟩
    simp only [State.readElem, State.cpxAt, emit, Memory.cbuf, get?_put_other h]
  | 7 =>
    have h : m ≠ s.regs.nout.toNat := fun h => hm ⟨by simp, h⟩
    simp only [State.readElem, State.derrAt, emit, get?_put_other h]
  | 8 =>
    have h : m ≠ s.regs.nout.toNat := fun h => hm ⟨by simp, h⟩
    simp only [State.readElem, State.dtauAt, emit, get?_put_other h]
  | 0 | 1 | 2 | 3 | 4 | 5 | 9 => rfl
  | _ + 10 => rfl

end Sys2Proof.Machine
end

