-- ==== Sys2Proof/Laws/PerInstr.lean ====
section
/-! SUPPORT. Facts about every instruction as syntax, one lemma per constructor: its code decodes to it, and the
code is the one spec/opcode_table.json gives (30_encoding.md R47, R51, R52). -/

namespace Sys2Proof.Laws

/-- The match and mask values of an instruction's row in spec/opcode_table.json. -/
def tableRow : Instr → Word × Word
  | .nop => (0x00000000, 0xFFFFFFFF)
  | .map => (0x00000001, 0xFFFFFFFF)
  | .ups => (0x00000002, 0xFFFFFFFF)
  | .shape => (0x00000003, 0xFFFFFFFF)
  | .mfilt => (0x00000004, 0xFFFFFFFF)
  | .init => (0x00000005, 0xFFFFFFFF)
  | .step => (0x00000006, 0xFFFFFFFF)
  | .run => (0x00000007, 0xFFFFFFFF)
  | .srst => (0x0000000F, 0xFFFFFFFF)
  | .tedGa => (0x00000000, 0x00000003)
  | .tedGc => (0x00000001, 0x00000003)
  | .tedZc => (0x00000002, 0x00000003)
  | .lfUpd => (0x00000000, 0x00000004)

/-- The code of a well-formed instruction decodes to it and selects its row of the opcode table. -/
def Coded.Statement (i : Instr) : Prop :=
  i.wf = true ∧ decode (encode i) = .ok i ∧ (encode i).bits &&& (tableRow i).2 = (tableRow i).1

theorem Coded.nop : Coded.Statement .nop := by unfold Coded.Statement; decide
theorem Coded.map : Coded.Statement .map := by unfold Coded.Statement; decide
theorem Coded.ups : Coded.Statement .ups := by unfold Coded.Statement; decide
theorem Coded.shape : Coded.Statement .shape := by unfold Coded.Statement; decide
theorem Coded.mfilt : Coded.Statement .mfilt := by unfold Coded.Statement; decide
theorem Coded.init : Coded.Statement .init := by unfold Coded.Statement; decide
theorem Coded.step : Coded.Statement .step := by unfold Coded.Statement; decide
theorem Coded.run : Coded.Statement .run := by unfold Coded.Statement; decide
theorem Coded.srst : Coded.Statement .srst := by unfold Coded.Statement; decide
theorem Coded.tedGa : Coded.Statement .tedGa := by unfold Coded.Statement; decide
theorem Coded.tedGc : Coded.Statement .tedGc := by unfold Coded.Statement; decide
theorem Coded.tedZc : Coded.Statement .tedZc := by unfold Coded.Statement; decide
theorem Coded.lfUpd : Coded.Statement .lfUpd := by unfold Coded.Statement; decide

end Sys2Proof.Laws
end

