-- ==== Sys2Proof/Tests/Slice0.lean ====
section
/-! SUPPORT. Small tests, each of one step or one function with the value the specification gives for it (V… and P… are
the vectors and programs of spec/95_test_vectors.md), the smoke test of the well-formedness checks, and for every
obligation with hypotheses a state and operands that meet them. -/

open Sys2Proof Sys2Proof.Machine

namespace Sys2Proof.Tests

/-! ## States the tests start from -/

/-- A small exact instance. -/
def small : Params :=
  { num := .exact, capBit := 20, capSym := 8, capUp := 12, capPul := 16, capRx := 12, capMf := 16, capOut := 4
    regBase := 0, bufBase := Vector.ofFn fun k => (k.val + 1) * 4096 }

/-- A complex element with integer parts. -/
def zi (i q : Int) : Cpx := ⟨.fin i, .fin q⟩

/-- Bits written to BIT from index 0 on. -/
def bitsOf (b : List Nat) : Buf Bool := Buf.number 0 (b.map fun x => decide (x = 1))

/-- Right after reset. -/
def base : State := State.resetOf small

/-- Ready for MAP: the payload `b`, with or without the Barker bits. -/
def txState (b : List Nat) (sync : Bool) (a : Rat) : State :=
  { base with
    regs := { base.regs with
      nbit := BitVec.ofNat 32 b.length, nsps := 3, qamp := .fin a, cfg := { Cfg.reset with syncEn := sync } }
    mem := { base.mem with bit := bitsOf b } }

/-- Ready for UPS and SHAPE: two symbols, already stuffed with zeros for `NSPS` = 3 (V18). -/
def upState : State :=
  { base with
    regs := { base.regs with nsps := 3, nsym := 2, nup := 6 }
    mem := { base.mem with
      sym := Buf.number 0 [zi 1 (-1), zi (-1) (-1)]
      up := Buf.number 0 [zi 1 (-1), zi 0 0, zi 0 0, zi (-1) (-1), zi 0 0, zi 0 0] } }

/-- Ready for MFILT: three samples, `NSPS` = n (V25 to V27). -/
def rxState (n : Int) : State :=
  { base with
    regs := { base.regs with nsps := BitVec.ofInt 32 n, nrx := 3, status := { Status.reset with mfOk := true } }
    mem := { base.mem with rx := Buf.number 0 [zi 1 0, zi 2 (-1), zi 3 5] } }

/-- Ready for INIT (V45: BNTS = 1/2, KP = 16, NSPS = 4). -/
def initState : State :=
  { base with regs := { base.regs with nsps := 4, bnts := .fin (1 / 2), kp := .fin 16 } }

/-- The flags of a run in progress. -/
def runFlags : Status := { Status.reset with initOk := true, mfOk := true }

/-- A run at its start: `NSPS` = 2, four samples, `BNTS` = 1/2, `KP` = 2 (the coefficients of V56, which has the same
`u` = 1/4), MF as MFILT gives it. -/
def runState : State :=
  { base with
    regs := { base.regs with
      nsps := 2, bnts := .fin (1 / 2), kp := .fin 2, k1 := .fin (-6 / 25), k2 := .fin (-2 / 25)
      nrx := 4, nmf := 5, status := runFlags }
    mem := { base.mem with
      rx := Buf.number 0 [zi 1 0, zi 2 (-1), zi 3 5, zi 0 0]
      mf := Buf.number 0 [zi 1 0, zi 3 (-1), zi 5 4, zi 3 5, zi 0 0] } }

/-- Three samples that the detectors of iteration 0 read, `NSPS` = 2. -/
def tedState (zs zm ze : Cpx) : State :=
  { base with
    regs := { base.regs with nsps := 2, nmf := 3 }
    mem := { base.mem with mf := Buf.number 0 [zs, zm, ze] } }

/-- Before LF.UPD: `NSPS`, both coefficients, `P2` and the detector's output. -/
def lfState (n : Int) (k1 k2 p2 e : Rat) (ct cc : Nat) : State :=
  { base with
    err := .fin e
    regs := { base.regs with
      nsps := BitVec.ofInt 32 n, k1 := .fin k1, k2 := .fin k2, p2 := .fin p2
      clampTot := BitVec.ofNat 32 ct, clampCon := BitVec.ofNat 32 cc } }

/-- `STATUS` = 0x0000103A (V79): done, stopped at the end of the buffer, both validity flags. -/
def endFlags : Status := { runFlags with done := true, stop := true, stopCause := .eob }

/-- A state in which a command word is in flight and `k` host transactions still land. -/
def busyState (w : Word) (k : Nat) (script : List HostOp) : State :=
  { runState with eng := .command w k, script := script, regs := { runState.regs with status := runFlags } }

/-- A decidable property of the next state of an outcome. -/
def nextHas (o : Host.Outcome State Fault Refusal) (p : State → Bool) : Bool :=
  match o with
  | .next t => p t
  | .fault _ => false
  | .refused _ => false

/-- The reason of a refusal. -/
def refusal (o : Host.Outcome State Fault Refusal) : Option Refusal :=
  match o with
  | .next _ => none
  | .fault _ => none
  | .refused e => some e

/-- What the host reads from the registers `rs` of the next state. -/
def nextRegs (o : Host.Outcome State Fault Refusal) (rs : List Nat) : List PortVal :=
  match o with
  | .next t => rs.map t.readReg
  | .fault _ => []
  | .refused _ => []

/-- The first `n` elements of a complex buffer in the next state. -/
def nextLive (o : Host.Outcome State Fault Refusal) (c : CBuf) (n : Nat) : List Cpx :=
  match o with
  | .next t => t.live c n
  | .fault _ => []
  | .refused _ => []

/-- The detector's output in the next state. -/
def nextErr (o : Host.Outcome State Fault Refusal) : List NumVal :=
  match o with
  | .next t => [t.err]
  | .fault _ => []
  | .refused _ => []

/-! ## Well-formedness: an ill-formed term for each check (R7, R17, R36) -/

theorem test_wf_capBit_small : ({ small with capBit := 0 } : Params).wf = false := by decide
theorem test_wf_capSym_small : ({ small with capSym := 6 } : Params).wf = false := by decide
theorem test_wf_capUp_small : ({ small with capUp := 0 } : Params).wf = false := by decide
theorem test_wf_capPul_small : ({ small with capPul := 0 } : Params).wf = false := by decide
theorem test_wf_capRx_small : ({ small with capRx := 0 } : Params).wf = false := by decide
theorem test_wf_capMf_small : ({ small with capMf := 0 } : Params).wf = false := by decide
theorem test_wf_capOut_small : ({ small with capOut := 0 } : Params).wf = false := by decide
theorem test_wf_capBit_big : ({ small with capBit := 2147483648 } : Params).wf = false := by decide
theorem test_wf_capSym_big : ({ small with capSym := 2147483648 } : Params).wf = false := by decide
theorem test_wf_capUp_big : ({ small with capUp := 2147483648 } : Params).wf = false := by decide
theorem test_wf_capPul_big : ({ small with capPul := 2147483648 } : Params).wf = false := by decide
theorem test_wf_capRx_big : ({ small with capRx := 2147483648 } : Params).wf = false := by decide
theorem test_wf_capOut_big : ({ small with capOut := 2147483648 } : Params).wf = false := by decide
theorem test_wf_capMf_big : ({ small with capMf := 2147418112 } : Params).wf = false := by decide
theorem test_wf_bases_overlap : ({ small with regBase := 4096 } : Params).wf = false ∧
    ({ small with bufBase := Vector.replicate 10 7 } : Params).wf = false := by decide
theorem test_wf_ok : small.wf = true ∧ Params.default.wf = true ∧ ({ small with capSym := 7 } : Params).wf = true ∧
    ({ small with capMf := 2147418111 } : Params).wf = true := by decide
theorem test_wf_reg_word : (HostOp.wr 3 (.num (.fin 1))).wf = false ∧ (HostOp.wr 0 (.cpx Cpx.zero)).wf = false := by
  decide
theorem test_wf_reg_num : (HostOp.wr 4 (.word 1)).wf = false ∧ (HostOp.wr 6 (.cpx Cpx.zero)).wf = false := by decide
theorem test_wf_elem_word : (HostOp.wb 0 0 (.cpx Cpx.zero)).wf = false := by decide
theorem test_wf_elem_cpx : (HostOp.wb 4 0 (.word 1)).wf = false := by decide
theorem test_ill_formed_refused : refusal (step { base with script := [.wr 3 (.num (.fin 1))] }) = some .portForm ∧
    refusal (step { base with script := [.wb 4 0 (.word 1)] }) = some .portForm := by decide +kernel
theorem test_value_outside_domain : refusal (step { base with script := [.wr 4 (.num .negZero)] }) =
    some .notInDomain := by decide +kernel

/-! ## Decoding: every constructor from a word written out from R47, R51, R52 -/

theorem test_decode_nop : decode ⟨.command, 0b00000000000000000000000000000000⟩ = .ok .nop := by decide
theorem test_decode_map : decode ⟨.command, 0b00000000000000000000000000000001⟩ = .ok .map := by decide
theorem test_decode_ups : decode ⟨.command, 0b00000000000000000000000000000010⟩ = .ok .ups := by decide
theorem test_decode_shape : decode ⟨.command, 0b00000000000000000000000000000011⟩ = .ok .shape := by decide
theorem test_decode_mfilt : decode ⟨.command, 0b00000000000000000000000000000100⟩ = .ok .mfilt := by decide
theorem test_decode_init : decode ⟨.command, 0b00000000000000000000000000000101⟩ = .ok .init := by decide
theorem test_decode_step : decode ⟨.command, 0b00000000000000000000000000000110⟩ = .ok .step := by decide
theorem test_decode_run : decode ⟨.command, 0b00000000000000000000000000000111⟩ = .ok .run := by decide
theorem test_decode_srst : decode ⟨.command, 0b00000000000000000000000000001111⟩ = .ok .srst := by decide
theorem test_decode_tedGa : decode ⟨.selector, 0b11000⟩ = .ok .tedGa := by decide
theorem test_decode_tedGc : decode ⟨.selector, 0b00001⟩ = .ok .tedGc := by decide
theorem test_decode_tedZc : decode ⟨.selector, 0b00010⟩ = .ok .tedZc := by decide
theorem test_decode_lfUpd : decode ⟨.selector, 0b00011⟩ = .ok .lfUpd := by decide
theorem test_decode_selector_ignores_wrap : decode ⟨.selector, 0b101⟩ = .ok .tedGc := by decide
theorem test_decode_unsupported : decode ⟨.selector, 0b111⟩ = .rejected .unsupportedSelector := by decide
theorem test_decode_reserved : ([0x08, 0x0E, 0x10, 0xFF] : List Word).all
    (fun w => decode ⟨.command, w⟩ == .rejected .reservedOpcode) = true := by decide +kernel
theorem test_decode_zero_field : ([0x100, 0x107, 0x80000001, 0xFFFFFFFF] : List Word).all
    (fun w => decode ⟨.command, w⟩ == .rejected .zeroFieldNonzero) = true := by decide +kernel
theorem test_table_word : decodeTableWord 32 6 = some .step ∧ decodeTableWord 8 2 = some .tedZc ∧
    decodeTableWord 32 9 = none := by decide
theorem test_fetch_runs_first : nextRegs (step (State.reset.withFetchWord 32 0x05)) [1] = [.word 0x106] ∧
    nextRegs (step (State.reset.withFetchWord 32 0x0F)) [1] = [.word 0x2] ∧
    nextRegs (step (State.reset.withFetchWord 8 0x03)) [1, 12] = [.word 0, .num (.fin 0)] := by decide +kernel

/-! ## Registers and the ports (R17 to R20, R31, R36 to R38, R55) -/

theorem test_status_image : endFlags.image false = 0x103A ∧
    ({ endFlags with errCode := .opc, err := true } : Status).image false = 0x173E ∧
    ({ endFlags with cmdOvr := true, stopCause := .full } : Status).image true = 0x307B := by decide
theorem test_cfg_image : (Cfg.ofImage 0xFFFFFFFF).image = 0x1F ∧ (Cfg.ofImage 0x0D).idxSel = true ∧
    (Cfg.ofImage 0x0D).tedSel = 1 ∧ (Cfg.ofImage 0x0D).wrapSel = true ∧ (Cfg.ofImage 0x0D).syncEn = false := by decide
theorem test_reset_reads : [1, 2, 6, 13, 21, 22].map State.reset.readReg =
    [.word 0, .word 0, .num (.fin 1), .word 0, .word 0, .word 0] := by decide +kernel
theorem test_barker_reads : (List.range 14).map (State.reset.readElem 9) =
    (([1, 1, 1, 1, 1, 0, 0, 1, 1, 0, 1, 0, 1] : List Word).map fun b => some (.word b)) ++ [none] := by decide
theorem test_write_nsps_clears_both : nextHas (step { runState with script := [.wr 3 (.word 5)] }) (fun t =>
    t.regs.nsps == 5 && !t.regs.status.initOk && !t.regs.status.mfOk) = true := by decide +kernel
theorem test_write_rx_clears_mfOk : nextHas (step { runState with script := [.wb 4 2 (.cpx (zi 7 8))] }) (fun t =>
    t.cpxAt .rx 2 == zi 7 8 && t.cpxAt .rx 1 == zi 2 (-1) && t.regs.status.initOk && !t.regs.status.mfOk) = true := by
  decide +kernel
theorem test_write_bit_takes_bit_zero : nextHas (step { base with script := [.wb 0 3 (.word 0xFFFFFFFE)] }) (fun t =>
    t.mem.bit == [(3, false)]) = true := by decide +kernel
theorem test_busy_write_sets_overrun : nextHas (step (busyState 7 2 [.wr 0 (.word 1), .rd 1])) (fun t =>
    t.regs.status.cmdOvr && t.busy && t.eng == .command 7 1) = true := by decide +kernel
theorem test_busy_access_refused : refusal (step (busyState 7 2 [.rd 3])) = some .accessWhileBusy := by decide +kernel

/-! ## Numbers (R8, R11) -/

theorem test_round_ties : [1 / 2, 3 / 2, -1 / 2, -3 / 2, 5 / 2, 7 / 4, -7 / 4].map roundEven =
    [0, 2, 0, -2, 2, 2, -2] := by decide +kernel
theorem test_sign_zero : [(.fin 0 : NumVal), .negZero, .fin (-3), .fin (1 / 9)].map numSign =
    [.fin 0, .fin 0, .fin (-1), .fin 1] := by decide +kernel
/-- 1/3 and 2/3 in binary32 and binary64, the well-known roundings 0x3EAAAAAB and 0x3FE5555555555555. -/
theorem test_float_division : (toImage Fmt.b32 (numDiv .f32 (.fin 1) (.fin 3)) = some 0x3EAAAAAB) ∧
    (toImage Fmt.b64 (numDiv .f64 (.fin 2) (.fin 3)) = some 0x3FE5555555555555) := by decide +kernel
/-- 2^24 + 1 is a tie in binary32 and 2^24 + 3 another: to even both times. -/
theorem test_float_ties : numAdd .f32 (.fin 16777216) (.fin 1) = .fin 16777216 ∧
    numAdd .f32 (.fin 16777216) (.fin 3) = .fin 16777220 := by decide +kernel
/-- √2 in both formats: the neighbours of each value square to either side of 2. -/
theorem test_sqrt_two : toImage Fmt.b32 (sqrtTwo .f32) = some 0x3FB504F3 ∧
    toImage Fmt.b64 (sqrtTwo .f64) = some 0x3FF6A09E667F3BCD := by decide +kernel

/-! ## NOP, SRST, reserved words (V78, V79 to V82, R89) -/

theorem test_nop : nextRegs (exec .nop { base with regs := { base.regs with
    status := { Status.reset with done := true, err := true, errCode := .seq } } }) [1] = [.word 0x2] := by decide +kernel
theorem test_reserved_word : ([0x10, 0x107, 0x08, 0xFFFFFFFF] : List Word).all (fun w =>
    nextRegs (engineRun w { runState with regs := { runState.regs with status := endFlags } }) [1, 3] ==
      [.word 0x173E, .word 2]) = true := by decide +kernel
theorem test_srst : nextRegs (exec .srst runState) [1, 3, 6, 8, 18] =
    [.word 0x2, .word 0, .num (.fin 1), .word 0, .word 0] ∧
    nextLive (exec .srst runState) .mf 2 = [zi 1 0, zi 3 (-1)] := by decide +kernel

/-! ## MAP (V3, V5, V9, V13) -/

theorem test_map_points : (nextLive (exec .map (txState [0, 0, 0, 1, 1, 0, 1, 1] false 1)) .sym 4 =
    [zi 1 1, zi 1 (-1), zi (-1) 1, zi (-1) (-1)]) ∧
    (nextLive (exec .map (txState [1, 1, 0] true 1)) .sym 8 =
    [zi (-1) (-1), zi (-1) (-1), zi (-1) 1, zi 1 (-1), zi (-1) 1, zi (-1) 1, zi (-1) (-1), zi (-1) 1]) := by
  decide +kernel
theorem test_map_pads_and_caps : nextRegs (exec .map (txState [1, 0, 1] false 1)) [1, 15] = [.word 0x2, .word 2] ∧
    nextLive (exec .map (txState [1, 0, 1] false 1)) .sym 2 = [zi (-1) 1, zi (-1) 1] ∧
    (nextRegs (exec .map (txState (List.replicate 17 0) false 1)) [1, 15] =
    [.word 0x606, .word 0]) := by
  decide +kernel

/-! ## UPS and SHAPE (V18, V19b, V19d, V19e) -/

theorem test_ups_v18 : nextRegs (exec .ups upState) [1, 16] = [.word 0x2, .word 6] ∧
    nextLive (exec .ups { upState with mem := { upState.mem with up := [] } }) .up 6 =
      [zi 1 (-1), zi 0 0, zi 0 0, zi (-1) (-1), zi 0 0, zi 0 0] := by decide +kernel
theorem test_ups_v19d_cap : nextRegs (exec .ups { upState with par := { small with capUp := 5 } }) [1] =
    [.word 0x606] := by decide +kernel
theorem test_shape_v18 : nextRegs (exec .shape upState) [1, 17] = [.word 0x2, .word 8] ∧
    nextLive (exec .shape upState) .pul 8 = [zi 1 (-1), zi 1 (-1), zi 1 (-1), zi (-1) (-1), zi (-1) (-1),
      zi (-1) (-1), zi 0 0, zi 0 0] := by decide +kernel
theorem test_shape_v19b_nsps : nextRegs (exec .shape { upState with regs := { upState.regs with nsps := 0 } }) [1, 17] =
    [.word 0x106, .word 0] := by decide +kernel

/-! ## MFILT (V25, V27, V31) -/

theorem test_mfilt_sums : nextRegs (exec .mfilt (rxState 2)) [1, 18] = [.word 0x22, .word 4] ∧
    nextLive (exec .mfilt (rxState 2)) .mf 4 = [zi 1 0, zi 3 (-1), zi 5 4, zi 3 5] ∧
    (nextLive (exec .mfilt (rxState 5)) .mf 7 =
    [zi 1 0, zi 3 (-1), zi 6 4, zi 6 4, zi 6 4, zi 5 4, zi 3 5]) := by
  decide +kernel
theorem test_mfilt_v31_nsps : nextRegs (exec .mfilt (rxState 0)) [1, 18] = [.word 0x106, .word 0] := by decide +kernel

/-! ## Detectors (V34, V40, V41, V44) -/

theorem test_ted_ga : nextErr (exec .tedGa (tedState (zi 3 (-3)) (zi 4 (-2)) (zi 4 2))) = [.fin (-6)] ∧
    nextErr (exec .tedGa (tedState (zi 1 0) (zi 3 2) (zi (-2) 4))) = [.fin (-1)] := by decide +kernel
theorem test_ted_gc : nextErr (exec .tedGc (tedState (zi 3 (-3)) (zi 4 (-2)) (zi 4 2))) = [.fin 6] ∧
    nextErr (exec .tedGc (tedState (zi 0 5) (zi 1 1) (zi (-3) 0))) = [.fin 8] := by decide +kernel
theorem test_ted_zc : nextErr (exec .tedZc (tedState (zi 3 (-3)) (zi 4 (-2)) (zi 4 2))) = [.fin 2] ∧
    nextErr (exec .tedZc (tedState (zi 2 1) (zi 0 0) (zi (-1) 3))) = [.fin 3] ∧
    nextErr (exec .tedZc (tedState (zi 0 5) (zi 1 1) (zi (-3) 0))) = [.fin 0] := by decide +kernel

/-! ## INIT and LF.UPD (V45, V52; V57, V63, V65, V70) -/

theorem test_init_v45 : nextRegs (exec .init initState) [1, 9, 10] =
    [.word 0x12, .num (.fin (-3 / 170)), .num (.fin (-1 / 340))] := by decide +kernel
theorem test_init_v52 : nextRegs (exec .init { initState with regs := { initState.regs with bnts := .fin (-1 / 2) } })
    [9, 10] = [.num (.fin (3 / 122)), .num (.fin (-1 / 244))] := by decide +kernel
theorem test_lf_updates : (nextRegs (exec .lfUpd (lfState 4 (-3 / 170) (-1 / 340) 0 (-12) 0 0)) [11, 12, 13, 20, 21] =
    [.num (.fin (18 / 85)), .num (.fin (21 / 85)), .word 1, .word 0, .word 0]) ∧
    (nextRegs (exec .lfUpd (lfState 4 (-1 / 16) (-1 / 16) 0 (-1) 0 0)) [12, 13] =
    [.num (.fin (1 / 8)), .word 0]) := by
  decide +kernel
theorem test_lf_clamps : (nextRegs (exec .lfUpd (lfState 4 (-3 / 170) (-1 / 340) (-9 / 10) 40 5 0))
    [11, 12, 13, 20, 21] =
    [.num (.fin (-12 / 17)), .num (.fin (-1)), .word 0xFFFFFFFC, .word 6, .word 1]) ∧
    (nextRegs (exec .lfUpd (lfState 4 (-1 / 16) (-1 / 16) (7 / 8) (-1) 2 1))
    [12, 13, 20, 21] = [.num (.fin 1), .word 4, .word 2, .word 0]) := by
  decide +kernel

/-! ## STEP and RUN: `runState` by hand from R71 to R86. Iteration 0 reads MF[0], MF[1], MF[2]: err = 8, t = −64/25. -/

theorem test_step : nextRegs (exec .step runState) [1, 11, 12, 13, 14, 19, 20, 21] =
    [.word 0x32, .num (.fin (-48 / 25)), .num (.fin (-1)), .word 0xFFFFFFFE, .word 1, .word 1, .word 1, .word 1] := by
  decide +kernel
theorem test_step_emits_mid : nextHas (exec .step runState) (fun t => t.mem.out == [(0, zi 3 (-1))] &&
    t.mem.derr == [(0, .fin 8)] && t.mem.dtau == [(0, 0xFFFFFFFE)]) = true := by decide +kernel
theorem test_run : nextRegs (exec .run runState) [1, 13, 14, 19, 20] =
    [.word 0x103A, .word 2, .word 3, .word 3, .word 3] := by decide +kernel
theorem test_run_needs_flags : nextRegs (exec .run base) [1] = [.word 0x506] := by decide +kernel

/-! ## Host software (V1, V2a, R91, R95) -/

theorem test_pack : pack [0x41] = [false, true, false, false, false, false, false, true] ∧
    unpack (pack [0x48, 0x49]) = [0x48, 0x49] := by decide
theorem test_packetize : packetize [true, true] true = barker ++ [true, true, false] ∧ packetize [true] false =
    [true, false] ∧ syncWordFile = "1111100110101" := by decide

/-- 1/3 in binary32 needs 25 digits, and over the rationals no number of digits is enough. -/
theorem test_text_file : textFile [zi 3 (-10), ⟨.fin (1 / 2), .fin (-1 / 20)⟩] = some "3, -10\n0.5, -0.05\n" ∧
    decimal (.fin (11184811 / 33554432)) = some "0.3333333432674407958984375" ∧ decimal (.fin (1 / 3)) = none := by
  decide +kernel
/-- Low byte first, I before Q, truncation toward zero, and a value out of range. -/
theorem test_sample_file : samplesToFile .exact (.fin 1024) [⟨.fin (1 / 2), .fin (-3)⟩, ⟨.fin 10, .fin (-1 / 2000)⟩] =
    some [0x00, 0x02, 0x00, 0xF4, 0x00, 0x28, 0x00, 0x00] ∧
    samplesToFile .exact referenceScale [zi 32768 0] = none ∧
    fileToSamples [0x2C, 0x01, 0xFD, 0xFF, 0x05, 0x00] = [zi 300 (-3)] := by decide +kernel
/-- One sample, noise level 3 (so nine times each unit draw), amplitude 1 + 1/2, a quarter turn. -/
theorem test_impair : impair .exact [zi 1 0] (.fin 3) (.fin (1 / 2))
    { normal := [zi 1 0, zi 0 2], unit := .fin 1, rotation := zi 0 1 } =
      [⟨.fin 0, .fin (27 / 2)⟩, ⟨.fin (-27), .fin (3 / 2)⟩] := by decide +kernel

/-! ## A state and operands that meet the hypotheses of each obligation -/

theorem witness_DecodeOfEncode : Instr.lfUpd.wf = true := by decide

theorem witness_EveryCommandHasOneWord : decode ⟨.command, 0x0F⟩ = .ok .srst ∧ decode ⟨.command, 0⟩ = .ok .nop := by
  decide

theorem witness_StepRunsTheDecodedInstruction :
    (decode ⟨.command, 6⟩ = .ok .step ∧
      HostNext { runState with script := [.wr 0 (.word 6), .rd 1] } (.wr 0 (.word 6)) [.rd 1] ∧
      ({ runState with script := [.wr 0 (.word 6), .rd 1] } : State).lat = [] ∧
      ({ runState with lat := [0, 3] } : State).lat = 0 :: [3]) ∧
    (decode ⟨.selector, 1⟩ = .ok .tedGc ∧ ({ runState with eng := .inner 1 } : State).eng = .inner 1) :=
  ⟨⟨by decide, ⟨rfl, rfl⟩, rfl, rfl⟩, by decide, rfl⟩

theorem witness_ReservedWordFailsWithErrOpc :
    HostNext { runState with script := [.wr 0 (.word 0x10)] } (.wr 0 (.word 0x10)) [] ∧ runState.lat = [] ∧
    HostNext { runState with script := [.wr 0 (.word 0x10)], lat := [0, 2] } (.wr 0 (.word 0x10)) [] ∧
    ({ runState with lat := [0, 2] } : State).lat = 0 :: [2] ∧
    (((0x100 : Word).toNat / 256 ≠ 0) ∧
      ([0x08, 0x0E, 0x10, 0xFF] : List Word).all (fun w => decide (8 ≤ w.toNat % 256 ∧ w.toNat % 256 ≠ 15)) = true) :=
  ⟨⟨rfl, rfl⟩, rfl, ⟨rfl, rfl⟩, rfl, by decide⟩

/-- Two reads of `STATUS` overlap one MFILT. -/
theorem witness_SplitCommandEqualsAtomicCommand : ∃ s a : State, s.eng = .idle ∧
    s.script = .wr 0 (.word 4) :: (List.replicate 2 (.rd 1) ++ [.rd 18]) ∧ s.lat = 2 :: [5] ∧
    step { s with script := .wr 0 (.word 4) :: [.rd 18], lat := 0 :: [5] } = .next a :=
  ⟨{ rxState 2 with script := .wr 0 (.word 4) :: (List.replicate 2 (.rd 1) ++ [.rd 18]), lat := [2, 5] }, _,
    rfl, rfl, rfl, rfl⟩

theorem witness_EveryInstructionCompletes : isCommand .run = true ∧ isCommand .tedGa = false := by decide

theorem witness_FailedCommandWritesOnlyStatus : (∃ t, isCommand .run = true ∧ exec .run base = .next t ∧
      t.regs.status.err = true) ∧
    (∃ t, isCommand .mfilt = true ∧ exec .mfilt (rxState 0) = .next t ∧ t.regs.status.err = true) ∧
    (∃ t, isCommand .init = true ∧ exec .init base = .next t ∧ t.regs.status.err = true) :=
  ⟨⟨_, rfl, rfl, by decide +kernel⟩, ⟨_, rfl, rfl, by decide +kernel⟩, ⟨_, rfl, rfl, by decide +kernel⟩⟩

theorem witness_InstructionsStoreOnlyToTheirBuffers : ∃ t, exec .shape upState = .next t := ⟨_, rfl⟩

theorem witness_LoopStateHasFewWriters : (∃ t, exec .mfilt (rxState 2) = .next t) ∧
    (∃ t, exec .run runState = .next t) ∧ (∃ t, hostAccess (.wr 3 (.word 5)) runState = .next t) ∧
    (∃ t, busyAccess (.wr 0 (.word 5)) (busyState 7 1 []) = .next t) :=
  ⟨⟨_, rfl⟩, ⟨_, rfl⟩, ⟨_, rfl⟩, ⟨_, rfl⟩⟩

theorem witness_NopOnlyClearsTheReport : ({ base with regs := { base.regs with
    status := { Status.reset with done := true, err := true, errCode := .seq } } } : State).readReg 1 =
      .word 0x00000506 := by decide +kernel

theorem witness_SrstResetsEveryRegister :
    (busyState 7 1 [.wr 0 (.word 0x0F), .rd 1]).eng = .command 7 (0 + 1) ∧
    (busyState 7 1 [.wr 0 (.word 0x0F), .rd 1]).script = .wr 0 (.word 0x0F) :: [.rd 1] := ⟨rfl, rfl⟩

theorem witness_ResetEventAbandonsTheCommand :
    ((busyState 7 3 [.reset, .rd 1]).script = .reset :: [.rd 1] ∧
      ∃ w k, (busyState 7 3 [.reset, .rd 1]).eng = .command w (k + 1)) ∧
    ({ runState with script := [.reset] } : State).script = .reset :: [] ∧ runState.eng = .idle :=
  ⟨⟨rfl, 7, 2, rfl⟩, rfl, rfl⟩

theorem witness_ReservedBitsReadZeroAndIgnoreWrites :
    (∃ w, runState.readReg 1 = .word w) ∧ (∃ w, runState.readReg 2 = .word w) ∧
    HostNext { runState with script := [.wr 2 (.word 0xFFFFFFFF)] } (.wr 2 (.word 0xFFFFFFFF)) [] ∧
    HostNext { runState with script := [.wr 1 (.word 0xFFFFFFFF)] } (.wr 1 (.word 0xFFFFFFFF)) [] :=
  ⟨⟨_, rfl⟩, ⟨_, rfl⟩, ⟨rfl, rfl⟩, ⟨rfl, rfl⟩⟩

theorem witness_HostWritesOfIntegerRegisters :
    HostNext { runState with script := [.wr 2 (.word 0x3F)] } (.wr 2 (.word 0x3F)) [] ∧
    HostNext { runState with script := [.wr 8 (.word 5)] } (.wr 8 (.word 5)) [] := ⟨⟨rfl, rfl⟩, rfl, rfl⟩

theorem witness_HostWritesOfNumRegisters :
    HostNext { runState with script := [.wr 4 (.num (.fin (1 / 3)))] } (.wr 4 (.num (.fin (1 / 3)))) [] ∧
    HostNext { runState with script := [.wr 6 (.num (.fin 2))] } (.wr 6 (.num (.fin 2))) [] ∧
    inDomain .exact (.fin (1 / 3)) = true ∧ inDomain .exact (.fin 2) = true := ⟨⟨rfl, rfl⟩, ⟨rfl, rfl⟩, rfl, rfl⟩

theorem witness_ReadOnlyRegistersIgnoreWrites :
    HostNext { runState with script := [.wr 1 (.word 5)] } (.wr 1 (.word 5)) [] ∧
    HostNext { runState with script := [.wr 9 (.num (.fin 5))] } (.wr 9 (.num (.fin 5))) [] ∧
    HostNext { runState with script := [.wr 22 (.word 5)] } (.wr 22 (.word 5)) [] :=
  ⟨⟨rfl, rfl⟩, ⟨rfl, rfl⟩, rfl, rfl⟩

theorem witness_NbitAndNrxRules :
    HostNext { runState with script := [.wr 7 (.word 0x7FFFFFFF)] } (.wr 7 (.word 0x7FFFFFFF)) [] ∧
    HostNext { runState with script := [.wr 8 (.word 0)] } (.wr 8 (.word 0)) [] ∧
    (let s : State := { base with regs := { base.regs with nbit := 21, nrx := 13, nsps := 1 } };
      s.par.capBit < s.regs.nbit.toNat ∧ s.par.capRx < s.regs.nrx.toNat ∧ 0 < s.regs.nsps.toInt) :=
  ⟨⟨rfl, rfl⟩, ⟨rfl, rfl⟩, by decide +kernel⟩

theorem witness_HostWritesOfElements :
    (HostNext { base with script := [.wb 0 19 (.word 1)] } (.wb 0 19 (.word 1)) [] ∧ 19 < base.par.capBit) ∧
    (HostNext { base with script := [.wb 4 11 (.cpx (zi 1 2))] } (.wb 4 11 (.cpx (zi 1 2))) [] ∧ 11 < base.par.capRx ∧
      inDomain base.par.num (zi 1 2).re = true ∧ inDomain base.par.num (zi 1 2).im = true) :=
  ⟨⟨⟨rfl, rfl⟩, by decide⟩, ⟨rfl, rfl⟩, by decide, rfl, rfl⟩

theorem witness_ForbiddenElementWritesAreIgnored :
    (HostNext { base with script := [.wb 1 0 (.cpx (zi 1 2))] } (.wb 1 0 (.cpx (zi 1 2))) [] ∧
      (HostOp.wb 1 0 (.cpx (zi 1 2))).wf = true) ∧
    (HostNext { base with script := [.wb 0 20 (.word 1)] } (.wb 0 20 (.word 1)) [] ∧
      (HostOp.wb 0 20 (.word 1)).wf = true ∧ base.par.capBit ≤ 20) ∧
    (HostNext { base with script := [.wb 4 12 (.cpx (zi 1 2))] } (.wb 4 12 (.cpx (zi 1 2))) [] ∧
      (HostOp.wb 4 12 (.cpx (zi 1 2))).wf = true ∧ base.par.capRx ≤ 12) :=
  ⟨⟨⟨rfl, rfl⟩, rfl⟩, ⟨⟨rfl, rfl⟩, rfl, by decide⟩, ⟨rfl, rfl⟩, rfl, by decide⟩

theorem witness_ReadsHaveNoSideEffect :
    HostNext { runState with script := [.rd 21] } (.rd 21) [] ∧
    (HostNext { runState with script := [.rb 5 0] } (.rb 5 0) [] ∧ ∃ v, runState.readElem 5 0 = some v) ∧
    (HostNext { runState with script := [.rb 5 16] } (.rb 5 16) [] ∧ runState.readElem 5 16 = none) :=
  ⟨⟨rfl, rfl⟩, ⟨⟨rfl, rfl⟩, _, rfl⟩, ⟨rfl, rfl⟩, rfl⟩

theorem witness_BusyEngineTakesOnlyStatusReads :
    ∀ op ∈ [HostOp.wr 0 (.word 1), .rd 1, .rd 0, .rd 2, .rb 0 0, .wr 1 (.word 0)],
      (busyState 7 1 [op]).eng = .command 7 (0 + 1) ∧ (busyState 7 1 [op]).script = op :: [] ∧ op.wf = true := by
  intro op h
  refine ⟨rfl, rfl, ?_⟩
  simp only [List.mem_cons, List.not_mem_nil, or_false] at h
  rcases h with rfl | rfl | rfl | rfl | rfl | rfl <;> rfl

theorem witness_MapWritesThePointsOfItsStream : let s := txState [1, 1, 0] true 1
    s.par.wf = true ∧ s.regs.nbit.toNat ≤ s.par.capBit ∧ symbolCount s ≤ s.par.capSym := by decide +kernel

theorem witness_MapFailsWhenItDoesNotFit :
    (base.par.capBit < ({ base with regs := { base.regs with nbit := 21 } } : State).regs.nbit.toNat) ∧
    (let s := txState (List.replicate 17 0) false 1; s.par.capSym < symbolCount s) := by decide +kernel

theorem witness_SyncEnPutsBarkerInFront : let s := txState [1, 1, 0] true 1
    let u := txState [1, 1, 0] false 1
    (s.par.wf = true ∧ s.regs.nbit.toNat ≤ s.par.capBit ∧ symbolCount s ≤ s.par.capSym) ∧
    (u.par.wf = true ∧ u.regs.nbit.toNat ≤ u.par.capBit ∧ symbolCount u ≤ u.par.capSym) := by decide +kernel

theorem witness_MapStaysOnTheAlphabet : let s := txState [1, 1, 0] true (1 / 2)
    s.par.wf = true ∧ s.par.num = .exact ∧ s.regs.qamp = .fin (1 / 2) ∧ s.regs.nbit.toNat ≤ s.par.capBit ∧
      symbolCount s ≤ s.par.capSym := by decide +kernel

theorem witness_DemodInvertsTheQuadrantTable :
    ((-2 : Rat) ≠ 0 ∧ qmap .exact (.fin (-2)) true false = qmap .exact (.fin (-2)) true false) ∧
    ((0 : Rat) < 1 / 2 ∧ (0 : Rat) < 10) := by decide +kernel

/-- Two states that differ in a register and a buffer MAP does not read. -/
theorem witness_MapIsAPureFunction : ∃ s s' t t' : State, s.par = s'.par ∧
    s.regs.cfg.syncEn = s'.regs.cfg.syncEn ∧ s.regs.nbit = s'.regs.nbit ∧ s.regs.qamp = s'.regs.qamp ∧
    IsFin s.regs.qamp ∧ (∀ n, n < s.regs.nbit.toNat → s.bitAt n = s'.bitAt n) ∧
    exec .map s = .next t ∧ exec .map s' = .next t' ∧ t.regs.status.err = false ∧ s ≠ s' :=
  ⟨txState [1, 1, 0] true 1, { txState [1, 1, 0] true 1 with
      regs := { (txState [1, 1, 0] true 1).regs with nsps := 9 }
      mem := { (txState [1, 1, 0] true 1).mem with rx := [(0, zi 1 1)] } }, _, _, rfl, rfl, rfl, rfl, ⟨1, rfl⟩,
    fun _ _ => rfl, rfl, rfl, by decide +kernel, by decide +kernel⟩

theorem witness_UpsStuffsZeros : upState.par.wf = true ∧ 0 < upState.regs.nsps.toInt ∧
    upState.regs.nsym.toNat * nspsNat upState ≤ upState.par.capUp := by decide +kernel

theorem witness_ShapeConvolvesWithTheBoxcar : upState.par.wf = true ∧ 0 < upState.regs.nsps.toInt ∧
    upState.regs.nup.toNat + nspsNat upState - 1 ≤ upState.par.capPul := by decide +kernel

theorem witness_ShaperErrorsInOrder :
    (({ upState with regs := { upState.regs with nsps := 0 } } : State).regs.nsps.toInt ≤ 0 ∧
      ({ upState with regs := { upState.regs with nsps := 0xFFFFFFFF } } : State).regs.nsps.toInt ≤ 0) ∧
    (let s : State := { upState with par := { small with capUp := 5, capPul := 7 } };
      0 < s.regs.nsps.toInt ∧ s.par.capUp < s.regs.nsym.toNat * nspsNat s ∧
        s.par.capPul < s.regs.nup.toNat + nspsNat s - 1) := by decide +kernel

theorem witness_ShaperGivesARectangularPulseTrain : upState.par.wf = true ∧ upState.par.num = .exact ∧
    0 < upState.regs.nsps.toInt ∧ upState.regs.nsym.toNat * nspsNat upState ≤ upState.par.capUp ∧
    upState.regs.nsym.toNat * nspsNat upState + nspsNat upState - 1 ≤ upState.par.capPul ∧
    (∀ k, k < upState.regs.nsym.toNat → CpxFin (upState.cpxAt .sym k)) := by
  refine ⟨by decide, rfl, by decide, by decide +kernel, by decide +kernel, fun k hk => ?_⟩
  have h : upState.regs.nsym.toNat = 2 := by decide
  obtain rfl | rfl : k = 0 ∨ k = 1 := by omega
  · exact ⟨⟨1, rfl⟩, ⟨-1, rfl⟩⟩
  · exact ⟨⟨-1, rfl⟩, ⟨-1, rfl⟩⟩

theorem witness_BoxcarIsLinear : CpxFin (zi 2 1) ∧ CpxFin (zi 0 (-1)) ∧
    [zi 1 2, zi 3 4].length = [zi 0 1, zi 1 0].length ∧ (∀ z ∈ [zi 1 2, zi 3 4], CpxFin z) ∧
    (∀ z ∈ [zi 0 1, zi 1 0], CpxFin z) := by
  have h : ∀ i q : Int, CpxFin (zi i q) := fun i q => ⟨⟨i, rfl⟩, ⟨q, rfl⟩⟩
  refine ⟨h _ _, h _ _, rfl, ?_, ?_⟩ <;> intro z hz <;>
    simp only [List.mem_cons, List.not_mem_nil, or_false] at hz <;> rcases hz with rfl | rfl <;> exact h _ _

theorem witness_MfiltConvolvesWithTheBoxcar : let s := rxState 2
    s.par.wf = true ∧ 0 < s.regs.nsps.toInt ∧ s.regs.nrx.toNat ≤ s.par.capRx ∧
      s.regs.nrx.toNat + nspsNat s - 1 ≤ s.par.capMf := by decide +kernel

theorem witness_MfiltErrorsClearMfOk : (rxState 0).regs.nsps.toInt ≤ 0 ∧ (rxState (-1)).regs.nsps.toInt ≤ 0 ∧
    (let s : State := { rxState 2 with par := { small with capRx := 2 } };
      0 < s.regs.nsps.toInt ∧ s.par.capRx < s.regs.nrx.toNat) ∧
    (let s : State := { rxState 2 with par := { small with capMf := 3 } };
      0 < s.regs.nsps.toInt ∧ s.par.capMf < s.regs.nrx.toNat + nspsNat s - 1) := by decide +kernel

/-- One zero sample, then the pulse train of the symbols (1, 1) and (−1, 1) at `NSPS` = 2. -/
def pulseState : State :=
  { base with
    regs := { base.regs with nsps := 2, nrx := 6 }
    mem := { base.mem with rx := Buf.number 0 [zi 0 0, zi 1 1, zi 1 1, zi (-1) 1, zi (-1) 1, zi 0 0] } }

theorem witness_MatchedFilterGivesTriangles : let s := pulseState
    let sym : Nat → Rat × Rat := fun k => if k = 0 then (1, 1) else (-1, 1)
    s.par.wf = true ∧ s.par.num = .exact ∧ 0 < s.regs.nsps.toInt ∧
      s.regs.nrx.toNat = 1 + 2 * nspsNat s + nspsNat s - 1 ∧ s.regs.nrx.toNat ≤ s.par.capRx ∧
      1 + 2 * nspsNat s + 2 * nspsNat s - 2 ≤ s.par.capMf ∧ (∀ n, n < 1 → s.cpxAt .rx n = Cpx.zero) ∧
      (∀ n, n < 2 * nspsNat s → s.cpxAt .rx (1 + n) = cpxRat (sym (n / nspsNat s))) ∧
      (∀ n, n < 2 * nspsNat s + nspsNat s - 1 → 2 * nspsNat s ≤ n → s.cpxAt .rx (1 + n) = Cpx.zero) := by
  decide +kernel

theorem witness_InitStartsARun : 0 < initState.regs.nsps.toInt ∧ initState.regs.cfg.tedSel.toNat ≠ 3 ∧
    initState.regs.cfg.wrapSel = false ∧ numIsZero (coeffOf initState).1 = false := by decide +kernel

theorem witness_InitComputesTheCoefficients : initState.par.num = .exact ∧ 0 < initState.regs.nsps.toInt ∧
    initState.regs.cfg.tedSel.toNat ≠ 3 ∧ initState.regs.cfg.wrapSel = false ∧
    initState.regs.bnts = .fin (1 / 2) ∧ initState.regs.kp = .fin 16 ∧ (16 : Rat) ≠ 0 := by decide +kernel

/-- `initState` with a configuration and a gain of its own. -/
def initWith (n : Word) (ted : BitVec 2) (wrap : Bool) (g : Rat) : State :=
  { initState with regs := { initState.regs with
      nsps := n, cfg := { Cfg.reset with tedSel := ted, wrapSel := wrap }, kp := .fin g } }

theorem witness_InitErrorsInOrder : (initWith 0 3 true 0).regs.nsps.toInt ≤ 0 ∧
    (0 < (initWith 1 3 true 0).regs.nsps.toInt ∧ (initWith 1 3 true 0).regs.cfg.tedSel.toNat = 3) ∧
    (0 < (initWith 1 2 true 0).regs.nsps.toInt ∧ (initWith 1 2 true 0).regs.cfg.tedSel.toNat ≠ 3 ∧
      (initWith 1 2 true 0).regs.cfg.wrapSel = true) ∧
    (let s : State := { initWith 1 2 false 0 with par := { small with num := .f32 } };
      0 < s.regs.nsps.toInt ∧ s.regs.cfg.tedSel.toNat ≠ 3 ∧ s.regs.cfg.wrapSel = false ∧
        numIsZero (coeffOf s).1 = true) ∧
    ((initWith 1 2 false 0).par.num = .exact ∧ 0 < (initWith 1 2 false 0).regs.nsps.toInt ∧
      (initWith 1 2 false 0).regs.cfg.tedSel.toNat ≠ 3 ∧ (initWith 1 2 false 0).regs.cfg.wrapSel = false ∧
      (initWith 1 2 false 0).regs.bnts = .fin (1 / 2) ∧ (initWith 1 2 false 0).regs.kp = .fin 0) := by decide +kernel

theorem witness_ClosedFormEqualsTheRealFormulas : (0 : Int) < 4 ∧ (16 : Rat) ≠ 0 := by decide +kernel

theorem witness_DetectorsComputeTheirFormulas : (tedState (zi 3 (-3)) (zi 4 (-2)) (zi 4 2)).par.num = .exact ∧
    SamplesAre (tedState (zi 3 (-3)) (zi 4 (-2)) (zi 4 2)) (3, -3) (4, -2) (4, 2) := by
  unfold SamplesAre
  decide +kernel

/-- Both clauses on the accumulator, at and beyond the clamp: t0 = 1 and t0 = 9/8 (V70, V71). -/
theorem witness_LoopFilterUpdatesTheAccumulator :
    (let s := lfState 4 (-1 / 16) (-1 / 16) (7 / 8) (-1) 0 0;
      s.par.num = .exact ∧ s.err = .fin (-1) ∧ s.regs.k1 = .fin (-1 / 16) ∧ s.regs.k2 = .fin (-1 / 16) ∧
        s.regs.p2 = .fin (7 / 8)) ∧
    ((7 / 8 : Rat) + -1 * (-1 / 16 + -1 / 16) ≤ 1 ∧ -1 ≤ (7 / 8 : Rat) + -1 * (-1 / 16 + -1 / 16)) ∧
    (1 < (7 / 8 : Rat) + -2 * (-1 / 16 + -1 / 16)) := by decide +kernel

theorem witness_RoundTakesTheNearestEvenOnTies : |(5 / 2 : Rat) - (roundEven (5 / 2) : Rat)| = 1 / 2 := by
  decide +kernel

/-- A rounded result, a tie (2^24 + 1), an underflow to minus zero, an overflow, and a representable value. -/
theorem witness_FloatResultsAreNearest : roundTo Fmt.b32 false (1 / 3) = .fin (11184811 / 33554432) ∧
    (roundTo Fmt.b32 false 16777217 = .fin 16777216 ∧
      |(16777216 : Rat) - 16777217| = twoPow (Fmt.b32.quantum 16777217) / 2) ∧
    roundTo Fmt.b32 false (-1 / 2 ^ 150) = .negZero ∧ roundTo Fmt.b32 true 0 = .negZero ∧
    numVal (roundTo Fmt.b32 false (2 ^ 128 - 2 ^ 103)) = none ∧
    ((1 : Rat) = ((8388608 : Int) : Rat) * twoPow (Fmt.b32.quantum 1) ∧ (1 : Rat) ≠ 0 ∧
      |(1 : Rat)| < twoPow (Fmt.b32.bias + 1)) := by decide +kernel

theorem witness_StepAndRunNeedBothFlags :
    ({ base with regs := { base.regs with status := { runFlags with mfOk := false } } } : State).regs.status.mfOk =
      false ∧
    ({ base with regs := { base.regs with status := { runFlags with initOk := false } } } : State).regs.status.initOk =
      false ∧
    (endFlags.initOk = true ∧ endFlags.mfOk = true ∧ endFlags.stop = true) := by decide

/-- `runState` with other lengths, symbol index, offset and output count. -/
def runWith (nrx nmf k nout : Word) (tau : Int) : State :=
  { runState with regs := { runState.regs with
      nrx := nrx, nmf := nmf, kidx := k, nout := nout, tau := BitVec.ofInt 32 tau } }

/-- Each branch at its boundary: `NRX` = 2·NSPS − 1, start = −1, end = NMF, `NOUT` = `CAP_OUT`, and none of these. -/
theorem witness_StepStopsWithTheFirstCause :
    [runWith 3 5 0 0 0, runWith 4 5 0 0 (-1), runWith 4 5 1 1 1, runWith 4 5 1 4 0, runWith 4 5 1 3 0].map
      (fun s => (s.regs.status.initOk && s.regs.status.mfOk && !s.regs.status.stop, stopTest s)) =
    [(true, some .eob), (true, some .low), (true, some .eob), (true, some .full), (true, none)] := by decide +kernel

/-- An iteration that fills the last element, with each of the three detectors. -/
theorem witness_StepAppendsOneIteration : ∀ sel ∈ [(0 : BitVec 2), 1, 2],
    IterationRuns { runWith 4 5 1 3 0 with
      regs := { (runWith 4 5 1 3 0).regs with cfg := { Cfg.reset with tedSel := sel } } } := by
  intro sel _
  unfold IterationRuns
  decide +kernel +revert

theorem witness_StepComputesTheIteration : IterationRuns runState ∧ runState.par.num = .exact ∧
    runState.regs.cfg.tedSel.toNat ≠ 3 ∧ SamplesAre runState (1, 0) (3, -1) (5, 4) ∧
    runState.regs.k1 = .fin (-6 / 25) ∧ runState.regs.k2 = .fin (-2 / 25) ∧ runState.regs.p2 = .fin 0 := by
  unfold IterationRuns SamplesAre
  decide +kernel

theorem witness_IdxSelOnlyPicksTheElement : IterationRuns runState := by
  unfold IterationRuns
  decide +kernel

/-- At the boundary of the clause on `NOUT` too: OUT is full. -/
theorem witness_RunEndsStopped : runState.par.wf = true ∧ runState.regs.status.initOk = true ∧
    runState.regs.status.mfOk = true ∧ runState.regs.nout.toNat ≤ runState.par.capOut ∧
    (runWith 4 5 1 4 0).regs.nout.toNat ≤ runState.par.capOut := by decide

theorem witness_RunEqualsRepeatedStep : runState.par.wf = true ∧ runState.regs.status.initOk = true ∧
    runState.regs.status.mfOk = true := by decide

theorem witness_ResetMeetsTheInvariants : Params.default.wf = true ∧ Params.default.num = .exact := by decide

/-- `runState` meets the invariants of every state. -/
theorem witness_StepKeepsBaseInv : BaseInv runState ∧ ∃ t, step runState = .next t :=
  ⟨{  params := by decide
      notInner := fun _ h => nomatch h
      memory := by decide
      lengths := by decide
      counts := rfl
      clamps := by decide
      configured := by decide +kernel
      filtered := by decide +kernel
      errors := by decide
      stops := by decide
      inFlight := by decide }, _, rfl⟩

/-- `runState` meets the invariants of the loop. -/
theorem witness_StepKeepsLoopInv : LoopInv runState ∧ ∃ t, step runState = .next t := by
  have hz : ∀ i q : Int, CpxFin (zi i q) := fun i q => ⟨⟨i, rfl⟩, ⟨q, rfl⟩⟩
  refine ⟨{
      base := witness_StepKeepsBaseInv.1
      rational := {
        exact := rfl
        registers := ⟨⟨_, rfl⟩, ⟨_, rfl⟩, ⟨_, rfl⟩, ⟨_, rfl⟩, ⟨_, rfl⟩, ⟨_, rfl⟩, ⟨_, rfl⟩, ⟨_, rfl⟩⟩
        elements := fun c n => cpxAt_rational rfl (fun e he => ?_) n
        errors := fun n => derrAt_rational rfl (fun e he => absurd he List.not_mem_nil) n }
      accumulator := ⟨0, rfl, by norm_num, by norm_num⟩
      offset := fun _ => by decide
      firstOffset := fun _ => rfl
      neverLow := by decide
      coefficients := fun _ => by decide +kernel
      contents := fun _ => by decide +kernel }, _, rfl⟩
  cases c
  · exact absurd he List.not_mem_nil
  · exact absurd he List.not_mem_nil
  · exact absurd he List.not_mem_nil
  · rcases List.mem_cons.1 he with rfl | he <;> [exact hz _ _; skip]
    rcases List.mem_cons.1 he with rfl | he <;> [exact hz _ _; skip]
    rcases List.mem_cons.1 he with rfl | he <;> [exact hz _ _; skip]
    rcases List.mem_cons.1 he with rfl | he <;> [exact hz _ _; exact absurd he List.not_mem_nil]
  · rcases List.mem_cons.1 he with rfl | he <;> [exact hz _ _; skip]
    rcases List.mem_cons.1 he with rfl | he <;> [exact hz _ _; skip]
    rcases List.mem_cons.1 he with rfl | he <;> [exact hz _ _; skip]
    rcases List.mem_cons.1 he with rfl | he <;> [exact hz _ _; skip]
    rcases List.mem_cons.1 he with rfl | he <;> [exact hz _ _; exact absurd he List.not_mem_nil]
  · exact absurd he List.not_mem_nil

theorem witness_RunIsBoundedByTheBuffer : LoopInv runState ∧ runState.regs.status.initOk = true ∧
    runState.regs.status.mfOk = true ∧ runState.regs.status.stop = false ∧ runState.regs.kidx = 0 ∧
    (∃ t, exec .run runState = .next t) ∧ 2 * runState.regs.nsps.toInt ≤ (runState.regs.nrx.toNat : Int) ∧
    ((runState.regs.nmf.toNat : Int) - 1) / runState.regs.nsps.toInt + 1 ≤ (runState.par.capOut : Int) :=
  ⟨witness_StepKeepsLoopInv.1, rfl, rfl, rfl, rfl, ⟨_, rfl⟩, by decide +kernel, by decide +kernel⟩

end Sys2Proof.Tests
end

section
/-! PROOFS. Rounding to an integer (00_scope.md R11) and to a floating-point format (R8). The rounded exact result is
one rational, `nearestValue`; what it is stored as follows from `roundTo_cases`. -/

namespace Sys2Proof.Machine

/-! ## Rounding to an integer -/

theorem abs_sub_roundEven_le (q : Rat) : |q - (roundEven q : Rat)| ≤ 1 / 2 := by
  have hfloor : (q.floor : Rat) ≤ q := Rat.floor_le q
  have hceil : q < (q.floor : Rat) + 1 := by exact_mod_cast Rat.lt_floor_add_one q
  rw [abs_le]
  simp only [roundEven]
  split_ifs with hbelow habove heven
  all_goals push_cast; constructor <;> linarith

/-- Half-way between two integers neither strict comparison of `roundEven` decides, and the parity of the floor does. -/
theorem roundEven_even_of_tie {q : Rat} (htie : |q - (roundEven q : Rat)| = 1 / 2) : roundEven q % 2 = 0 := by
  have hfloor : (q.floor : Rat) ≤ q := Rat.floor_le q
  have hceil : q < (q.floor : Rat) + 1 := by exact_mod_cast Rat.lt_floor_add_one q
  revert htie
  simp only [roundEven]
  split_ifs with hbelow habove heven
  · rw [abs_of_nonneg (by linarith)]
    intro htie; linarith
  · push_cast
    rw [abs_of_nonpos (by linarith)]
    intro htie; linarith
  · exact fun _ => heven
  · intro _; omega

/-! ## Rounding to a multiple of the last place -/

/-- The multiple of the last place of `f` about |q| that `roundTo` computes for the exact result `q`. -/
def nearestValue (f : Fmt) (q : Rat) : Rat :=
  (roundEven (q / twoPow (f.quantum q)) : Rat) * twoPow (f.quantum q)

@[simp] theorem nearestValue_zero (f : Fmt) : nearestValue f 0 = 0 := by
  have hround : roundEven 0 = 0 := roundEven_intCast 0
  simp [nearestValue, hround]

/-- The error in units of the last place is the error of rounding to an integer. -/
theorem abs_nearestValue_sub (f : Fmt) (q : Rat) :
    |nearestValue f q - q| =
      |q / twoPow (f.quantum q) - (roundEven (q / twoPow (f.quantum q)) : Rat)| * twoPow (f.quantum q) := by
  have hplace := twoPow_pos (f.quantum q)
  have hscaled : q / twoPow (f.quantum q) * twoPow (f.quantum q) = q := div_mul_cancel₀ q hplace.ne'
  calc |nearestValue f q - q|
      = |q - nearestValue f q| := abs_sub_comm _ _
    _ = |(q / twoPow (f.quantum q) - (roundEven (q / twoPow (f.quantum q)) : Rat)) * twoPow (f.quantum q)| := by
        rw [sub_mul, hscaled, nearestValue]
    _ = _ := by rw [abs_mul, abs_of_pos hplace]

theorem abs_nearestValue_sub_le (f : Fmt) (q : Rat) : |nearestValue f q - q| ≤ twoPow (f.quantum q) / 2 := by
  have hscaled := mul_le_mul_of_nonneg_right (abs_sub_roundEven_le (q / twoPow (f.quantum q)))
    (twoPow_pos (f.quantum q)).le
  rw [abs_nearestValue_sub]
  linarith

theorem roundEven_even_of_nearestValue_tie {f : Fmt} {q : Rat}
    (htie : |nearestValue f q - q| = twoPow (f.quantum q) / 2) :
    roundEven (q / twoPow (f.quantum q)) % 2 = 0 := by
  apply roundEven_even_of_tie
  apply mul_right_cancel₀ (twoPow_pos (f.quantum q)).ne'
  rw [← abs_nearestValue_sub, htie]
  ring

/-- A multiple of its own last place is its own nearest value. -/
theorem nearestValue_of_multiple {f : Fmt} {q : Rat} {m : Int} (hq : q = (m : Rat) * twoPow (f.quantum q)) :
    nearestValue f q = q := by
  have hquot : q / twoPow (f.quantum q) = (m : Rat) := (div_eq_iff (twoPow_pos _).ne').2 hq
  rw [nearestValue, hquot, roundEven_intCast, ← hq]

/-- The magnitude of the nearest value exceeds that of the exact result by at most half a place. -/
theorem abs_nearestValue_le (f : Fmt) (q : Rat) : |nearestValue f q| ≤ |q| + twoPow (f.quantum q) / 2 := by
  have htriangle := abs_sub_abs_le_abs_sub (nearestValue f q) q
  linarith [abs_nearestValue_sub_le f q]

/-! ## The three results of `roundTo` -/

/-- A result of `roundTo` is the nearest value below the overflow bound, a minus zero that stands for a nearest value
of 0, or an overflow. -/
theorem roundTo_cases (f : Fmt) (z : Bool) (q : Rat) :
    (roundTo f z q = .fin (nearestValue f q) ∧ |nearestValue f q| < twoPow (f.bias + 1)) ∨
    (roundTo f z q = .negZero ∧ nearestValue f q = 0 ∧ ((q = 0 ∧ z = true) ∨ q < 0)) ∨
    (roundTo f z q = poison ∧ twoPow (f.bias + 1) ≤ |nearestValue f q|) := by
  have hbound : |(0 : Rat)| < twoPow (f.bias + 1) := by simpa using twoPow_pos (f.bias + 1)
  by_cases hq : q = 0
  · subst hq
    cases z with
    | false => exact .inl ⟨by simp [roundTo], by simpa using hbound⟩
    | true => exact .inr (.inl ⟨by simp [roundTo], nearestValue_zero f, .inl ⟨rfl, rfl⟩⟩)
  have hround : roundTo f z q =
      if nearestValue f q = 0 then (if q < 0 then .negZero else .fin 0)
      else if twoPow (f.bias + 1) ≤ |nearestValue f q| then poison else .fin (nearestValue f q) := by
    rw [roundTo, if_neg hq]; rfl
  rw [hround]
  split_ifs with hzero hneg hover
  · exact .inr (.inl ⟨rfl, hzero, .inr hneg⟩)
  · rw [hzero]; exact .inl ⟨rfl, hbound⟩
  · exact .inr (.inr ⟨rfl, hover⟩)
  · exact .inl ⟨rfl, not_le.1 hover⟩

theorem roundTo_eq_fin {f : Fmt} {z : Bool} {q v : Rat} (h : roundTo f z q = .fin v) :
    v = nearestValue f q ∧ |v| < twoPow (f.bias + 1) := by
  obtain ⟨hfin, hlt⟩ | ⟨hneg, -, -⟩ | ⟨hpoison, -⟩ := roundTo_cases f z q
  · obtain rfl : nearestValue f q = v := NumVal.fin.inj (hfin.symm.trans h)
    exact ⟨rfl, hlt⟩
  · exact nomatch hneg.symm.trans h
  · exact nomatch hpoison.symm.trans h

theorem roundTo_eq_negZero {f : Fmt} {z : Bool} {q : Rat} (h : roundTo f z q = .negZero) :
    nearestValue f q = 0 ∧ ((q = 0 ∧ z = true) ∨ q < 0) := by
  obtain ⟨hfin, -⟩ | ⟨-, hzero⟩ | ⟨hpoison, -⟩ := roundTo_cases f z q
  · exact nomatch hfin.symm.trans h
  · exact hzero
  · exact nomatch hpoison.symm.trans h

theorem bound_le_of_roundTo_not_finite {f : Fmt} {z : Bool} {q : Rat} (h : numVal (roundTo f z q) = none) :
    twoPow (f.bias + 1) ≤ |nearestValue f q| := by
  obtain ⟨hfin, -⟩ | ⟨hneg, -, -⟩ | ⟨-, hover⟩ := roundTo_cases f z q
  · rw [hfin] at h; exact nomatch h
  · rw [hneg] at h; exact nomatch h
  · exact hover

/-- A result that the format represents is not changed. -/
theorem roundTo_of_multiple {f : Fmt} (z : Bool) {q : Rat} {m : Int} (hq : q = (m : Rat) * twoPow (f.quantum q))
    (hne : q ≠ 0) (hlt : |q| < twoPow (f.bias + 1)) : roundTo f z q = .fin q := by
  have hcases := roundTo_cases f z q
  rw [nearestValue_of_multiple hq] at hcases
  obtain ⟨hfin, -⟩ | ⟨-, hzero, -⟩ | ⟨-, hover⟩ := hcases
  · exact hfin
  · exact absurd hzero hne
  · exact absurd hlt (not_lt.2 hover)

end Sys2Proof.Machine

namespace Sys2Proof.Proofs
open Sys2Proof Sys2Proof.Machine

/-- Settles O47: the branches of `roundEven` compare the fractional part with 1/2. -/
theorem roundTakesTheNearestEvenOnTies : Obligations.RoundTakesTheNearestEvenOnTies :=
  fun q => ⟨abs_sub_roundEven_le q, roundEven_even_of_tie⟩

/-- Settles O48: every result of `roundTo` is read off the one nearest value. -/
theorem floatResultsAreNearest : Obligations.FloatResultsAreNearest := by
  refine ⟨fun f z q v h => ?finite, fun f z q h => ?minusZero, fun f z q h => ?overflow,
    fun f z m q hq hne hlt => roundTo_of_multiple z hq hne hlt⟩
  case finite =>
    obtain ⟨rfl, hlt⟩ := roundTo_eq_fin h
    exact ⟨hlt, abs_nearestValue_sub_le f q, _, rfl, roundEven_even_of_nearestValue_tie⟩
  case minusZero =>
    obtain ⟨hzero, hsigned | hneg⟩ := roundTo_eq_negZero h
    · exact .inl hsigned
    · have herror := abs_nearestValue_sub_le f q
      rw [hzero, zero_sub, abs_neg] at herror
      exact .inr ⟨hneg, herror⟩
  case overflow =>
    exact (bound_le_of_roundTo_not_finite h).trans (abs_nearestValue_le f q)

end Sys2Proof.Proofs
end

section
/-! PROOFS. What one step can do, said once: where its transaction goes (45_timing_loop.md R81), what a host access
changes (20_memory.md R37, R38), and what a command leaves, seen from the state its acceptance left
(60_exceptions.md R99). -/

namespace Sys2Proof.Machine

/-! ## Where a step's transaction goes -/

theorem step_of_hostNext {s : State} {op : HostOp} {rest : List HostOp} (h : HostNext s op rest)
    (hop : ∀ w, op ≠ .wr 0 (.word w)) : step s = hostAccess op { s with script := rest } := by
  obtain ⟨heng, hscript⟩ := h
  simp only [step, turn, heng, hostTurn]
  split
  · rename_i hnil
    exact nomatch hnil.symm.trans hscript
  · rename_i w _ hcmd
    exact absurd (List.cons.inj (hscript.symm.trans hcmd)).1 (hop w)
  · rename_i hcons
    obtain ⟨rfl, rfl⟩ := List.cons.inj (hscript.symm.trans hcons)
    rfl

theorem step_of_hostNext_cmd {s : State} {w : Word} {rest : List HostOp}
    (h : HostNext s (.wr 0 (.word w)) rest) : step s = issue w { s with script := rest } := by
  obtain ⟨heng, hscript⟩ := h
  simp only [step, turn, heng, hostTurn, hscript]

theorem step_of_busy {s : State} {w : Word} {k : Nat} {op : HostOp} {rest : List HostOp}
    (heng : s.eng = .command w (k + 1)) (hscript : s.script = op :: rest) :
    step s = busyAccess op { s with script := rest, eng := .command w k } := by
  simp only [step, turn, heng, busyTurn, hscript]

theorem step_of_inner {s : State} {c : Word} (heng : s.eng = .inner c) :
    step s = engineInner c { s with eng := .idle } := by
  simp only [step, turn, heng]

theorem engineRun_of_decode {w : Word} {i : Instr} (h : decode ⟨.command, w⟩ = .ok i) (s : State) :
    engineRun w s = exec i s := by
  simp only [engineRun, h]

theorem engineInner_of_decode {c : Word} {i : Instr} (h : decode ⟨.selector, c⟩ = .ok i) (s : State) :
    engineInner c s = exec i s := by
  simp only [engineInner, h]

/-- No command word names a micro-operation (30_encoding.md R47). -/
theorem isCommand_of_decode {w : Word} {i : Instr} (h : decode ⟨.command, w⟩ = .ok i) : isCommand i = true := by
  simp only [decode, decodeCommand] at h
  split at h
  · exact nomatch h
  · split at h
    all_goals cases h
    all_goals rfl

/-! ## What a host access changes -/

/-- `RegWrite s r v t`: the host's write of `v` to register `r` is performed and leaves `t` (10_state.md R17). -/
inductive RegWrite (s : State) : Nat → PortVal → State → Prop
  | cfg (w : Word) : RegWrite s 2 (.word w) (writeCfg s w)
  | nsps (w : Word) : RegWrite s 3 (.word w) (writeNsps s w)
  | bnts (x : NumVal) (hx : inDomain s.par.num x = true) : RegWrite s 4 (.num x) (writeBnts s x)
  | kp (x : NumVal) (hx : inDomain s.par.num x = true) : RegWrite s 5 (.num x) (writeKp s x)
  | qamp (x : NumVal) (hx : inDomain s.par.num x = true) : RegWrite s 6 (.num x) (writeQamp s x)
  | nbit (w : Word) : RegWrite s 7 (.word w) (writeNbit s w)
  | nrx (w : Word) : RegWrite s 8 (.word w) (writeNrx s w)

theorem RegWrite.lt_nine {s t : State} {r : Nat} {v : PortVal} (h : RegWrite s r v t) : r < 9 := by
  cases h <;> decide

/-- A register write touches no register but its own and `STATUS`. -/
theorem RegWrite.sameRegs {s t : State} {r : Nat} {v : PortVal} (h : RegWrite s r v t) : SameRegs [1, r] s t := by
  intro n hn
  obtain ⟨hstatus, hself⟩ : n ≠ 1 ∧ n ≠ r := by simpa using hn
  unfold State.readReg
  cases h
  all_goals
    split
    all_goals first | rfl | exact absurd rfl hstatus | exact absurd rfl hself

/-- A register write touches nothing but registers. -/
theorem RegWrite.eq_setRegs {s t : State} {r : Nat} {v : PortVal} (h : RegWrite s r v t) :
    t = { s with regs := t.regs } := by
  cases h <;> rfl

theorem RegWrite.sameElems {s t : State} {r : Nat} {v : PortVal} (h : RegWrite s r v t) :
    SameElems nothing s t := by
  rw [h.eq_setRegs]
  exact sameElems_of_eq nothing rfl rfl rfl

theorem RegWrite.sameHost {s t : State} {r : Nat} {v : PortVal} (h : RegWrite s r v t) : SameHost s t := by
  rw [h.eq_setRegs]
  exact ⟨rfl, rfl, rfl, rfl, rfl⟩

theorem RegWrite.eng {s t : State} {r : Nat} {v : PortVal} (h : RegWrite s r v t) : t.eng = s.eng := by
  rw [h.eq_setRegs]

/-- What a host access other than reset can do to the block and to the record of reads, with the engine idle or
busy. -/
inductive HostEffect (s : State) : State → Prop
  | ignored : HostEffect s s
  | wroteReg {r : Nat} {v : PortVal} {t : State} (h : RegWrite s r v t) : HostEffect s t
  | wroteBit (n : Nat) (w : Word) (hn : n < s.par.capBit) : HostEffect s (writeBit s n w)
  | wroteRx (n : Nat) (z : Cpx) (hn : n < s.par.capRx) (hre : inDomain s.par.num z.re = true)
      (him : inDomain s.par.num z.im = true) : HostEffect s (writeRx s n z)
  | read (v : PortVal) : HostEffect s (s.observe v)
  | readOutside (v : PortVal) : HostEffect s (s.observe v).tick
  | dropped : HostEffect s (dropCommand s)

theorem hostWriteReg_effect {r : Nat} {v : PortVal} {s t : State} (h : hostWriteReg r v s = .next t) :
    HostEffect s t := by
  cases v with
  | word w =>
    simp only [hostWriteReg] at h
    split at h
    all_goals cases h
    · exact .wroteReg (.cfg w)
    · exact .wroteReg (.nsps w)
    · exact .wroteReg (.nbit w)
    · exact .wroteReg (.nrx w)
    · exact .ignored
  | num x =>
    simp only [hostWriteReg] at h
    split at h
    · split at h
      · rename_i hx
        split at h
        all_goals cases h
        · exact .wroteReg (.bnts x hx)
        · exact .wroteReg (.kp x hx)
        · exact .wroteReg (.qamp x hx)
      · exact nomatch h
    · cases h
      exact .ignored
  | cpx z =>
    cases h
    exact .ignored

theorem hostWriteElem_effect {sp n : Nat} {v : PortVal} {s t : State} (h : hostWriteElem sp n v s = .next t) :
    HostEffect s t := by
  cases v with
  | word w =>
    simp only [hostWriteElem] at h
    split at h
    · rename_i hin
      cases h
      exact .wroteBit n w hin.2
    · cases h
      exact .ignored
  | num x =>
    cases h
    exact .ignored
  | cpx z =>
    simp only [hostWriteElem] at h
    split at h
    · rename_i hin
      split at h
      · rename_i hdomain
        obtain ⟨hre, him⟩ := Bool.and_eq_true_iff.1 hdomain
        cases h
        exact .wroteRx n z hin.2 hre him
      · exact nomatch h
    · cases h
      exact .ignored

theorem hostReadElem_effect (sp n : Nat) (s : State) : HostEffect s (hostReadElem sp n s) := by
  unfold hostReadElem
  split
  · exact .read _
  · exact .readOutside _

theorem hostAccess_effect {op : HostOp} {s t : State} (h : hostAccess op s = .next t) (hop : op ≠ .reset) :
    HostEffect s t := by
  unfold hostAccess at h
  split at h
  · cases op with
    | wr r v => exact hostWriteReg_effect h
    | rd r =>
      cases h
      exact .read _
    | wb sp n v => exact hostWriteElem_effect h
    | rb sp n =>
      cases h
      exact hostReadElem_effect sp n s
    | reset => exact absurd rfl hop
  · exact nomatch h

theorem busyAccess_effect {op : HostOp} {s t : State} (h : busyAccess op s = .next t) (hop : op ≠ .reset) :
    HostEffect s t := by
  unfold busyAccess at h
  split at h
  · cases op with
    | wr r v =>
      simp only at h
      split at h
      all_goals cases h
      exact .dropped
    | rd r =>
      simp only at h
      split at h
      all_goals cases h
      exact .read _
    | wb sp n v => exact nomatch h
    | rb sp n => exact nomatch h
    | reset => exact absurd rfl hop
  · exact nomatch h

/-! ## What a command leaves -/

/-- STEP is the loop of RUN cut off after one pass (45_timing_loop.md R85). -/
theorem stepBody_eq_runLoop {s : State} (h : seqOk s = true) : stepBody s = complete (runLoop 1 s) := by
  unfold stepBody runLoop runLoop
  rw [if_pos h]
  split <;> rfl

/-- `CommandEffect i a t`: command `i` can leave `t`, where `a` is the state its acceptance left. -/
inductive CommandEffect (a : State) : Instr → State → Prop
  | nop : CommandEffect a .nop (complete a)
  | srst : CommandEffect a .srst (complete (resetRegs a))
  | map (hfit : symbolCount a ≤ a.par.capSym) : CommandEffect a .map (complete (mapWrite a).tick)
  | ups (hfit : upsLen a ≤ a.par.capUp) : CommandEffect a .ups (complete (upsWrite a).tick)
  | shape (hfit : shapeLen a ≤ a.par.capPul) : CommandEffect a .shape (complete (shapeWrite a).tick)
  | mfilt (hnsps : 0 < a.regs.nsps.toInt) (hnrx : a.regs.nrx.toNat ≤ a.par.capRx)
      (hfit : mfiltLen a ≤ a.par.capMf) : CommandEffect a .mfilt (complete (mfiltWrite (clearMfOk a)).tick)
  | init (hnsps : 0 < a.regs.nsps.toInt) (hted : a.regs.cfg.tedSel.toNat ≠ 3) (hwrap : a.regs.cfg.wrapSel = false)
      (hden : numIsZero (coeffOf a).1 = false) : CommandEffect a .init (complete (initWrite (clearInitOk a)).tick)
  | loop {i : Instr} (hi : i = .step ∨ i = .run) (n : Nat) (hseq : seqOk a = true) :
      CommandEffect a i (complete (runLoop n a))
  | failed {i : Instr} {c : ErrCode} (hi : i ≠ .init ∧ i ≠ .mfilt) (hc : c ≠ .none) :
      CommandEffect a i (fail c a)
  | initFailed {c : ErrCode} (hc : c ≠ .none) : CommandEffect a .init (fail c (clearInitOk a))
  | mfiltFailed {c : ErrCode} (hc : c ≠ .none) : CommandEffect a .mfilt (fail c (clearMfOk a))

theorem mapBody_effect (a : State) : CommandEffect a .map (mapBody a) := by
  obtain ⟨-, h⟩ | ⟨⟨-, hfit⟩, h⟩ := mapBody_cases a
  · rw [h]; exact .failed (by decide) (by decide)
  · rw [h]; exact .map hfit

theorem upsBody_effect (a : State) : CommandEffect a .ups (upsBody a) := by
  obtain ⟨-, h⟩ | ⟨-, -, h⟩ | ⟨-, hfit, h⟩ := upsBody_cases a
  · rw [h]; exact .failed (by decide) (by decide)
  · rw [h]; exact .failed (by decide) (by decide)
  · rw [h]; exact .ups hfit

theorem shapeBody_effect (a : State) : CommandEffect a .shape (shapeBody a) := by
  obtain ⟨-, h⟩ | ⟨-, -, h⟩ | ⟨-, hfit, h⟩ := shapeBody_cases a
  · rw [h]; exact .failed (by decide) (by decide)
  · rw [h]; exact .failed (by decide) (by decide)
  · rw [h]; exact .shape hfit

theorem mfiltBody_effect (a : State) : CommandEffect a .mfilt (mfiltBody (clearMfOk a)) := by
  obtain ⟨-, h⟩ | ⟨-, -, h⟩ | ⟨hnsps, hnrx, hfit, h⟩ := mfiltBody_cases (clearMfOk a)
  · rw [h]; exact .mfiltFailed (by decide)
  · rw [h]; exact .mfiltFailed (by decide)
  · rw [h]; exact .mfilt hnsps hnrx hfit

theorem initBody_effect (a : State) : CommandEffect a .init (initBody (clearInitOk a)) := by
  obtain ⟨c, hc, h⟩ | ⟨hnsps, hted, hwrap, hden, h⟩ := initBody_cases (clearInitOk a)
  · rw [h]; exact .initFailed hc
  · rw [h]; exact .init hnsps hted hwrap hden

theorem stepBody_effect (a : State) : CommandEffect a .step (stepBody a) := by
  cases hseq : seqOk a with
  | true => rw [stepBody_eq_runLoop hseq]; exact .loop (.inl rfl) 1 hseq
  | false =>
    have h : stepBody a = fail .seq a := by simp [stepBody, hseq]
    rw [h]; exact .failed (by decide) (by decide)

theorem runBody_effect (a : State) : CommandEffect a .run (runBody a) := by
  obtain ⟨-, h⟩ | ⟨hseq, h⟩ := runBody_cases a
  · rw [h]; exact .failed (by decide) (by decide)
  · rw [h]; exact .loop (.inr rfl) _ hseq

theorem exec_effect {i : Instr} {s t : State} (hi : isCommand i = true) (h : exec i s = .next t) :
    CommandEffect (accept s) i t := by
  cases i with
  | nop => cases h; exact .nop
  | map => cases h; exact mapBody_effect _
  | ups => cases h; exact upsBody_effect _
  | shape => cases h; exact shapeBody_effect _
  | mfilt => cases h; exact mfiltBody_effect _
  | init => cases h; exact initBody_effect _
  | step => cases h; exact stepBody_effect _
  | run => cases h; exact runBody_effect _
  | srst => cases h; exact .srst
  | tedGa | tedGc | tedZc | lfUpd => exact nomatch hi

/-- What one pass of the loop keeps, the loop keeps. -/
theorem runLoop_induction {P : State → Prop} (hpass : ∀ u, P u → P (iterate u)) (n : Nat) {s : State} (h : P s) :
    P (runLoop n s) := by
  induction n generalizing s with
  | zero => exact h
  | succ n ih =>
    unfold runLoop
    split
    · exact h
    · exact ih (hpass s h)

/-! ## What a step can do -/

/-- `u` is `s` with transactions consumed and the engine as it stands while the next one lands: a command is in
flight in `u` only if one was in `s`. -/
def HostMoved (s u : State) : Prop :=
  ∃ script lat e, u = { s with script := script, lat := lat, eng := e } ∧
    (∀ c, e ≠ .inner c) ∧ (u.busy = true → s.busy = true)

/-- What becomes of the state in which the next transaction lands. -/
inductive StepEffect (u : State) : State → Prop
  | host {t : State} (h : HostEffect u t) : StepEffect u t
  | reset : StepEffect u (hardReset u)
  | latched (w : Word) (k : Nat) : StepEffect u { accept u with eng := .command w k }
  | ran {i : Instr} {t : State} (h : CommandEffect (accept u) i t) : StepEffect u t
  | rejected : StepEffect u (rejectWord u)

theorem engineRun_effect {w : Word} {u t : State} (h : engineRun w u = .next t) : StepEffect u t := by
  unfold engineRun at h
  split at h
  · rename_i hdecode
    exact .ran (exec_effect (isCommand_of_decode hdecode) h)
  · cases h
    exact .rejected

theorem hostAccess_stepEffect {op : HostOp} {u t : State} (h : hostAccess op u = .next t) : StepEffect u t := by
  by_cases hop : op = .reset
  · subst hop
    cases h
    exact .reset
  · exact .host (hostAccess_effect h hop)

theorem busyAccess_stepEffect {op : HostOp} {u t : State} (h : busyAccess op u = .next t) : StepEffect u t := by
  by_cases hop : op = .reset
  · subst hop
    cases h
    exact .reset
  · exact .host (busyAccess_effect h hop)

theorem hostMoved_idle (s : State) (script : List HostOp) (lat : List Nat) :
    HostMoved s { s with script := script, lat := lat, eng := .idle } :=
  ⟨script, lat, .idle, rfl, nofun, nofun⟩

theorem hostTurn_effect {s t : State} (heng : s.eng = .idle) (h : hostTurn s = .next t) :
    ∃ u, HostMoved s u ∧ StepEffect u t := by
  have hidle : ∀ script lat, HostMoved s { s with script := script, lat := lat } := fun script lat => by
    simpa [heng] using hostMoved_idle s script lat
  unfold hostTurn at h
  split at h
  · cases h
    exact ⟨s, hidle s.script s.lat, .host .ignored⟩
  · rename_i w rest _
    unfold issue at h
    split at h
    · exact ⟨_, hidle rest s.lat, engineRun_effect h⟩
    · exact ⟨_, hidle rest _, engineRun_effect h⟩
    · rename_i k lats _
      cases h
      exact ⟨{ s with script := rest, lat := lats }, hidle rest lats, .latched w (k + 1)⟩
  · rename_i rest _ _
    exact ⟨_, hidle rest s.lat, hostAccess_stepEffect h⟩

theorem busyTurn_effect {s t : State} {w : Word} {left : Nat} (heng : s.eng = .command w left)
    (h : busyTurn w left s = .next t) : ∃ u, HostMoved s u ∧ StepEffect u t := by
  unfold busyTurn at h
  split at h
  · rename_i k op rest _
    have hbusy : s.busy = true := by simp [State.busy, heng]
    exact ⟨_, ⟨rest, s.lat, .command w k, rfl, nofun, fun _ => hbusy⟩, busyAccess_stepEffect h⟩
  · exact ⟨_, hostMoved_idle s s.script s.lat, engineRun_effect h⟩

/-- Every step but that of an inner step moves the host on and has one of the effects of `StepEffect`. -/
theorem step_effect {s t : State} (hinner : ∀ c, s.eng ≠ .inner c) (h : step s = .next t) :
    ∃ u, HostMoved s u ∧ StepEffect u t := by
  unfold step turn at h
  split at h
  · exact hostTurn_effect ‹_› h
  · exact busyTurn_effect ‹_› h
  · exact absurd ‹_› (hinner _)

end Sys2Proof.Machine
end

section
/-! PROOFS. The invariants of registers, flags and memory (10_state.md R16, R19, R27, R28): each operation of the
machine keeps them, so every step does. -/

namespace Sys2Proof.Machine

/-! ## The capacities of legal parameters (00_scope.md R7), and words below 2^32 -/

theorem capMf_lt {p : Params} (h : p.wf = true) : p.capMf < 2147483648 := by
  simp only [Params.wf, capOk, Bool.and_eq_true, decide_eq_true_eq] at h
  omega

theorem capOut_lt {p : Params} (h : p.wf = true) : p.capOut < 2147483648 := by
  simp only [Params.wf, capOk, Bool.and_eq_true, decide_eq_true_eq] at h
  omega

/-- A stored length is at most the length. -/
theorem toNat_ofNat_le {n cap : Nat} (h : n ≤ cap) : (BitVec.ofNat 32 n).toNat ≤ cap := by
  rw [BitVec.toNat_ofNat]
  exact (Nat.mod_le _ _).trans h

/-- A length below 2^32 is stored unchanged. -/
theorem toNat_ofNat_of_lt {n : Nat} (h : n < 4294967296) : (BitVec.ofNat 32 n).toNat = n := by
  rw [BitVec.toNat_ofNat]
  exact Nat.mod_eq_of_lt h

/-- A counter below 2^32 − 1 counts up without wrapping. -/
theorem toNat_succ_of_lt {x : Word} (h : x.toNat < 4294967295) : (x + 1).toNat = x.toNat + 1 := by
  rw [BitVec.toNat_add]
  exact Nat.mod_eq_of_lt (Nat.add_lt_add_right h 1)

/-! ## The registers after an iteration -/

/-- An iteration writes `P1`, `P2`, `TAU`, the counts and the clamp counters, and no other register (R79, R82). -/
theorem advance_regs_eq (s : State) : (advance s).regs =
    { s.regs with
      p1 := lfP1 (tedSelected s)
      p2 := lfP2 (tedSelected s)
      tau := BitVec.ofInt 32 (lfTau (tedSelected s))
      kidx := s.regs.kidx + 1
      nout := s.regs.nout + 1
      clampTot := if lfClamps (tedSelected s) then s.regs.clampTot + 1 else s.regs.clampTot
      clampCon := if lfClamps (tedSelected s) then s.regs.clampCon + 1 else 0 } := by
  rw [advance_regs]
  simp only [lfUpd, tedSelected_regs]

theorem wf_advance {s : State} (h : s.mem.wf = true) : (advance s).mem.wf = true :=
  wf_emit _ _ (by simpa using h)

theorem inCap_advance {s : State} (hn : s.regs.nout.toNat < s.par.capOut) (h : s.mem.inCap s.par = true) :
    (advance s).mem.inCap (advance s).par = true := by
  have hinCap := inCap_emit (mfAt s (emitIndex s)) (lfUpd (tedSelected s)) (by simpa [lfUpd] using hn)
    (by simpa using h)
  simpa [advance] using hinCap

namespace BaseInv

variable {s t : State}

/-! ## Reset -/

theorem of_reset (hpar : s.par.wf = true) (hregs : s.regs = .reset)
    (hmem : s.mem.wf = true ∧ s.mem.inCap s.par = true) (heng : s.eng = .idle) : BaseInv s where
  params := hpar
  notInner := by simp [heng]
  memory := hmem
  lengths := by simp [hregs, Regs.reset]
  counts := by rw [hregs]; rfl
  clamps := by simp [hregs, Regs.reset]
  configured := by simp [hregs, Regs.reset, Status.reset]
  filtered := by simp [hregs, Regs.reset, Status.reset]
  errors := by simp [hregs, Regs.reset, Status.reset]
  stops := by simp [hregs, Regs.reset, Status.reset]
  inFlight := by simp [State.busy, heng]

theorem hardReset (h : BaseInv s) : BaseInv (hardReset s) :=
  of_reset h.params rfl ⟨wf_hardReset s, inCap_hardReset s⟩ rfl

/-! ## The host's own data and the engine -/

theorem tick (h : BaseInv s) : BaseInv s.tick := { h with }

theorem observe (h : BaseInv s) (v : PortVal) : BaseInv (s.observe v) := { h with }

theorem hostMoved (h : BaseInv s) (hu : HostMoved s t) : BaseInv t := by
  obtain ⟨script, lat, e, rfl, hinner, hbusy⟩ := hu
  exact { h with notInner := hinner, inFlight := fun hb => h.inFlight (hbusy hb) }

/-! ## Changes of `STATUS` -/

theorem accept (h : BaseInv s) : BaseInv (accept s) :=
  { h with
    errors := by simp [Status.accepted]
    inFlight := fun _ => ⟨rfl, rfl⟩ }

/-- A command stays in flight after its acceptance. -/
theorem latched (h : BaseInv s) (w : Word) (k : Nat) :
    BaseInv { Machine.accept s with eng := .command w k } :=
  { h.accept with notInner := nofun, inFlight := fun _ => ⟨rfl, rfl⟩ }

theorem complete (h : BaseInv s) : BaseInv (complete s) :=
  { h with notInner := nofun, inFlight := nofun }

theorem fail (h : BaseInv s) {c : ErrCode} (hc : c ≠ .none) : BaseInv (fail c s) :=
  { h with
    notInner := nofun
    errors := by simp [Status.failed, hc]
    inFlight := nofun }

theorem stopLoop (h : BaseInv s) {c : StopCause} (hc : c ≠ .none) : BaseInv (stopLoop c s) :=
  { h with stops := by simp [Status.stopped, hc] }

theorem clearInitOk (h : BaseInv s) : BaseInv (clearInitOk s) := { h with configured := nofun }

theorem clearMfOk (h : BaseInv s) : BaseInv (clearMfOk s) := { h with filtered := nofun }

theorem dropCommand (h : BaseInv s) : BaseInv (dropCommand s) := { h with }

/-! ## Host writes -/

theorem regWrite (h : BaseInv s) {r : Nat} {v : PortVal} (hw : RegWrite s r v t) : BaseInv t := by
  cases hw with
  | cfg w => exact { h with configured := nofun }
  | nsps w => exact { h with configured := nofun, filtered := nofun }
  | bnts x => exact { h with configured := nofun }
  | kp x => exact { h with configured := nofun }
  | qamp x => exact { h with }
  | nbit w => exact { h with }
  | nrx w => exact { h with filtered := nofun }

theorem writeBit (h : BaseInv s) {n : Nat} (hn : n < s.par.capBit) (w : Word) : BaseInv (writeBit s n w) :=
  { h with memory := ⟨wf_writeBit s n w h.memory.1, inCap_writeBit s w hn h.memory.2⟩ }

theorem writeRx (h : BaseInv s) {n : Nat} (hn : n < s.par.capRx) (z : Cpx) : BaseInv (writeRx s n z) :=
  { h with
    memory := ⟨wf_writeRx s n z h.memory.1, inCap_writeRx s z hn h.memory.2⟩
    filtered := nofun }

theorem hostEffect (h : BaseInv s) (he : HostEffect s t) : BaseInv t := by
  cases he with
  | ignored => exact h
  | wroteReg hw => exact h.regWrite hw
  | wroteBit n w hn => exact h.writeBit hn w
  | wroteRx n z hn => exact h.writeRx hn z
  | read v => exact h.observe v
  | readOutside v => exact (h.observe v).tick
  | dropped => exact h.dropCommand

/-! ## The commands -/

theorem fillCpx (h : BaseInv s) {c : CBuf} {vs : List Cpx} (hfit : vs.length ≤ c.cap s.par) :
    BaseInv (s.fillCpx c vs) :=
  { h with memory := ⟨wf_fillCpx s c vs h.memory.1, inCap_fillCpx s c vs hfit h.memory.2⟩ }

theorem mapWrite (h : BaseInv s) (hfit : symbolCount s ≤ s.par.capSym) : BaseInv (mapWrite s) := by
  obtain ⟨-, hlengths⟩ := h.lengths
  exact { h.fillCpx (c := .sym) (by simpa [CBuf.cap] using hfit) with
    lengths := ⟨toNat_ofNat_le hfit, hlengths⟩ }

theorem upsWrite (h : BaseInv s) (hfit : upsLen s ≤ s.par.capUp) : BaseInv (upsWrite s) := by
  obtain ⟨hsym, -, hlengths⟩ := h.lengths
  exact { h.fillCpx (c := .up) (by simpa [CBuf.cap] using hfit) with
    lengths := ⟨hsym, toNat_ofNat_le hfit, hlengths⟩ }

theorem shapeWrite (h : BaseInv s) (hfit : shapeLen s ≤ s.par.capPul) : BaseInv (shapeWrite s) := by
  obtain ⟨hsym, hup, -, hlengths⟩ := h.lengths
  exact { h.fillCpx (c := .pul) (by simpa [CBuf.cap, shapeLen] using hfit) with
    lengths := ⟨hsym, hup, toNat_ofNat_le hfit, hlengths⟩ }

theorem mfiltWrite (h : BaseInv s) (hnsps : 0 < s.regs.nsps.toInt) (hnrx : s.regs.nrx.toNat ≤ s.par.capRx)
    (hfit : mfiltLen s ≤ s.par.capMf) : BaseInv (mfiltWrite s) := by
  obtain ⟨hsym, hup, hpul, -, hout⟩ := h.lengths
  have hlt : mfiltLen s < 4294967296 := by have := capMf_lt h.params; omega
  exact { h.fillCpx (c := .mf) (by simpa [CBuf.cap, mfiltLen] using hfit) with
    lengths := ⟨hsym, hup, hpul, toNat_ofNat_le hfit, hout⟩
    filtered := fun _ => ⟨hnsps, hnrx, toNat_ofNat_of_lt hlt⟩ }

theorem initWrite (h : BaseInv s) (hnsps : 0 < s.regs.nsps.toInt) (hted : s.regs.cfg.tedSel.toNat ≠ 3)
    (hwrap : s.regs.cfg.wrapSel = false) : BaseInv (initWrite s) := by
  obtain ⟨hsym, hup, hpul, hmf, -⟩ := h.lengths
  exact { h with
    lengths := ⟨hsym, hup, hpul, hmf, Nat.zero_le _⟩
    counts := rfl
    clamps := ⟨le_rfl, le_rfl⟩
    configured := fun _ => ⟨hnsps, hted, hwrap⟩
    stops := by simp [Machine.initWrite, Status.runStarted] }

/-- An iteration performed counts one element, which fits, and at most one clamp (R16, R27). -/
theorem advance (h : BaseInv s) (hroom : s.regs.nout.toNat ≠ s.par.capOut) : BaseInv (advance s) := by
  obtain ⟨hsym, hup, hpul, hmf, hout⟩ := h.lengths
  obtain ⟨hcon, htot⟩ := h.clamps
  have hcap := capOut_lt h.params
  have hnout : (s.regs.nout + 1).toNat = s.regs.nout.toNat + 1 := toNat_succ_of_lt (by omega)
  have hclampTot : (s.regs.clampTot + 1).toNat = s.regs.clampTot.toNat + 1 := toNat_succ_of_lt (by omega)
  have hclampCon : (s.regs.clampCon + 1).toNat = s.regs.clampCon.toNat + 1 := toNat_succ_of_lt (by omega)
  exact {
    params := by simpa using h.params
    notInner := by simpa using h.notInner
    memory := ⟨wf_advance h.memory.1, inCap_advance (by omega) h.memory.2⟩
    lengths := by
      simp only [advance_regs_eq, advance_par, hnout]
      exact ⟨hsym, hup, hpul, hmf, by omega⟩
    counts := by simp only [advance_regs_eq, h.counts]
    clamps := by
      simp only [advance_regs_eq, hnout]
      split
      · omega
      · exact ⟨Nat.zero_le _, by omega⟩
    configured := by simpa [advance_regs_eq] using h.configured
    filtered := by simpa [advance_regs_eq, mfiltLen, nspsNat] using h.filtered
    errors := by simpa using h.errors
    stops := by simpa using h.stops
    inFlight := by simpa [State.busy] using h.inFlight }

theorem iterate (h : BaseInv s) : BaseInv (iterate s) := by
  obtain ⟨c, hstop, hs⟩ | ⟨hgo, hs⟩ := iterate_cases s
  · rw [hs]
    exact h.stopLoop (stopTest_some_ne_none hstop)
  · rw [hs]
    obtain ⟨-, -, -, hroom⟩ := (stopTest_none_iff s).1 hgo
    exact h.advance hroom

theorem runLoop (h : BaseInv s) (n : Nat) : BaseInv (runLoop n s) :=
  runLoop_induction (P := BaseInv) (fun _ hu => hu.iterate) n h

theorem resetRegs (h : BaseInv s) (heng : s.eng = .idle) : BaseInv (resetRegs s) :=
  of_reset h.params rfl h.memory heng

theorem commandEffect (h : BaseInv s) {i : Instr} (he : CommandEffect s i t) : BaseInv t := by
  cases he with
  | nop => exact h.complete
  | srst => exact (h.complete.resetRegs rfl).complete
  | map hfit => exact (h.mapWrite hfit).tick.complete
  | ups hfit => exact (h.upsWrite hfit).tick.complete
  | shape hfit => exact (h.shapeWrite hfit).tick.complete
  | mfilt hnsps hnrx hfit => exact (h.clearMfOk.mfiltWrite hnsps hnrx hfit).tick.complete
  | init hnsps hted hwrap hden => exact (h.clearInitOk.initWrite hnsps hted hwrap).tick.complete
  | loop hi n hseq => exact (h.runLoop n).complete
  | failed hi hc => exact h.fail hc
  | initFailed hc => exact h.clearInitOk.fail hc
  | mfiltFailed hc => exact h.clearMfOk.fail hc

theorem stepEffect (h : BaseInv s) (he : StepEffect s t) : BaseInv t := by
  cases he with
  | host he => exact h.hostEffect he
  | reset => exact h.hardReset
  | latched w k => exact h.latched w k
  | ran he => exact h.accept.commandEffect he
  | rejected => exact h.accept.fail (by decide)

end BaseInv

end Sys2Proof.Machine

namespace Sys2Proof.Proofs
open Sys2Proof Sys2Proof.Machine

/-- Settles O58: each effect a step can have keeps the invariants. -/
theorem stepKeepsBaseInv : Obligations.StepKeepsBaseInv := by
  intro s t hs hstep
  obtain ⟨u, hmoved, heffect⟩ := step_effect hs.notInner hstep
  exact (hs.hostMoved hmoved).stepEffect heffect

end Sys2Proof.Proofs
end

section
/-! PROOFS. The invariants of the loop under `NUM = EXACT` (10_state.md R14, R28, 44_loop_filter.md R80,
45_timing_loop.md R86): rationals stay rationals, the loop filter's results are bounded, and each operation of the
machine keeps what `INIT_OK` and `MF_OK` vouch for. -/

namespace Sys2Proof.Machine

/-! ## Rationals are closed under the operations (00_scope.md R8) -/

namespace IsFin

variable {a b : NumVal}

theorem neg (ha : IsFin a) : IsFin (numNeg .exact a) := by
  obtain ⟨p, rfl⟩ := ha
  exact ⟨-p, numNeg_exact p⟩

theorem add (ha : IsFin a) (hb : IsFin b) : IsFin (numAdd .exact a b) := by
  obtain ⟨p, rfl⟩ := ha
  obtain ⟨q, rfl⟩ := hb
  exact ⟨p + q, numAdd_exact p q⟩

theorem sub (ha : IsFin a) (hb : IsFin b) : IsFin (numSub .exact a b) := ha.add hb.neg

theorem mul (ha : IsFin a) (hb : IsFin b) : IsFin (numMul .exact a b) := by
  obtain ⟨p, rfl⟩ := ha
  obtain ⟨q, rfl⟩ := hb
  exact ⟨p * q, numMul_exact p q⟩

theorem sign (ha : IsFin a) : IsFin (numSign a) := by
  obtain ⟨p, rfl⟩ := ha
  exact ⟨signRat p, numSign_fin p⟩

theorem settle_eq (ha : IsFin a) (y : NumSys) (e k : Nat) : settle y e k a = a := by
  obtain ⟨p, rfl⟩ := ha
  rfl

theorem settle (ha : IsFin a) (y : NumSys) (e k : Nat) : IsFin (settle y e k a) := by
  rwa [ha.settle_eq]

theorem numSum {f : Nat → NumVal} (hf : ∀ j, IsFin (f j)) (n : Nat) : IsFin (numSum .exact n f) := by
  choose q hq using hf
  obtain rfl : f = fun j => .fin (q j) := funext hq
  exact ⟨_, numSum_exact n q⟩

theorem of_inDomain (h : inDomain .exact a = true) : IsFin a := by
  cases a with
  | fin q => exact ⟨q, rfl⟩
  | negZero | inf | nan => exact nomatch h

end IsFin

theorem CpxFin.settleCpx_eq {z : Cpx} (hz : CpxFin z) (y : NumSys) (e k : Nat) : settleCpx y e k z = z := by
  obtain ⟨hre, him⟩ := hz
  rw [settleCpx, hre.settle_eq, him.settle_eq]

theorem CpxFin.settleCpx {z : Cpx} (hz : CpxFin z) (y : NumSys) (e k : Nat) : CpxFin (settleCpx y e k z) := by
  rwa [hz.settleCpx_eq]

theorem cpxFin_zero : CpxFin Cpx.zero := ⟨⟨0, rfl⟩, ⟨0, rfl⟩⟩

theorem isFin_openNum_exact (e k : Nat) : IsFin (openNum .exact e k) := ⟨_, rfl⟩

/-! ## The outputs of the commands that fill a buffer -/

theorem isFin_qmapPart {a : NumVal} (ha : IsFin a) (b : Bool) : IsFin (qmapPart .exact a b) := by
  cases b with
  | false => exact ha
  | true => exact ha.neg

theorem cpxFin_xz {x : List Cpx} (hx : ∀ z ∈ x, CpxFin z) (m : Int) : CpxFin (xz x m) := by
  unfold xz
  split
  · rw [List.getD_eq_getElem?_getD]
    cases hm : x[m.toNat]? with
    | none => exact cpxFin_zero
    | some z => exact hx z (List.mem_of_getElem? hm)
  · exact cpxFin_zero

theorem cpxFin_boxAt {x : List Cpx} (hx : ∀ z ∈ x, CpxFin z) (width n : Nat) : CpxFin (boxAt .exact x width n) :=
  ⟨IsFin.numSum (fun j => (cpxFin_xz hx ((n : Int) - j)).1) width,
    IsFin.numSum (fun j => (cpxFin_xz hx ((n : Int) - j)).2) width⟩

/-! ## Rounding and storing the offset -/

theorem roundEven_le {q : Rat} {n : Int} (h : q ≤ n) : roundEven q ≤ n := by
  have hnear := abs_le.1 (abs_sub_roundEven_le q)
  have hlt : (roundEven q : Rat) < (n : Rat) + 1 := by linarith
  exact Int.lt_add_one_iff.1 (by exact_mod_cast hlt)

theorem le_roundEven {q : Rat} {n : Int} (h : (n : Rat) ≤ q) : n ≤ roundEven q := by
  have hnear := abs_le.1 (abs_sub_roundEven_le q)
  have hlt : (n : Rat) < (roundEven q : Rat) + 1 := by linarith
  exact Int.lt_add_one_iff.1 (by exact_mod_cast hlt)

/-- The rounded product of a clamped value and a count lies within the count (R14). -/
theorem roundEven_clampRat_mul_bounds (t : Rat) {n : Int} (hn : 0 ≤ n) :
    -n ≤ roundEven (clampRat t * n) ∧ roundEven (clampRat t * n) ≤ n := by
  obtain ⟨hlow, hhigh⟩ := clampRat_bounds t
  have hn' : (0 : Rat) ≤ n := by exact_mod_cast hn
  constructor
  · apply le_roundEven
    push_cast
    nlinarith
  · apply roundEven_le
    nlinarith

/-- An integer within ± a signed register's contents is stored unchanged. -/
theorem toInt_ofInt_of_bounds (x : Word) {v : Int} (hlow : -x.toInt ≤ v) (hhigh : v ≤ x.toInt) :
    (BitVec.ofInt 32 v).toInt = v := by
  have hx : x.toInt < 2147483648 := by simpa using BitVec.toInt_lt (x := x)
  rw [BitVec.toInt_ofInt]
  exact Int.bmod_eq_of_le (by omega) (by omega)

/-! ## The loop filter on rationals (R79) -/

section LoopFilter

variable {s : State} {e k1 k2 p : Rat}

theorem lfP1_exact (hnum : s.par.num = .exact) (herr : s.err = .fin e) (hk1 : s.regs.k1 = .fin k1) :
    lfP1 s = .fin (e * k1) := by
  simp [lfP1, hnum, herr, hk1]

theorem lfAccum_exact (hnum : s.par.num = .exact) (herr : s.err = .fin e) (hk1 : s.regs.k1 = .fin k1)
    (hk2 : s.regs.k2 = .fin k2) (hp2 : s.regs.p2 = .fin p) : lfAccum s = .fin (p + (e * k1 + e * k2)) := by
  simp [lfAccum, lfP1_exact hnum herr hk1, hnum, herr, hk2, hp2]

theorem lfP2_of_accum {t : Rat} (haccum : lfAccum s = .fin t) : lfP2 s = .fin (clampRat t) := by
  simp [lfP2, haccum]

theorem lfTau_of_accum {t : Rat} (hnum : s.par.num = .exact) (haccum : lfAccum s = .fin t) :
    lfTau s = roundEven (clampRat t * s.regs.nsps.toInt) := by
  simp [lfTau, lfP2_of_accum haccum, hnum, numOfInt]

end LoopFilter

/-! ## The coefficients on rationals (R77) -/

theorem coeffG_exact (u : Rat) : coeffG .exact (.fin u) = .fin (1 + 4 * u / 3 + 8 * u * u / 9) := by
  simp [coeffG, numDiv_exact]

theorem coeffU_exact (b : Rat) {n : Int} (hn : n ≠ 0) : coeffU .exact (.fin b) n = .fin (b / n) :=
  numDiv_exact b (Int.cast_ne_zero.2 hn)

/-- The divisor of the coefficients is a product with the gain. -/
theorem coeff_exact_den (b g : Rat) {n : Int} (hn : n ≠ 0) :
    (coeff .exact (.fin b) (.fin g) n).1 = .fin ((1 + 4 * (b / n) / 3 + 8 * (b / n) * (b / n) / 9) * g) := by
  simp [coeff, coeffExact, coeffU_exact b hn, coeffG_exact]

theorem coeff_exact_isFin (b g : Rat) {n : Int} (hn : n ≠ 0)
    (hden : numIsZero (coeff .exact (.fin b) (.fin g) n).1 = false) :
    IsFin (coeff .exact (.fin b) (.fin g) n).2.1 ∧ IsFin (coeff .exact (.fin b) (.fin g) n).2.2 := by
  rw [coeff_exact_den b g hn, numIsZero_fin, decide_eq_false_iff_not] at hden
  simp only [coeff, coeffExact, coeffU_exact b hn, coeffG_exact, numMul_exact, numNeg_exact,
    numDiv_exact _ (show (3 : Rat) ≠ 0 by norm_num), numDiv_exact _ (show (9 : Rat) ≠ 0 by norm_num),
    numDiv_exact _ hden]
  exact ⟨⟨_, rfl⟩, ⟨_, rfl⟩⟩

theorem gain_ne_zero_of_den {b g : Rat} {n : Int} (hn : n ≠ 0)
    (hden : numIsZero (coeff .exact (.fin b) (.fin g) n).1 = false) : g ≠ 0 := by
  rintro rfl
  simp [coeff_exact_den b 0 hn] at hden

/-! ## What an iteration stores -/

theorem cpxAt_advance_out (s : State) (n : Nat) : (advance s).cpxAt .out n =
    if n = s.regs.nout.toNat then settleCpx s.par.num s.epoch 8 (mfAt s (emitIndex s)) else s.cpxAt .out n := by
  simp only [State.cpxAt, advance_mem, advance_par, advance_era, Memory.cbuf]
  split
  · subst n
    rw [get?_put_same, Option.getD_some]
  · rw [get?_put_other ‹_›]

theorem cpxAt_advance_other (s : State) {c : CBuf} (hc : c ≠ .out) (n : Nat) :
    (advance s).cpxAt c n = s.cpxAt c n := by
  have hcbuf : (advance s).mem.cbuf c = s.mem.cbuf c := by
    rw [advance_mem]
    cases c with
    | out => exact absurd rfl hc
    | sym | up | pul | rx | mf => rfl
  simp only [State.cpxAt, hcbuf, advance_par, advance_era]

theorem derrAt_advance (s : State) (n : Nat) : (advance s).derrAt n =
    if n = s.regs.nout.toNat then (tedSelected s).err else s.derrAt n := by
  simp only [State.derrAt, advance_mem, advance_par, advance_era]
  split
  · subst n
    rw [get?_put_same, Option.getD_some]
  · rw [get?_put_other ‹_›]

theorem advance_err (s : State) : (advance s).err = (tedSelected s).err := rfl

theorem cpxAt_writeRx (s : State) (n m : Nat) (z : Cpx) :
    (writeRx s n z).cpxAt .rx m = if m = n then z else s.cpxAt .rx m := by
  simp only [State.cpxAt, writeRx, Memory.cbuf]
  split
  · subst m
    rw [get?_put_same, Option.getD_some]
  · rw [get?_put_other ‹_›]

/-- The cause `LOW` is found only at a negative start index (R84). -/
theorem startIndex_neg_of_stopTest_low {s : State} (h : stopTest s = some .low) : startIndex s < 0 := by
  unfold stopTest at h
  split at h
  · exact nomatch h
  · split at h
    · assumption
    · split at h
      · exact nomatch h
      · split at h
        all_goals exact nomatch h

/-! ## Every operation keeps the rationals -/

namespace AllRational

variable {s t : State}

theorem live (h : AllRational s) (c : CBuf) (len : Nat) : ∀ z ∈ s.live c len, CpxFin z := by
  intro z hz
  obtain ⟨n, -, rfl⟩ := List.mem_map.1 hz
  exact h.elements c n

theorem boxAt (h : AllRational s) (c : CBuf) (len width n : Nat) :
    CpxFin (boxAt s.par.num (s.live c len) width n) := by
  rw [h.exact]
  exact cpxFin_boxAt (h.live c len) width n

theorem mfAt (h : AllRational s) (k : Int) : CpxFin (mfAt s k) := by
  unfold Machine.mfAt
  split
  · exact h.elements .mf k.toNat
  · rw [h.exact]
    exact ⟨isFin_openNum_exact _ _, isFin_openNum_exact _ _⟩

/-- Every detector hands on a rational (R72 to R74), and so does the free value of `TED_SEL` = 3. -/
theorem tedSelected_err (h : AllRational s) : IsFin (tedSelected s).err := by
  obtain ⟨hsre, hsim⟩ := h.mfAt (startIndex s)
  obtain ⟨hmre, hmim⟩ := h.mfAt (midIndex s)
  obtain ⟨here, heim⟩ := h.mfAt (endIndex s)
  unfold tedSelected
  split
  · apply IsFin.settle
    rw [h.exact]
    exact ((here.sub hsre).mul hmre).add ((heim.sub hsim).mul hmim)
  · apply IsFin.settle
    rw [h.exact]
    exact (((here.sub hsre).mul hmre).sub ((heim.neg.sub hsim.neg).mul hmim)).neg
  · apply IsFin.settle
    rw [h.exact]
    exact (((hsre.mul here.sign).sub (here.mul hsre.sign)).add
      ((hsim.mul heim.sign).sub (heim.mul hsim.sign))).neg
  · rw [setErr_err, h.exact]
    exact isFin_openNum_exact _ _

/-- The accumulator of the iteration's loop filter, before the clamp, is a rational. -/
theorem lfAccum_isFin (h : AllRational s) : IsFin (lfAccum (tedSelected s)) := by
  obtain ⟨-, -, -, ⟨k1, hk1⟩, ⟨k2, hk2⟩, -, ⟨p, hp⟩, -⟩ := h.registers
  obtain ⟨e, he⟩ := h.tedSelected_err
  exact ⟨_, lfAccum_exact (by simpa using h.exact) he (by simpa using hk1) (by simpa using hk2) (by simpa using hp)⟩

theorem lfP1_isFin (h : AllRational s) : IsFin (lfP1 (tedSelected s)) := by
  obtain ⟨-, -, -, ⟨k1, hk1⟩, -⟩ := h.registers
  obtain ⟨e, he⟩ := h.tedSelected_err
  exact ⟨_, lfP1_exact (by simpa using h.exact) he (by simpa using hk1)⟩

theorem of_unwritten (hexact : s.par.num = .exact) (hregs : s.regs = .reset) (hmem : s.mem = .unwritten)
    (herr : IsFin s.err) : AllRational s where
  exact := hexact
  registers := by
    rw [hregs]
    exact ⟨⟨0, rfl⟩, ⟨0, rfl⟩, ⟨1, rfl⟩, ⟨0, rfl⟩, ⟨0, rfl⟩, ⟨0, rfl⟩, ⟨0, rfl⟩, herr⟩
  elements c := cpxAt_rational hexact (by rw [hmem]; cases c <;> exact fun _ he => absurd he List.not_mem_nil)
  errors := derrAt_rational hexact (by rw [hmem]; exact fun _ he => absurd he List.not_mem_nil)

theorem resetRegs (h : AllRational s) : AllRational (resetRegs s) := by
  obtain ⟨-, -, -, -, -, -, -, herr⟩ := h.registers
  exact { h with registers := ⟨⟨0, rfl⟩, ⟨0, rfl⟩, ⟨1, rfl⟩, ⟨0, rfl⟩, ⟨0, rfl⟩, ⟨0, rfl⟩, ⟨0, rfl⟩, herr⟩ }

theorem regWrite (h : AllRational s) {r : Nat} {v : PortVal} (hw : RegWrite s r v t) : AllRational t := by
  obtain ⟨hbnts, hkp, hqamp, hloop⟩ := h.registers
  cases hw with
  | bnts x hx => exact { h with registers := ⟨.of_inDomain (h.exact ▸ hx), hkp, hqamp, hloop⟩ }
  | kp x hx => exact { h with registers := ⟨hbnts, .of_inDomain (h.exact ▸ hx), hqamp, hloop⟩ }
  | qamp x hx => exact { h with registers := ⟨hbnts, hkp, .of_inDomain (h.exact ▸ hx), hloop⟩ }
  | cfg | nsps | nbit | nrx => exact { h with }

theorem writeRx (h : AllRational s) (n : Nat) {z : Cpx} (hz : CpxFin z) : AllRational (writeRx s n z) :=
  { h with
    elements := fun c m => by
      cases c with
      | rx =>
        rw [cpxAt_writeRx]
        split
        · exact hz
        · exact h.elements .rx m
      | sym => exact h.elements .sym m
      | up => exact h.elements .up m
      | pul => exact h.elements .pul m
      | mf => exact h.elements .mf m
      | out => exact h.elements .out m }

theorem fillCpx (h : AllRational s) (c : CBuf) {vs : List Cpx} (hvs : ∀ z ∈ vs, CpxFin z) :
    AllRational (s.fillCpx c vs) :=
  { h with
    elements := fun d n => by
      by_cases hd : d = c
      · subst hd
        rw [cpxAt_fillCpx_same]
        split
        · exact hvs _ (List.getElem_mem _)
        · exact h.elements d n
      · rw [cpxAt_fillCpx_other s hd]
        exact h.elements d n
    errors := fun n => by
      simpa [State.derrAt] using h.errors n }

theorem mapSymbol (h : AllRational s) (k : Nat) : CpxFin (mapSymbol s k) := by
  obtain ⟨-, -, hqamp, -⟩ := h.registers
  apply CpxFin.settleCpx
  rw [h.exact]
  exact ⟨isFin_qmapPart hqamp _, isFin_qmapPart hqamp _⟩

theorem upsElem (h : AllRational s) (n : Nat) : CpxFin (upsElem s n) := by
  unfold Machine.upsElem
  split
  · exact (h.elements .sym _).settleCpx _ _ _
  · exact cpxFin_zero

theorem boxOut (h : AllRational s) (c : CBuf) (len : Nat) : ∀ z ∈ boxOut s c len, CpxFin z := by
  intro z hz
  obtain ⟨n, -, rfl⟩ := List.mem_map.1 hz
  exact (h.boxAt c len _ n).settleCpx _ _ _

theorem mapWrite (h : AllRational s) : AllRational (mapWrite s) :=
  { h.fillCpx .sym (vs := (List.range (symbolCount s)).map (Machine.mapSymbol s))
      (List.forall_mem_map.2 fun k _ => h.mapSymbol k) with }

theorem upsWrite (h : AllRational s) : AllRational (upsWrite s) :=
  { h.fillCpx .up (vs := (List.range (upsLen s)).map (Machine.upsElem s))
      (List.forall_mem_map.2 fun n _ => h.upsElem n) with }

theorem shapeWrite (h : AllRational s) : AllRational (shapeWrite s) :=
  { h.fillCpx .pul (h.boxOut .up s.regs.nup.toNat) with }

theorem mfiltWrite (h : AllRational s) : AllRational (mfiltWrite s) :=
  { h.fillCpx .mf (h.boxOut .rx s.regs.nrx.toNat) with }

theorem advance (h : AllRational s) : AllRational (advance s) where
  exact := by simpa using h.exact
  registers := by
    obtain ⟨hbnts, hkp, hqamp, hk1, hk2, -⟩ := h.registers
    obtain ⟨t, ht⟩ := h.lfAccum_isFin
    rw [advance_regs_eq, advance_err]
    exact ⟨hbnts, hkp, hqamp, hk1, hk2, h.lfP1_isFin, ⟨_, lfP2_of_accum ht⟩, h.tedSelected_err⟩
  elements c n := by
    by_cases hc : c = .out
    · subst hc
      rw [cpxAt_advance_out]
      split
      · exact (h.mfAt _).settleCpx _ _ _
      · exact h.elements .out n
    · rw [cpxAt_advance_other s hc]
      exact h.elements c n
  errors n := by
    rw [derrAt_advance]
    split
    · exact h.tedSelected_err
    · exact h.errors n

end AllRational

/-! ## Every operation keeps the invariants of the loop -/

namespace LoopInv

variable {s t : State}

theorem of_reset (hbase : BaseInv s) (hrational : AllRational s) (hregs : s.regs = .reset) : LoopInv s where
  base := hbase
  rational := hrational
  accumulator := ⟨0, by rw [hregs]; rfl, by norm_num, by norm_num⟩
  offset := by simp [hregs, Regs.reset, Status.reset]
  firstOffset := fun _ => by rw [hregs]; rfl
  neverLow := by simp [hregs, Regs.reset, Status.reset]
  coefficients := by simp [hregs, Regs.reset, Status.reset]
  contents := by simp [hregs, Regs.reset, Status.reset]

theorem hardReset (h : LoopInv s) : LoopInv (hardReset s) :=
  of_reset h.base.hardReset (.of_unwritten h.rational.exact rfl rfl ⟨0, rfl⟩) rfl

theorem resetRegs (h : LoopInv s) (heng : s.eng = .idle) : LoopInv (resetRegs s) :=
  of_reset (h.base.resetRegs heng) h.rational.resetRegs rfl

/-! ### The host's own data, the engine and `STATUS` -/

theorem tick (h : LoopInv s) : LoopInv s.tick := { h with base := h.base.tick, rational := { h.rational with } }

theorem observe (h : LoopInv s) (v : PortVal) : LoopInv (s.observe v) :=
  { h with base := h.base.observe v, rational := { h.rational with } }

theorem hostMoved (h : LoopInv s) (hu : HostMoved s t) : LoopInv t := by
  have hbase := h.base.hostMoved hu
  obtain ⟨script, lat, e, rfl, -, -⟩ := hu
  exact { h with base := hbase, rational := { h.rational with } }

theorem accept (h : LoopInv s) : LoopInv (accept s) :=
  { h with base := h.base.accept, rational := { h.rational with } }

theorem latched (h : LoopInv s) (w : Word) (k : Nat) : LoopInv { Machine.accept s with eng := .command w k } :=
  { h with base := h.base.latched w k, rational := { h.rational with } }

theorem complete (h : LoopInv s) : LoopInv (complete s) :=
  { h with base := h.base.complete, rational := { h.rational with } }

theorem fail (h : LoopInv s) {c : ErrCode} (hc : c ≠ .none) : LoopInv (fail c s) :=
  { h with base := h.base.fail hc, rational := { h.rational with } }

theorem stopLoop (h : LoopInv s) {c : StopCause} (hc : c ≠ .none) (hlow : c ≠ .low) : LoopInv (stopLoop c s) :=
  { h with base := h.base.stopLoop hc, rational := { h.rational with }, neverLow := hlow }

theorem dropCommand (h : LoopInv s) : LoopInv (dropCommand s) :=
  { h with base := h.base.dropCommand, rational := { h.rational with } }

theorem clearInitOk (h : LoopInv s) : LoopInv (clearInitOk s) :=
  { h with base := h.base.clearInitOk, rational := { h.rational with }, offset := nofun, coefficients := nofun }

theorem clearMfOk (h : LoopInv s) : LoopInv (clearMfOk s) :=
  { h with base := h.base.clearMfOk, rational := { h.rational with }, contents := nofun }

/-! ### Host writes -/

/-- What a flag vouches for may change only in a write that clears it (20_memory.md R37). -/
theorem regWrite (h : LoopInv s) {r : Nat} {v : PortVal} (hw : RegWrite s r v t) : LoopInv t := by
  have hbase := h.base.regWrite hw
  have hrational := h.rational.regWrite hw
  cases hw with
  | cfg | bnts | kp =>
    exact { h with base := hbase, rational := hrational, offset := nofun, coefficients := nofun }
  | nsps =>
    exact { h with
      base := hbase, rational := hrational, offset := nofun, coefficients := nofun, contents := nofun }
  | qamp | nbit => exact { h with base := hbase, rational := hrational }
  | nrx => exact { h with base := hbase, rational := hrational, contents := nofun }

theorem writeBit (h : LoopInv s) {n : Nat} (hn : n < s.par.capBit) (w : Word) : LoopInv (writeBit s n w) :=
  { h with base := h.base.writeBit hn w, rational := { h.rational with } }

theorem writeRx (h : LoopInv s) {n : Nat} (hn : n < s.par.capRx) {z : Cpx} (hz : CpxFin z) :
    LoopInv (writeRx s n z) :=
  { h with base := h.base.writeRx hn z, rational := h.rational.writeRx n hz, contents := nofun }

theorem hostEffect (h : LoopInv s) (he : HostEffect s t) : LoopInv t := by
  cases he with
  | ignored => exact h
  | wroteReg hw => exact h.regWrite hw
  | wroteBit n w hn => exact h.writeBit hn w
  | wroteRx n z hn hre him =>
    have hexact := h.rational.exact
    exact h.writeRx hn ⟨.of_inDomain (hexact ▸ hre), .of_inDomain (hexact ▸ him)⟩
  | read v => exact h.observe v
  | readOutside v => exact (h.observe v).tick
  | dropped => exact h.dropCommand

/-! ### The commands -/

theorem mapWrite (h : LoopInv s) (hfit : symbolCount s ≤ s.par.capSym) : LoopInv (mapWrite s) :=
  { h with base := h.base.mapWrite hfit, rational := h.rational.mapWrite }

theorem upsWrite (h : LoopInv s) (hfit : upsLen s ≤ s.par.capUp) : LoopInv (upsWrite s) :=
  { h with base := h.base.upsWrite hfit, rational := h.rational.upsWrite }

theorem shapeWrite (h : LoopInv s) (hfit : shapeLen s ≤ s.par.capPul) : LoopInv (shapeWrite s) :=
  { h with base := h.base.shapeWrite hfit, rational := h.rational.shapeWrite }

/-- MFILT stores the convolution it vouches for (R69). -/
theorem mfiltWrite (h : LoopInv s) (hnsps : 0 < s.regs.nsps.toInt) (hnrx : s.regs.nrx.toNat ≤ s.par.capRx)
    (hfit : mfiltLen s ≤ s.par.capMf) : LoopInv (mfiltWrite s) :=
  { h with
    base := h.base.mfiltWrite hnsps hnrx hfit
    rational := h.rational.mfiltWrite
    contents := fun _ n hn => by
      have hlen : n < (boxOut s .rx s.regs.nrx.toNat).length := by
        rw [length_boxOut]
        exact hn.trans_le (toNat_ofNat_le le_rfl)
      calc (Machine.mfiltWrite s).cpxAt .mf n
          = (s.fillCpx .mf (boxOut s .rx s.regs.nrx.toNat)).cpxAt .mf n := rfl
        _ = (boxOut s .rx s.regs.nrx.toNat)[n] := by rw [cpxAt_fillCpx_same, dif_pos hlen]
        _ = boxAt s.par.num (s.live .rx s.regs.nrx.toNat) (nspsNat s) n := by
          rw [getElem_boxOut, (h.rational.boxAt _ _ _ _).settleCpx_eq]
        _ = _ := by rw [h.rational.exact]; rfl }

/-- INIT stores the coefficients it vouches for, finite because the divisor is not zero (R78). -/
theorem initWrite (h : LoopInv s) (hnsps : 0 < s.regs.nsps.toInt) (hted : s.regs.cfg.tedSel.toNat ≠ 3)
    (hwrap : s.regs.cfg.wrapSel = false) (hden : numIsZero (coeffOf s).1 = false) : LoopInv (initWrite s) := by
  obtain ⟨⟨b, hb⟩, ⟨g, hg⟩, hqamp, -, -, -, -, herr⟩ := h.rational.registers
  have hcoeff : coeffOf s = coeff .exact (.fin b) (.fin g) s.regs.nsps.toInt := by
    rw [coeffOf, h.rational.exact, hb, hg]
  rw [hcoeff] at hden
  obtain ⟨hk1, hk2⟩ := coeff_exact_isFin b g hnsps.ne' hden
  rw [← hcoeff] at hk1 hk2
  have hgain : s.regs.kp ≠ .fin 0 := by
    rw [hg]
    exact fun hzero => gain_ne_zero_of_den hnsps.ne' hden (NumVal.fin.inj hzero)
  exact { h with
    base := h.base.initWrite hnsps hted hwrap
    rational := { h.rational with
      registers := ⟨⟨b, hb⟩, ⟨g, hg⟩, hqamp, hk1.settle _ _ _, hk2.settle _ _ _,
        ⟨0, rfl⟩, ⟨0, rfl⟩, herr⟩ }
    accumulator := ⟨0, rfl, by norm_num, by norm_num⟩
    offset := fun _ => ⟨Int.neg_nonpos_of_nonneg hnsps.le, hnsps.le⟩
    firstOffset := fun _ => rfl
    neverLow := nofun
    coefficients := fun _ => ⟨hgain, hk1.settle_eq _ _ _, hk2.settle_eq _ _ _⟩ }

/-- The start index is never negative: iteration 0 starts at 0, and later `K × NSPS` outweighs `TAU` (R86 (c)). -/
theorem startIndex_nonneg (h : LoopInv s) (hinit : s.regs.status.initOk = true) : 0 ≤ startIndex s := by
  obtain ⟨hnsps, -, -⟩ := h.base.configured hinit
  obtain ⟨hlow, -⟩ := h.offset hinit
  unfold startIndex baseIndex
  by_cases hk : s.regs.kidx = 0
  · simp [hk, h.firstOffset hk]
  · have hpos : 0 < s.regs.kidx.toNat := Nat.pos_of_ne_zero fun h0 => hk (BitVec.eq_of_toNat_eq h0)
    have hbase : s.regs.nsps.toInt ≤ (s.regs.kidx.toNat : Int) * s.regs.nsps.toInt :=
      le_mul_of_one_le_left hnsps.le (by exact_mod_cast hpos)
    omega

theorem advance (h : LoopInv s) (hroom : s.regs.nout.toNat ≠ s.par.capOut) : LoopInv (advance s) := by
  obtain ⟨t, ht⟩ := h.rational.lfAccum_isFin
  obtain ⟨hpLow, hpHigh⟩ := clampRat_bounds t
  have htau : lfTau (tedSelected s) = roundEven (clampRat t * s.regs.nsps.toInt) := by
    simpa using lfTau_of_accum (by simpa using h.rational.exact) ht
  exact {
    base := h.base.advance hroom
    rational := h.rational.advance
    accumulator := ⟨clampRat t, by simp only [advance_regs_eq, lfP2_of_accum ht], hpLow, hpHigh⟩
    offset := fun hinit => by
      rw [advance_status] at hinit
      obtain ⟨hnsps, -, -⟩ := h.base.configured hinit
      obtain ⟨hlow, hhigh⟩ := roundEven_clampRat_mul_bounds t hnsps.le
      simp only [advance_regs_eq, htau, toInt_ofInt_of_bounds s.regs.nsps hlow hhigh]
      exact ⟨hlow, hhigh⟩
    firstOffset := fun hk => by
      have hcap := capOut_lt h.base.params
      obtain ⟨-, -, -, -, hout⟩ := h.base.lengths
      have hsucc : (s.regs.kidx + 1).toNat = s.regs.kidx.toNat + 1 :=
        toNat_succ_of_lt (by rw [h.base.counts]; omega)
      simp only [advance_regs_eq] at hk
      rw [hk] at hsucc
      exact absurd hsucc (Nat.succ_ne_zero _).symm
    neverLow := by simpa using h.neverLow
    coefficients := by simpa [advance_regs_eq, coeffOf] using h.coefficients
    contents := by
      have hrx : (Machine.advance s).live .rx s.regs.nrx.toNat = s.live .rx s.regs.nrx.toNat := by
        simp only [State.live, funext (cpxAt_advance_other s (c := .rx) (by decide))]
      simpa [advance_regs_eq, nspsNat, hrx, cpxAt_advance_other s (c := .mf)] using h.contents }

theorem iterate (h : LoopInv s) (hinit : s.regs.status.initOk = true) : LoopInv (iterate s) := by
  obtain ⟨c, hstop, hs⟩ | ⟨hgo, hs⟩ := iterate_cases s
  · have hlow : c ≠ .low := by
      rintro rfl
      exact absurd (startIndex_neg_of_stopTest_low hstop) (not_lt.2 (h.startIndex_nonneg hinit))
    rw [hs]
    exact h.stopLoop (stopTest_some_ne_none hstop) hlow
  · obtain ⟨-, -, -, hroom⟩ := (stopTest_none_iff s).1 hgo
    rw [hs]
    exact h.advance hroom

end LoopInv

/-- A pass of the loop leaves `INIT_OK` as it is. -/
theorem iterate_initOk (s : State) : (iterate s).regs.status.initOk = s.regs.status.initOk := by
  obtain ⟨c, -, hs⟩ | ⟨-, hs⟩ := iterate_cases s
  · rw [hs]; rfl
  · rw [hs, advance_status]

namespace LoopInv

variable {s t : State}

theorem runLoop (h : LoopInv s) (hseq : seqOk s = true) (n : Nat) : LoopInv (runLoop n s) := by
  obtain ⟨hinit, -⟩ := Bool.and_eq_true_iff.1 hseq
  refine (runLoop_induction (P := fun u => LoopInv u ∧ u.regs.status.initOk = true) ?_ n ⟨h, hinit⟩).1
  rintro u ⟨hu, huinit⟩
  exact ⟨hu.iterate huinit, (iterate_initOk u).trans huinit⟩

theorem commandEffect (h : LoopInv s) {i : Instr} (he : CommandEffect s i t) : LoopInv t := by
  cases he with
  | nop => exact h.complete
  | srst => exact (h.complete.resetRegs rfl).complete
  | map hfit => exact (h.mapWrite hfit).tick.complete
  | ups hfit => exact (h.upsWrite hfit).tick.complete
  | shape hfit => exact (h.shapeWrite hfit).tick.complete
  | mfilt hnsps hnrx hfit => exact (h.clearMfOk.mfiltWrite hnsps hnrx hfit).tick.complete
  | init hnsps hted hwrap hden => exact (h.clearInitOk.initWrite hnsps hted hwrap hden).tick.complete
  | loop hi n hseq => exact (h.runLoop hseq n).complete
  | failed hi hc => exact h.fail hc
  | initFailed hc => exact h.clearInitOk.fail hc
  | mfiltFailed hc => exact h.clearMfOk.fail hc

theorem stepEffect (h : LoopInv s) (he : StepEffect s t) : LoopInv t := by
  cases he with
  | host he => exact h.hostEffect he
  | reset => exact h.hardReset
  | latched w k => exact h.latched w k
  | ran he => exact h.accept.commandEffect he
  | rejected => exact h.accept.fail (by decide)

end LoopInv

end Sys2Proof.Machine

namespace Sys2Proof.Proofs
open Sys2Proof Sys2Proof.Machine

/-- Settles O59: each effect a step can have keeps the invariants of the loop. -/
theorem stepKeepsLoopInv : Obligations.StepKeepsLoopInv := by
  intro s t hs hstep
  obtain ⟨u, hmoved, heffect⟩ := step_effect hs.base.notInner hstep
  exact (hs.hostMoved hmoved).stepEffect heffect

/-- Settles O57: the reset state is the one `of_reset` describes. -/
theorem resetMeetsTheInvariants : Obligations.ResetMeetsTheInvariants := by
  intro p hp
  have hbase : BaseInv (State.resetOf p) :=
    .of_reset hp rfl ⟨wf_unwritten, inCap_hardReset (State.resetOf p)⟩ rfl
  exact ⟨hbase, fun hexact => .of_reset hbase (.of_unwritten hexact rfl rfl ⟨0, rfl⟩) rfl⟩

end Sys2Proof.Proofs
end

section
/-! PROOFS. Single steps of the machine: a step runs the decoded instruction (10_state.md R18), what each host write of
a register stores and clears (R17, R20 to R25), what a busy engine takes (70_reset_and_hazards.md R113), the registers
after reset (R31), and who writes the loop state (R14 to R16, R27). -/

namespace Sys2Proof.Machine

/-! ## The table word of a command -/

theorem tableCode_command (w : Word) : tableCode 32 w.toNat = ⟨.command, w⟩ := by
  have hw : w.toNat % 4294967296 = w.toNat := Nat.mod_eq_of_lt w.isLt
  simp [tableCode, hw]

/-- The fetched command is the host's next transaction, and the entry 0 of `lat` makes it atomic. -/
theorem step_withFetchWord_command (s : State) (w : Word) :
    step (s.withFetchWord 32 w.toNat) = engineRun w { s with eng := .idle } := by
  rw [State.withFetchWord, tableCode_command]
  exact step_of_hostNext_cmd (rest := s.script) ⟨rfl, rfl⟩

/-! ## The register values of reset (R31) -/

/-- The parameters do not show in the registers of reset. -/
theorem readReg_resetOf (p : Params) (r : Nat) : (State.resetOf p).readReg r = State.reset.readReg r := by
  unfold State.readReg
  split <;> rfl

/-! ## Host writes of a register -/

/-- Reserved bits of `CFG` are not stored (R20). -/
theorem Cfg.image_ofImage (w : Word) : (Cfg.ofImage w).image = w &&& 0x1F := by
  apply BitVec.eq_of_getLsbD_eq
  intro i hi
  simp only [Cfg.image, Cfg.ofImage, BitVec.getLsbD_append, BitVec.getLsbD_ofBool, BitVec.getLsbD_and]
  interval_cases i <;> simp

/-- The engine performs a host write of an integer register. -/
theorem step_writes_word {s : State} {w : Word} {r : Nat} {rest : List HostOp}
    (h : HostNext s (.wr r (.word w)) rest) (hr : r = 2 ∨ r = 3 ∨ r = 7 ∨ r = 8) :
    ∃ t, step s = .next t ∧ RegWrite { s with script := rest } r (.word w) t := by
  obtain rfl | rfl | rfl | rfl := hr
  · exact ⟨_, step_of_hostNext h (by simp), .cfg w⟩
  · exact ⟨_, step_of_hostNext h (by simp), .nsps w⟩
  · exact ⟨_, step_of_hostNext h (by simp), .nbit w⟩
  · exact ⟨_, step_of_hostNext h (by simp), .nrx w⟩

/-- The engine performs a host write of a `NUM` register with a value of the numeric domain. -/
theorem step_writes_num {s : State} {x : NumVal} {r : Nat} {rest : List HostOp}
    (h : HostNext s (.wr r (.num x)) rest) (hr : r = 4 ∨ r = 5 ∨ r = 6) (hx : inDomain s.par.num x = true) :
    ∃ t, step s = .next t ∧ RegWrite { s with script := rest } r (.num x) t := by
  rw [step_of_hostNext h (by simp)]
  obtain rfl | rfl | rfl := hr
  · exact ⟨_, if_pos hx, .bnts x hx⟩
  · exact ⟨_, if_pos hx, .kp x hx⟩
  · exact ⟨_, if_pos hx, .qamp x hx⟩

/-- A written register reads as what was written, `CFG` without its reserved bits. -/
theorem RegWrite.readReg_word {s t : State} {r : Nat} {w : Word} (h : RegWrite s r (.word w) t) :
    t.readReg r = .word (if r = 2 then w &&& 0x1F else w) := by
  cases h with
  | cfg => exact congrArg PortVal.word (Cfg.image_ofImage w)
  | nsps | nbit | nrx => rfl

theorem RegWrite.readReg_num {s t : State} {r : Nat} {x : NumVal} (h : RegWrite s r (.num x) t) :
    t.readReg r = .num x := by
  cases h <;> rfl

/-- A host write to a read-only register, or to one that does not exist, is ignored (R17). -/
theorem hostAccess_readOnly {r : Nat} (hr : r = 1 ∨ 9 ≤ r) (v : PortVal) (s : State) :
    hostAccess (.wr r v) s = .next s := by
  have hform : regWriteForm r = none := by
    unfold regWriteForm
    split
    all_goals first | rfl | omega
  have hwf : (HostOp.wr r v).wf = true := by simp only [HostOp.wf, hform]
  rw [hostAccess, if_pos hwf]
  cases v with
  | word w =>
    simp only [hostWriteReg]
    split
    all_goals first | rfl | omega
  | num x =>
    have hnum : ¬ (r = 4 ∨ r = 5 ∨ r = 6) := by omega
    simp only [hostWriteReg, if_neg hnum]
  | cpx z => rfl

/-! ## Accesses to a busy engine -/

/-- Every access to a busy engine but a read of `STATUS`, a write to `CMD` and a reset is refused. -/
theorem busyAccess_refused {op : HostOp} (s : State) (hwf : op.wf = true) (hread : op ≠ .rd 1)
    (hreset : op ≠ .reset) (hcmd : ∀ v, op ≠ .wr 0 v) : busyAccess op s = .refused .accessWhileBusy := by
  unfold busyAccess
  rw [if_pos hwf]
  cases op with
  | wr r v =>
    have hr : r ≠ 0 := by
      rintro rfl
      exact hcmd v rfl
    exact if_neg hr
  | rd r =>
    have hr : r ≠ 1 := by
      rintro rfl
      exact hread rfl
    exact if_neg hr
  | wb | rb => rfl
  | reset => exact absurd rfl hreset

/-! ## Who writes the loop state -/

/-- With no register changed but `STATUS` and the four lengths, every other register reads as before. -/
theorem sameRegs_lengths {s t : State} {st : Status} {nsym nup npul nmf : Word}
    (h : t.regs = { s.regs with status := st, nsym := nsym, nup := nup, npul := npul, nmf := nmf }) :
    SameRegs [1, 15, 16, 17, 18] s t := by
  intro r hr
  simp only [List.mem_cons, List.not_mem_nil, or_false, not_or] at hr
  unfold State.readReg
  rw [h]
  split
  all_goals first | rfl | omega

/-- NOP and the commands that fill a buffer write no register but `STATUS` and the lengths. -/
theorem CommandEffect.sameRegs {i : Instr} {s t : State} (he : CommandEffect (accept s) i t)
    (hi : i = .nop ∨ i = .map ∨ i = .ups ∨ i = .shape ∨ i = .mfilt) : SameRegs [1, 15, 16, 17, 18] s t := by
  cases he with
  | nop | map | ups | shape | mfilt | failed | mfiltFailed => exact sameRegs_lengths rfl
  | srst | init | initFailed => simp at hi
  | loop hstep => obtain rfl | rfl := hstep <;> simp at hi

/-- A pass of the loop leaves the coefficients as they are. -/
theorem iterate_coefficients (s : State) :
    (iterate s).regs.k1 = s.regs.k1 ∧ (iterate s).regs.k2 = s.regs.k2 := by
  obtain ⟨c, -, hs⟩ | ⟨-, hs⟩ := iterate_cases s
  · rw [hs]; exact ⟨rfl, rfl⟩
  · rw [hs, advance_regs_eq]; exact ⟨rfl, rfl⟩

theorem runLoop_coefficients (n : Nat) (s : State) :
    (runLoop n s).regs.k1 = s.regs.k1 ∧ (runLoop n s).regs.k2 = s.regs.k2 := by
  refine runLoop_induction (P := fun u => u.regs.k1 = s.regs.k1 ∧ u.regs.k2 = s.regs.k2) ?_ n ⟨rfl, rfl⟩
  rintro u ⟨hk1, hk2⟩
  obtain ⟨hk1', hk2'⟩ := iterate_coefficients u
  exact ⟨hk1'.trans hk1, hk2'.trans hk2⟩

theorem CommandEffect.coefficients {i : Instr} {s t : State} (he : CommandEffect (accept s) i t)
    (hinit : i ≠ .init) (hsrst : i ≠ .srst) : t.regs.k1 = s.regs.k1 ∧ t.regs.k2 = s.regs.k2 := by
  cases he with
  | nop | map | ups | shape | mfilt | failed | mfiltFailed => exact ⟨rfl, rfl⟩
  | loop _ n => exact runLoop_coefficients n (accept s)
  | srst => exact absurd rfl hsrst
  | init | initFailed => exact absurd rfl hinit

/-- Every instruction but INIT and SRST leaves the coefficients as they are (R15). -/
theorem exec_coefficients {i : Instr} {s t : State} (hinit : i ≠ .init) (hsrst : i ≠ .srst)
    (h : exec i s = .next t) : t.regs.k1 = s.regs.k1 ∧ t.regs.k2 = s.regs.k2 := by
  cases hi : isCommand i with
  | true => exact (exec_effect hi h).coefficients hinit hsrst
  | false =>
    cases i with
    | tedGa | tedGc | tedZc | lfUpd => cases h; exact ⟨rfl, rfl⟩
    | nop | map | ups | shape | mfilt | init | step | run | srst => exact nomatch hi

/-- The host writes no register from 9 on (R17). -/
theorem HostEffect.readReg_of_ge {s t : State} (he : HostEffect s t) {r : Nat} (hr : 9 ≤ r) :
    t.readReg r = s.readReg r := by
  cases he with
  | ignored | wroteBit | read | readOutside => rfl
  | wroteReg hw =>
    have hown := hw.lt_nine
    exact hw.sameRegs r (by simp; omega)
  | wroteRx n z => exact sameRegs_status (t := writeRx s n z) _ rfl r (by simp; omega)
  | dropped => exact sameRegs_status (t := dropCommand s) _ rfl r (by simp; omega)

end Sys2Proof.Machine

namespace Sys2Proof.Proofs
open Sys2Proof Sys2Proof.Machine

/-- Settles O10: the effects of the commands and of the host accesses, one by one. -/
theorem loopStateHasFewWriters : Obligations.LoopStateHasFewWriters := by
  refine ⟨fun i s t hi h r hr hloop => ?fills, fun i s t hinit hsrst h => ?coefficients,
    fun op s t hop h r hr => ?host⟩
  case fills =>
    have hcommand : isCommand i = true := by obtain rfl | rfl | rfl | rfl | rfl := hi <;> rfl
    exact (exec_effect hcommand h).sameRegs hi r (by simp; omega)
  case coefficients =>
    obtain ⟨hk1, hk2⟩ := exec_coefficients hinit hsrst h
    exact ⟨congrArg PortVal.num hk1, congrArg PortVal.num hk2⟩
  case host =>
    obtain hidle | hbusy := h
    · exact (hostAccess_effect hidle hop).readReg_of_ge hr
    · exact (busyAccess_effect hbusy hop).readReg_of_ge hr

/-- Settles O16: the write is performed, and each of the four writes names its register and its flags. -/
theorem hostWritesOfIntegerRegisters : Obligations.HostWritesOfIntegerRegisters := by
  intro s w r rest h hr
  obtain ⟨t, hstep, hw⟩ := step_writes_word h hr
  refine ⟨t, hstep, hw.readReg_word, hw.sameRegs, hw.sameElems, hw.sameHost, hw.eng, ?_⟩
  cases hw <;> rfl

/-- Settles O17: as for the integer registers, once the value is one of the domain. -/
theorem hostWritesOfNumRegisters : Obligations.HostWritesOfNumRegisters := by
  intro s x r rest h hr hx
  obtain ⟨t, hstep, hw⟩ := step_writes_num h hr hx
  refine ⟨t, hstep, hw.readReg_num, hw.sameRegs, hw.sameElems, hw.sameHost, hw.eng, ?_⟩
  cases hw <;> rfl

/-- Settles O19: the writes are performed, and the checks on the capacities come first, `ERR_NSPS` apart. -/
theorem nbitAndNrxRules : Obligations.NbitAndNrxRules := by
  refine ⟨fun s w r rest h hr => ?write, fun s hbig => ?map, fun s hbig hnsps => ?mfilt, fun p => ⟨rfl, rfl⟩⟩
  case write =>
    obtain ⟨t, hstep, hw⟩ := step_writes_word h (by omega)
    refine ⟨t, hstep, ?_, ?_⟩
    · rw [hw.readReg_word, if_neg (by omega)]
    · rintro rfl
      cases hw
      rfl
  case map =>
    obtain ⟨-, hbody⟩ | ⟨⟨hfit, -⟩, -⟩ := mapBody_cases (accept s)
    · exact ⟨_, congrArg Host.Outcome.next hbody, rfl, rfl⟩
    · exact absurd hbig (not_lt.2 hfit)
  case mfilt =>
    obtain ⟨hbad, -⟩ | ⟨-, -, hbody⟩ | ⟨-, hfit, -⟩ := mfiltBody_cases (clearMfOk (accept s))
    · exact absurd hnsps (not_lt.2 hbad)
    · exact ⟨_, congrArg Host.Outcome.next hbody, rfl, rfl⟩
    · exact absurd hbig (not_lt.2 hfit)

/-- Settles O4: the word is latched, decoded and run in one step. -/
theorem stepRunsTheDecodedInstruction : Obligations.StepRunsTheDecodedInstruction := by
  refine ⟨fun s w i rest hdecode hnext => ⟨fun hlat => ?_, fun r hlat => ?_⟩, fun s c i hdecode heng => ?_,
    fun s w i hdecode => ?_⟩
  · rw [step_of_hostNext_cmd hnext]
    simp only [issue, hlat]
    exact engineRun_of_decode hdecode _
  · rw [step_of_hostNext_cmd hnext]
    simp only [issue, hlat]
    exact engineRun_of_decode hdecode _
  · rw [step_of_inner heng, engineInner_of_decode hdecode]
  · rw [step_withFetchWord_command, engineRun_of_decode hdecode]

/-- Settles O13: the registers of reset are the same for all parameters, and read as the table says for one choice. -/
theorem resetRegisterValues : Obligations.ResetRegisterValues := by
  intro p
  simp only [readReg_resetOf p]
  exact ⟨by decide, by decide, by decide, by decide, rfl⟩

/-- Settles O18: the port takes the write and drops it. -/
theorem readOnlyRegistersIgnoreWrites : Obligations.ReadOnlyRegistersIgnoreWrites := by
  intro s v r rest h hr
  have hcmd : ∀ w, HostOp.wr r v ≠ .wr 0 (.word w) := by
    rintro w ⟨⟩
    omega
  rw [step_of_hostNext h hcmd]
  exact hostAccess_readOnly hr v _

/-- Settles O23: the two accesses a busy engine takes are computed, and every other one is refused. -/
theorem busyEngineTakesOnlyStatusReads : Obligations.BusyEngineTakesOnlyStatusReads := by
  intro s w k op rest heng hscript hwf
  rw [step_of_busy heng hscript]
  refine ⟨?command, ?status, busyAccess_refused _ hwf⟩
  case command =>
    rintro v rfl
    exact if_pos hwf
  case status =>
    rintro rfl
    rfl

end Sys2Proof.Proofs
end

section
/-! PROOFS. The ports onto the memory (20_memory.md R33, R36 to R38) and who stores to it: what a host access of an
element stores, ignores or returns, and the spaces each instruction may write (10_state.md R29). -/

namespace Sys2Proof.Machine

/-! ## Frames, weakened and chained -/

theorem SameElems.mono {P Q : Nat → Nat → Prop} {s t : State} (h : SameElems P s t)
    (hPQ : ∀ sp n, P sp n → Q sp n) : SameElems Q s t :=
  fun sp n hQ => h sp n fun hP => hQ (hPQ sp n hP)

theorem SameElems.trans {P : Nat → Nat → Prop} {s t u : State} (hst : SameElems P s t) (htu : SameElems P t u) :
    SameElems P s u :=
  fun sp n hP => (htu sp n hP).trans (hst sp n hP)

/-! ## The spaces an instruction writes (R33) -/

/-- An iteration performed stores one element to each of OUT, DERR and DTAU, and no other. -/
theorem advance_sameElems (s : State) :
    SameElems (fun sp n => (sp = 6 ∨ sp = 7 ∨ sp = 8) ∧ n = s.regs.nout.toNat) s (advance s) := by
  have hnout : (lfUpd (tedSelected s)).regs.nout = s.regs.nout := by simp [lfUpd]
  have hemit := readElem_emit (mfAt s (emitIndex s)) (lfUpd (tedSelected s))
  rw [hnout] at hemit
  exact SameElems.trans (sameElems_of_eq _ (by simp) (by simp) (by simp)) hemit

theorem iterate_sameElems (s : State) :
    SameElems (fun sp _ => sp = 6 ∨ sp = 7 ∨ sp = 8) s (iterate s) := by
  obtain ⟨c, -, h⟩ | ⟨-, h⟩ := iterate_cases s
  · rw [h]
    exact sameElems_of_eq _ rfl rfl rfl
  · rw [h]
    exact (advance_sameElems s).mono fun _ _ hstored => hstored.1

theorem runLoop_sameElems (n : Nat) (s : State) :
    SameElems (fun sp _ => sp = 6 ∨ sp = 7 ∨ sp = 8) s (runLoop n s) :=
  runLoop_induction (P := SameElems _ s) (fun u hu => hu.trans (iterate_sameElems u)) n
    (sameElems_of_eq _ rfl rfl rfl)

/-- An instruction that fills a buffer of its own space stores nowhere else. -/
theorem sameElems_of_fill {i : Instr} {s t : State} (c : CBuf) (vs : List Cpx)
    (hspace : writesSpace i c.space = true) (hpar : t.par = s.par) (hmem : t.mem = (s.fillCpx c vs).mem)
    (hera : t.era = s.era) : SameElems (fun sp _ => writesSpace i sp = true) s t := by
  have hfill : SameElems (fun sp _ => writesSpace i sp = true) s (s.fillCpx c vs) :=
    (readElem_fillCpx s c vs).mono fun sp n hstored => by
      obtain ⟨rfl, -⟩ := hstored
      exact hspace
  exact hfill.trans (sameElems_of_eq _ hpar hmem hera)

theorem CommandEffect.sameElems {i : Instr} {a t : State} (he : CommandEffect a i t) :
    SameElems (fun sp _ => writesSpace i sp = true) a t := by
  cases he with
  | nop | srst | init | failed | initFailed | mfiltFailed => exact sameElems_of_eq _ rfl rfl rfl
  | map => exact sameElems_of_fill .sym _ rfl rfl rfl rfl
  | ups => exact sameElems_of_fill .up _ rfl rfl rfl rfl
  | shape => exact sameElems_of_fill .pul _ rfl rfl rfl rfl
  | mfilt => exact sameElems_of_fill .mf _ rfl rfl rfl rfl
  | loop hi n =>
    have hspaces : ∀ sp, sp = 6 ∨ sp = 7 ∨ sp = 8 → writesSpace i sp = true := fun sp hsp => by
      obtain rfl | rfl := hi <;> exact decide_eq_true hsp
    exact (runLoop_sameElems n a).mono fun sp _ => hspaces sp

/-! ## Host writes of an element (R36, R38) -/

theorem hostAccess_wb {sp n : Nat} {v : PortVal} (hwf : (HostOp.wb sp n v).wf = true) (s : State) :
    hostAccess (.wb sp n v) s = hostWriteElem sp n v s :=
  if_pos hwf

theorem hostWriteElem_bit {s : State} {n : Nat} (hn : n < s.par.capBit) (w : Word) :
    hostWriteElem 0 n (.word w) s = .next (writeBit s n w) :=
  if_pos ⟨rfl, hn⟩

theorem hostWriteElem_rx {s : State} {n : Nat} {z : Cpx} (hn : n < s.par.capRx)
    (hre : inDomain s.par.num z.re = true) (him : inDomain s.par.num z.im = true) :
    hostWriteElem 4 n (.cpx z) s = .next (writeRx s n z) := by
  simp only [hostWriteElem, hn, hre, him, and_self, Bool.and_self, if_true]

theorem step_writes_bit {s : State} {w : Word} {n : Nat} {rest : List HostOp}
    (h : HostNext s (.wb 0 n (.word w)) rest) (hn : n < s.par.capBit) :
    step s = .next (writeBit { s with script := rest } n w) := by
  rw [step_of_hostNext h nofun, hostAccess_wb rfl]
  exact hostWriteElem_bit (s := { s with script := rest }) hn w

theorem step_writes_rx {s : State} {z : Cpx} {n : Nat} {rest : List HostOp}
    (h : HostNext s (.wb 4 n (.cpx z)) rest) (hn : n < s.par.capRx) (hre : inDomain s.par.num z.re = true)
    (him : inDomain s.par.num z.im = true) : step s = .next (writeRx { s with script := rest } n z) := by
  rw [step_of_hostNext h nofun, hostAccess_wb rfl]
  exact hostWriteElem_rx (s := { s with script := rest }) hn hre him

/-- Whatever a write carries, it is ignored unless it names an element of BIT or RX. -/
theorem hostWriteElem_ignored {s : State} {sp n : Nat} (hbit : ¬ (sp = 0 ∧ n < s.par.capBit))
    (hrx : ¬ (sp = 4 ∧ n < s.par.capRx)) (v : PortVal) : hostWriteElem sp n v s = .next s := by
  cases v with
  | word w => exact if_neg hbit
  | num x => rfl
  | cpx z => exact if_neg hrx

/-- The bit stored, put back on the port. -/
theorem bitWord_getLsbD (w : Word) : bitWord (w.getLsbD 0) = w &&& 1 := by
  have hbit : w &&& 1 = BitVec.setWidth 32 (BitVec.ofBool (w.getLsbD 0)) :=
    BitVec.and_one_eq_setWidth_ofBool_getLsbD
  rw [hbit]
  cases w.getLsbD 0 <;> rfl

theorem readElem_writeBit_same {s : State} {n : Nat} (hn : n < s.par.capBit) (w : Word) :
    (writeBit s n w).readElem 0 n = some (.word (w &&& 1)) := by
  have hread : (writeBit s n w).bitAt n = w.getLsbD 0 := by
    simp only [State.bitAt, writeBit, get?_put_same, Option.getD_some]
  have hcap : n < (writeBit s n w).par.capBit := hn
  simp only [State.readElem, hcap, if_true, hread, bitWord_getLsbD]

theorem readElem_writeRx_same {s : State} {n : Nat} (hn : n < s.par.capRx) (z : Cpx) :
    (writeRx s n z).readElem 4 n = some (.cpx z) := by
  have hread : (writeRx s n z).cpxAt .rx n = z := by
    simp only [State.cpxAt, writeRx, Memory.cbuf, get?_put_same, Option.getD_some]
  have hcap : n < (writeRx s n z).par.capRx := hn
  simp only [State.readElem, hcap, if_true, hread]

/-! ## Host reads (R37, R38) -/

theorem hostAccess_rb (sp n : Nat) (s : State) : hostAccess (.rb sp n) s = .next (hostReadElem sp n s) := rfl

theorem step_reads_elem {s : State} {sp n : Nat} {v : PortVal} {rest : List HostOp}
    (h : HostNext s (.rb sp n) rest) (hv : s.readElem sp n = some v) :
    step s = .next (State.observe { s with script := rest } v) := by
  have hread : ({ s with script := rest } : State).readElem sp n = some v := hv
  rw [step_of_hostNext h nofun, hostAccess_rb]
  simp only [hostReadElem, hread]

/-- A read outside every buffer completes with a free value and counts as one computation (log 5, log 12). -/
theorem step_reads_outside {s : State} {sp n : Nat} {rest : List HostOp} (h : HostNext s (.rb sp n) rest)
    (hnone : s.readElem sp n = none) :
    step s = .next (State.observe { s with script := rest } (s.openRead sp)).tick := by
  have hread : ({ s with script := rest } : State).readElem sp n = none := hnone
  rw [step_of_hostNext h nofun, hostAccess_rb]
  simp only [hostReadElem, hread]
  rfl

/-- A register number that does not exist reads 0 (10_state.md R17). -/
theorem readReg_of_ge (s : State) {r : Nat} (hr : 22 ≤ r) : s.readReg r = .word 0 := by
  obtain ⟨k, rfl⟩ := Nat.exists_eq_add_of_le' hr
  rfl

/-- A space number that does not exist has no element. -/
theorem readElem_of_ge (s : State) {sp : Nat} (hsp : 10 ≤ sp) (n : Nat) : s.readElem sp n = none := by
  obtain ⟨k, rfl⟩ := Nat.exists_eq_add_of_le' hsp
  rfl

end Sys2Proof.Machine

namespace Sys2Proof.Proofs
open Sys2Proof Sys2Proof.Machine

/-- Settles O9: each effect of a command is a fill of its own buffer, passes of the loop, or no store at all, and no
micro-operation stores. -/
theorem instructionsStoreOnlyToTheirBuffers : Obligations.InstructionsStoreOnlyToTheirBuffers := by
  intro i s t h
  cases hi : isCommand i with
  | true =>
    have haccept : SameElems (fun sp _ => writesSpace i sp = true) s (accept s) := sameElems_of_eq _ rfl rfl rfl
    exact haccept.trans (exec_effect hi h).sameElems
  | false =>
    cases i with
    | tedGa | tedGc | tedZc | lfUpd => cases h; exact sameElems_of_eq _ rfl rfl rfl
    | nop | map | ups | shape | mfilt | init | step | run | srst => exact nomatch hi

/-- Settles O20: the write is performed, and the element stored reads back. -/
theorem hostWritesOfElements : Obligations.HostWritesOfElements := by
  refine ⟨fun s w n rest h hn => ?bit, fun s z n rest h hn hre him => ?rx⟩
  case bit =>
    exact ⟨_, step_writes_bit h hn, readElem_writeBit_same hn w, readElem_writeBit _ n w, rfl,
      ⟨rfl, rfl, rfl, rfl, rfl⟩, rfl⟩
  case rx =>
    exact ⟨_, step_writes_rx h hn hre him, readElem_writeRx_same hn z, readElem_writeRx _ n z,
      sameRegs_status _ rfl, ⟨rfl, rfl, rfl, rfl, rfl⟩, rfl, rfl⟩

/-- Settles O21: the port takes the write and drops it. -/
theorem forbiddenElementWritesAreIgnored : Obligations.ForbiddenElementWritesAreIgnored := by
  intro s v sp n rest h hwf hforbidden
  rw [step_of_hostNext h nofun, hostAccess_wb hwf]
  refine hostWriteElem_ignored ?_ ?_ v
  · show ¬ (sp = 0 ∧ n < s.par.capBit)
    omega
  · show ¬ (sp = 4 ∧ n < s.par.capRx)
    omega

/-- Settles O22: a read hands its value over, a read outside every buffer also counts as one computation, and the
constant registers and spaces are read off the port's table. -/
theorem readsHaveNoSideEffect : Obligations.ReadsHaveNoSideEffect := by
  refine ⟨fun s r rest h => ?register, fun s sp n v rest h hv => ?element, fun s sp n rest h hnone => ?outside,
    fun s => ⟨rfl, fun r => readReg_of_ge s⟩,
    fun s => ⟨rfl, fun n hn => ?barkerEnd, fun sp n hsp => readElem_of_ge s hsp n⟩⟩
  case register => exact step_of_hostNext h nofun
  case element => exact step_reads_elem h hv
  case outside => exact ⟨_, step_reads_outside h hnone, rfl, rfl, rfl, rfl, rfl, rfl, rfl, _, rfl⟩
  case barkerEnd => exact if_neg (not_lt.2 hn)

end Sys2Proof.Proofs
end

section
/-! PROOFS. The encodings (30_encoding.md): the command word and its reserved values (R46, R47, R49), the reserved bits
of `CFG` and `STATUS` (R55), the stream of MAP and the quadrant table (R54, R56, R57), and the index selector of STEP
(R53). -/

namespace Sys2Proof.Machine

/-! ## The fields of a command word (R46) -/

theorem opcField_eq (w : Word) : opcField w = w.toNat % 256 := by
  simp [opcField, BitVec.extractLsb'_toNat]

theorem zeroField_eq (w : Word) : zeroField w = w.toNat / 256 := by
  have hw := w.isLt
  simp only [zeroField, BitVec.extractLsb'_toNat, Nat.shiftRight_eq_div_pow]
  omega

/-- A word whose field `ZERO` is 0 is its opcode. -/
theorem word_eq_ofNat_opcField {w : Word} (hzero : zeroField w = 0) : w = BitVec.ofNat 32 (opcField w) := by
  rw [zeroField_eq] at hzero
  apply BitVec.eq_of_toNat_eq
  rw [toNat_ofNat_of_lt (by rw [opcField_eq]; omega), opcField_eq]
  omega

/-- The word of a command is determined by the command: `ZERO` is 0, and each opcode stands in one row (R47). -/
theorem encode_of_decode_command {w : Word} {i : Instr} (h : decode ⟨.command, w⟩ = .ok i) :
    encode i = ⟨.command, w⟩ := by
  simp only [decode, decodeCommand] at h
  split at h
  · exact nomatch h
  · rename_i hzero
    rw [word_eq_ofNat_opcField (not_not.1 hzero)]
    split at h
    all_goals cases h
    all_goals rename_i hopc; rw [hopc]; rfl

/-- Every instruction has its row of the opcode table. -/
theorem coded (i : Instr) : Laws.Coded.Statement i := by
  cases i with
  | nop => exact Laws.Coded.nop
  | map => exact Laws.Coded.map
  | ups => exact Laws.Coded.ups
  | shape => exact Laws.Coded.shape
  | mfilt => exact Laws.Coded.mfilt
  | init => exact Laws.Coded.init
  | step => exact Laws.Coded.step
  | run => exact Laws.Coded.run
  | srst => exact Laws.Coded.srst
  | tedGa => exact Laws.Coded.tedGa
  | tedGc => exact Laws.Coded.tedGc
  | tedZc => exact Laws.Coded.tedZc
  | lfUpd => exact Laws.Coded.lfUpd

/-! ## Reserved command words (R49) -/

/-- The decoder rejects a word with a nonzero field `ZERO` or an opcode outside the map of R47. -/
theorem decode_rejected_of_reserved {w : Word}
    (h : w.toNat / 256 ≠ 0 ∨ (8 ≤ w.toNat % 256 ∧ w.toNat % 256 ≠ 15)) :
    ∃ e, decode ⟨.command, w⟩ = .rejected e := by
  rw [← zeroField_eq, ← opcField_eq] at h
  simp only [decode, decodeCommand]
  split
  · exact ⟨_, rfl⟩
  · split
    all_goals first | exact ⟨_, rfl⟩ | omega

theorem engineRun_of_rejected {w : Word} {e : DecodeError} (h : decode ⟨.command, w⟩ = .rejected e) (s : State) :
    engineRun w s = .next (rejectWord s) := by
  simp only [engineRun, h]

theorem failedOnly_rejectWord (s : State) : FailedOnly .opc s (rejectWord s) :=
  ⟨rfl, rfl, sameRegs_status _ rfl, sameElems_of_eq _ rfl rfl rfl, rfl, rfl, rfl, rfl, rfl⟩

/-! ## Reserved bits (R55) -/

/-- A bit above the low part of a concatenation is one of the high part. -/
theorem getLsbD_append_of_ge {m n : Nat} (x : BitVec m) (y : BitVec n) {i : Nat} (hi : n ≤ i) :
    (x ++ y).getLsbD i = x.getLsbD (i - n) := by
  rw [BitVec.getLsbD_append, if_neg (not_lt.2 hi)]

theorem Status.getLsbD_image_seven (b : Bool) (t : Status) : (t.image b).getLsbD 7 = false := by
  simp (disch := omega) only [Status.image, getLsbD_append_of_ge]
  simp only [BitVec.getLsbD_append]
  rfl

/-- Above `STOPCAUSE` the image of `STATUS` is a field of zeros. -/
theorem Status.getLsbD_image_high (b : Bool) (t : Status) {i : Nat} (hi : 14 ≤ i) :
    (t.image b).getLsbD i = false := by
  simp (disch := omega) only [Status.image, getLsbD_append_of_ge, BitVec.getLsbD_zero]

/-- Above `SYNC_EN` the image of `CFG` is a field of zeros. -/
theorem Cfg.getLsbD_image_high (c : Cfg) {i : Nat} (hi : 5 ≤ i) : c.image.getLsbD i = false := by
  simp (disch := omega) only [Cfg.image, getLsbD_append_of_ge, BitVec.getLsbD_zero]

/-! ## The stream of MAP (R54, R56) -/

/-- The payload of BIT as a sequence. -/
def payloadBits (s : State) : List Bool := (List.range s.regs.nbit.toNat).map s.bitAt

/-- The bits MAP maps, without the padding bit: the payload, with the Barker bits in front if enabled. -/
def mapStream (s : State) : List Bool :=
  if s.regs.cfg.syncEn then barker ++ payloadBits s else payloadBits s

theorem length_payloadBits (s : State) : (payloadBits s).length = s.regs.nbit.toNat := by simp [payloadBits]

theorem length_barker : barker.length = 13 := rfl

theorem length_mapStream (s : State) : (mapStream s).length = streamLen s := by
  cases hsync : s.regs.cfg.syncEn <;>
    simp [mapStream, streamLen, syncLen, hsync, length_payloadBits, length_barker]

theorem getD_payloadBits (s : State) (n : Nat) :
    (payloadBits s).getD n false = if n < s.regs.nbit.toNat then s.bitAt n else false := by
  split
  · rename_i hn
    simp [payloadBits, List.getD, hn]
  · rename_i hn
    rw [List.getD_eq_default _ _ (by rw [length_payloadBits]; omega)]

/-- MAP reads its stream bit by bit, and 0 behind its end. -/
theorem streamBit_eq_getD (s : State) (n : Nat) : streamBit s n = (mapStream s).getD n false := by
  cases hsync : s.regs.cfg.syncEn with
  | false =>
    have hlen : syncLen s = 0 := by simp [syncLen, hsync]
    have hstream : mapStream s = payloadBits s := by simp [mapStream, hsync]
    rw [hstream, getD_payloadBits, streamBit, streamLen, hlen, if_neg (Nat.not_lt_zero n), Nat.zero_add, Nat.sub_zero]
  | true =>
    have hlen : syncLen s = 13 := by simp [syncLen, hsync]
    have hstream : mapStream s = barker ++ payloadBits s := by simp [mapStream, hsync]
    rw [hstream, streamBit, streamLen, hlen]
    by_cases hn : n < 13
    · rw [if_pos hn, List.getD_append _ _ _ _ hn]
    · rw [if_neg hn, List.getD_append_right _ _ _ _ (not_lt.1 hn), getD_payloadBits, length_barker]
      exact if_congr (by omega) rfl rfl

theorem symbolCount_eq (s : State) : symbolCount s = ((mapStream s).length + 1) / 2 := by
  rw [length_mapStream]; rfl

theorem mapSymbol_eq (s : State) (k : Nat) : mapSymbol s k = settleCpx s.par.num s.epoch (2 * k)
    (qmap s.par.num s.regs.qamp ((mapStream s).getD (2 * k) false) ((mapStream s).getD (2 * k + 1) false)) := by
  simp only [mapSymbol, streamBit_eq_getD]

theorem capSym_lt {p : Params} (h : p.wf = true) : p.capSym < 2147483648 := by
  simp only [Params.wf, capOk, Bool.and_eq_true, decide_eq_true_eq] at h
  omega

/-- A payload and symbols that fit are mapped. -/
theorem exec_map_of_fits {s : State} (hbits : s.regs.nbit.toNat ≤ s.par.capBit)
    (hsymbols : symbolCount s ≤ s.par.capSym) : exec .map s = .next (complete (mapWrite (accept s)).tick) := by
  obtain ⟨hbad, -⟩ | ⟨-, hbody⟩ := mapBody_cases (accept s)
  · exact absurd hbad (not_or.2 ⟨not_lt.2 hbits, not_lt.2 hsymbols⟩)
  · exact congrArg Host.Outcome.next hbody

theorem cpxAt_mapWrite (s : State) {k : Nat} (hk : k < symbolCount s) :
    (mapWrite s).cpxAt .sym k = mapSymbol s k := by
  have hfill := cpxAt_fillCpx_same s .sym ((List.range (symbolCount s)).map (mapSymbol s)) k
  rw [dif_pos (by simpa using hk)] at hfill
  exact hfill.trans (by simp)

/-! ## The quadrant table (R57) and the reference decision (R96) -/

theorem qmapPart_exact (a : Rat) (b : Bool) : qmapPart .exact (.fin a) b = .fin (if b then -a else a) := by
  cases b <;> simp [qmapPart]

/-- A nonzero amplitude and its negation differ, so a component determines its bit. -/
theorem qmapPart_exact_inj {a : Rat} (ha : a ≠ 0) {b c : Bool}
    (h : qmapPart .exact (.fin a) b = qmapPart .exact (.fin a) c) : b = c := by
  have hneg : -a ≠ a := fun heq => ha (by linarith)
  rw [qmapPart_exact, qmapPart_exact, NumVal.fin.injEq] at h
  cases b with
  | false => cases c with
    | false => rfl
    | true => exact absurd h.symm hneg
  | true => cases c with
    | false => exact absurd h hneg
    | true => rfl

/-- The sign of a positively scaled component of a positive amplitude is its bit. -/
theorem demodBit_scaled {a c : Rat} (ha : 0 < a) (hc : 0 < c) (b : Bool) :
    demodBit (numMul .exact (.fin c) (qmapPart .exact (.fin a) b)) = some b := by
  have hpos : 0 < c * a := mul_pos hc ha
  rw [qmapPart_exact]
  cases b with
  | false => simpa [demodBit] using hpos.le
  | true => simpa [demodBit] using hpos

/-! ## The index selector (R53) -/

/-- The state with `CFG.IDX_SEL` set to `b`. -/
def withIdxSel (b : Bool) (s : State) : State :=
  { s with regs := { s.regs with cfg := { s.regs.cfg with idxSel := b } } }

/-- The detectors do not read `IDX_SEL`. -/
theorem tedSelected_withIdxSel (b : Bool) (s : State) :
    tedSelected (withIdxSel b s) = withIdxSel b (tedSelected s) := by
  have hsel : (withIdxSel b s).regs.cfg.tedSel = s.regs.cfg.tedSel := rfl
  unfold tedSelected
  rw [hsel]
  split <;> rfl

theorem emitIndex_withIdxSel (b : Bool) (s : State) :
    emitIndex (withIdxSel b s) = if b then startIndex s else midIndex s := rfl

/-- An iteration that emits `z`, as STEP ends it with `IDX_SEL` at `b`; `u` is the state the loop filter left. -/
def emitWith (b : Bool) (z : Cpx) (u : State) : State := complete (withIdxSel b (emit z u).tick)

/-- `IDX_SEL` reaches an iteration through the index of the element emitted alone. -/
theorem complete_advance_withIdxSel (b : Bool) (s : State) : complete (advance (withIdxSel b s)) =
    emitWith b (mfAt s (if b then startIndex s else midIndex s)) (lfUpd (tedSelected s)) := by
  simp only [advance, tedSelected_withIdxSel, emitIndex_withIdxSel]
  rfl

@[simp] theorem emitWith_par (b : Bool) (z : Cpx) (u : State) : (emitWith b z u).par = u.par := rfl

theorem cpxAt_emitWith (b : Bool) (z : Cpx) (u : State) :
    (emitWith b z u).cpxAt .out u.regs.nout.toNat = settleCpx u.par.num u.epoch 8 z := by
  show (Buf.get? (Buf.put _ _ _) _).getD _ = _
  rw [get?_put_same, Option.getD_some]

/-- No register but `CFG` shows the selector or the element emitted. -/
theorem emitWith_sameRegs (b b' : Bool) (z z' : Cpx) (u : State) :
    SameRegs [2] (emitWith b z u) (emitWith b' z' u) := by
  intro r hr
  have hcfg : r ≠ 2 := by simpa using hr
  unfold State.readReg
  split
  all_goals first | rfl | exact absurd rfl hcfg

/-- No element but the one emitted shows the selector or the element emitted. -/
theorem emitWith_sameElems (b b' : Bool) (z z' : Cpx) (u : State) :
    SameElems (fun sp n => sp = 6 ∧ n = u.regs.nout.toNat) (emitWith b z u) (emitWith b' z' u) := by
  intro sp n hn
  match sp with
  | 6 =>
    have hother : n ≠ u.regs.nout.toNat := fun h => hn ⟨rfl, h⟩
    have hread (c : Bool) (x : Cpx) : (emitWith c x u).cpxAt .out n = u.cpxAt .out n :=
      congrArg (Option.getD · _) (get?_put_other hother _ _)
    simp only [State.readElem, hread, emitWith_par]
  | 0 | 1 | 2 | 3 | 4 | 5 | 7 | 8 | 9 => rfl
  | _ + 10 => rfl

theorem mfAt_of_nonneg {s : State} {k : Int} (hk : 0 ≤ k) : mfAt s k = s.cpxAt .mf k.toNat := if_pos hk

namespace IterationRuns

variable {s : State}

theorem startIndex_nonneg (h : IterationRuns s) : 0 ≤ startIndex s := by
  obtain ⟨-, -, -, -, -, hstart, -⟩ := h
  exact hstart

theorem midIndex_nonneg (h : IterationRuns s) : 0 ≤ midIndex s := by
  obtain ⟨-, -, -, hnsps, -, hstart, -⟩ := h
  unfold midIndex
  omega

theorem stopTest_eq_none (h : IterationRuns s) : stopTest s = none := by
  obtain ⟨-, -, -, -, hnrx, hstart, hend, hroom⟩ := h
  exact (stopTest_none_iff s).2 ⟨hnrx, hstart, hend, hroom.ne⟩

/-- STEP performs the iteration. -/
theorem exec_step (h : IterationRuns s) : exec .step s = .next (complete (advance (accept s))) := by
  obtain ⟨hinit, hmf, hstop, -⟩ := id h
  have hnone : stopTest (accept s) = none := h.stopTest_eq_none
  have hseq : seqOk (accept s) = true := Bool.and_eq_true_iff.2 ⟨hinit, hmf⟩
  have hbody : stepBody (accept s) = complete (advance (accept s)) := by
    obtain ⟨hbad, -⟩ | ⟨-, hstopped, -⟩ | ⟨-, -, hstep⟩ := stepBody_cases (accept s)
    · exact absurd (hbad.symm.trans hseq) Bool.false_ne_true
    · exact absurd (hstop.symm.trans hstopped) Bool.false_ne_true
    · obtain ⟨c, hsome, -⟩ | ⟨-, hiterate⟩ := iterate_cases (accept s)
      · exact nomatch hnone.symm.trans hsome
      · rw [hstep, hiterate]
  exact congrArg Host.Outcome.next hbody

/-- With either value of `IDX_SEL`, STEP emits its own element into the same state. -/
theorem exec_step_withIdxSel (h : IterationRuns s) (b : Bool) : exec .step (withIdxSel b s) =
    .next (emitWith b (mfAt s (if b then startIndex s else midIndex s)) (lfUpd (tedSelected (accept s)))) := by
  have hruns : IterationRuns (withIdxSel b s) := h
  exact hruns.exec_step.trans (congrArg Host.Outcome.next (complete_advance_withIdxSel b (accept s)))

end IterationRuns

end Sys2Proof.Machine

namespace Sys2Proof.Proofs
open Sys2Proof Sys2Proof.Machine

/-- Settles O2: the fields of a word determine it, and the opcode map names commands alone. -/
theorem everyCommandHasOneWord : Obligations.EveryCommandHasOneWord :=
  fun _ _ h => ⟨encode_of_decode_command h, isCommand_of_decode h⟩

/-- Settles O5: the word is rejected by the decoder, and the engine fails it with or without an entry of `lat`. -/
theorem reservedWordFailsWithErrOpc : Obligations.ReservedWordFailsWithErrOpc := by
  intro s w rest hnext hreserved
  obtain ⟨e, hdecode⟩ := decode_rejected_of_reserved hreserved
  rw [step_of_hostNext_cmd hnext]
  refine ⟨fun hlat => ?_, fun r hlat => ?_⟩
  all_goals
    simp only [issue, hlat, engineRun_of_rejected hdecode]
    exact ⟨_, rfl, failedOnly_rejectWord _⟩

/-- Settles O26: the symbols are those of `mapStream`, whose length the capacity keeps below 2^31. -/
theorem syncEnPutsBarkerInFront : Obligations.SyncEnPutsBarkerInFront := by
  intro s hwf hbits hsymbols payload sync stream
  have hstream : stream = mapStream s := rfl
  have hcap := capSym_lt hwf
  have hcount : (BitVec.ofNat 32 (symbolCount s)).toNat = symbolCount s := toNat_ofNat_of_lt (by omega)
  rw [hstream, exec_map_of_fits hbits hsymbols]
  refine ⟨_, rfl, hcount.trans (symbolCount_eq s), fun k hk => ?_⟩
  have hlt : k < symbolCount s := hk.trans_eq hcount
  exact (cpxAt_mapWrite (accept s) hlt).trans (mapSymbol_eq s k)

/-- Settles O29: component by component. -/
theorem demodInvertsTheQuadrantTable : Obligations.DemodInvertsTheQuadrantTable := by
  refine ⟨fun a b0 b1 c0 c1 ha h => ?_, fun a c b0 b1 ha hc => ?_⟩
  · obtain ⟨hre, him⟩ := Cpx.mk.inj h
    exact ⟨qmapPart_exact_inj ha hre, qmapPart_exact_inj ha him⟩
  · exact Prod.ext (demodBit_scaled ha hc b0) (demodBit_scaled ha hc b1)

/-- Settles O53: both iterations emit into the same state, each its own element of MF. -/
theorem idxSelOnlyPicksTheElement : Obligations.IdxSelOnlyPicksTheElement := by
  intro s hruns with0 with1
  have hmid : mfAt s (midIndex s) = _ := mfAt_of_nonneg hruns.midIndex_nonneg
  have hstart : mfAt s (startIndex s) = _ := mfAt_of_nonneg hruns.startIndex_nonneg
  have hnout : (lfUpd (tedSelected (accept s))).regs.nout = s.regs.nout := by simp [lfUpd]
  have hemitted := fun b z => cpxAt_emitWith b z (lfUpd (tedSelected (accept s)))
  have hframe := fun z z' => emitWith_sameElems false true z z' (lfUpd (tedSelected (accept s)))
  simp only [hnout, lfUpd_par, lfUpd_epoch, tedSelected_par, tedSelected_epoch] at hemitted hframe
  refine ⟨_, hruns.exec_step_withIdxSel false, _, hruns.exec_step_withIdxSel true, ?_, ?_,
    emitWith_sameRegs _ _ _ _ _, hframe _ _⟩
  · rw [← hmid]; exact hemitted _ _
  · rw [← hstart]; exact hemitted _ _

/-- Settles O1: by the row each instruction has in the opcode table. -/
theorem decodeOfEncode : Obligations.DecodeOfEncode := by
  intro i _
  obtain ⟨-, hdecode, -⟩ := coded i
  exact hdecode

/-- Settles O3: the decoder evaluates on the seven closed words. -/
theorem tableWordsDecode : Obligations.TableWordsDecode := by
  unfold Obligations.TableWordsDecode
  decide

/-- Settles O15: the images have zeros in the reserved bits, a write to `CFG` drops them, and one to `STATUS` is
ignored. -/
theorem reservedBitsReadZeroAndIgnoreWrites : Obligations.ReservedBitsReadZeroAndIgnoreWrites := by
  refine ⟨fun s w h => ?status, fun s w h b hb => ?cfg, fun s w rest h => ?writeCfg, fun s w rest h => ?writeStatus⟩
  case status =>
    obtain rfl := PortVal.word.inj h
    exact ⟨Status.getLsbD_image_seven _ _, fun b => Status.getLsbD_image_high _ _⟩
  case cfg =>
    obtain rfl := PortVal.word.inj h
    exact Cfg.getLsbD_image_high _ hb
  case writeCfg =>
    obtain ⟨t, hstep, hwrite⟩ := step_writes_word h (.inl rfl)
    exact ⟨t, hstep, hwrite.readReg_word⟩
  case writeStatus =>
    exact ⟨_, (step_of_hostNext h (by simp)).trans (hostAccess_readOnly (.inl rfl) _ _), rfl⟩

end Sys2Proof.Proofs
end

section
/-! PROOFS. The symbol mapper (40_mapper.md R63, R64): the two outcomes of MAP with their frames, the stream as the
packet of the payload (46_environment.md R91), the four points under `NUM = EXACT`, and what the symbols depend on. -/

namespace Sys2Proof.Machine

/-! ## The two ways MAP ends (R63, R100) -/

theorem failedOnly_fail_accept (c : ErrCode) (s : State) : FailedOnly c s (fail c (accept s)) :=
  ⟨rfl, rfl, sameRegs_status _ rfl, sameElems_of_eq _ rfl rfl rfl, rfl, rfl, rfl, rfl, rfl⟩

theorem exec_map_of_not_fits {s : State} (h : s.par.capBit < s.regs.nbit.toNat ∨ s.par.capSym < symbolCount s) :
    exec .map s = .next (fail .cap (accept s)) := by
  obtain ⟨-, hbody⟩ | ⟨⟨hbits, hsymbols⟩, -⟩ := mapBody_cases (accept s)
  · exact congrArg Host.Outcome.next hbody
  · exact absurd h (not_or.2 ⟨not_lt.2 hbits, not_lt.2 hsymbols⟩)

/-- A MAP that ends without an error found its payload and its symbols to fit, and wrote. -/
theorem exec_map_succeeded {s t : State} (h : exec .map s = .next t) (herr : t.regs.status.err = false) :
    (s.regs.nbit.toNat ≤ s.par.capBit ∧ symbolCount s ≤ s.par.capSym) ∧ t = complete (mapWrite (accept s)).tick := by
  by_cases hbad : s.par.capBit < s.regs.nbit.toNat ∨ s.par.capSym < symbolCount s
  · rw [exec_map_of_not_fits hbad] at h
    cases h
    exact nomatch herr
  · obtain ⟨hbits, hsymbols⟩ := not_or.1 hbad
    rw [exec_map_of_fits (not_lt.1 hbits) (not_lt.1 hsymbols)] at h
    cases h
    exact ⟨⟨not_lt.1 hbits, not_lt.1 hsymbols⟩, rfl⟩

/-! ## What a completed MAP leaves (R63) -/

/-- With no register changed but `STATUS` and `NSYM`, every other register reads as before. -/
theorem sameRegs_nsym {s t : State} {st : Status} {nsym : Word}
    (h : t.regs = { s.regs with status := st, nsym := nsym }) : SameRegs [1, 15] s t := by
  intro r hr
  simp only [List.mem_cons, List.not_mem_nil, or_false, not_or] at hr
  unfold State.readReg
  rw [h]
  split
  all_goals first | rfl | omega

theorem mapWrite_sameElems (s : State) : SameElems (firstOf 1 (symbolCount s)) s (mapWrite s) := by
  have hfill := readElem_fillCpx s .sym ((List.range (symbolCount s)).map (mapSymbol s))
  rw [List.length_map, List.length_range] at hfill
  exact hfill.trans (sameElems_of_eq _ rfl rfl rfl)

/-- `NSYM` holds the number of symbols, which the capacity keeps below 2^31. -/
theorem toNat_symbolCount {s : State} (hwf : s.par.wf = true) (hsymbols : symbolCount s ≤ s.par.capSym) :
    (BitVec.ofNat 32 (symbolCount s)).toNat = symbolCount s :=
  toNat_ofNat_of_lt (by have hcap := capSym_lt hwf; omega)

theorem cpxAt_map_completed {s : State} {k : Nat} (hk : k < symbolCount s) :
    (complete (mapWrite (accept s)).tick).cpxAt .sym k = mapSymbol s k :=
  cpxAt_mapWrite (accept s) hk

theorem map_completed_sameElems (s : State) :
    SameElems (firstOf 1 (symbolCount s)) s (complete (mapWrite (accept s)).tick) :=
  have haccept : SameElems (firstOf 1 (symbolCount s)) s (accept s) := sameElems_of_eq _ rfl rfl rfl
  have hwrite : SameElems (firstOf 1 (symbolCount s)) (accept s) (mapWrite (accept s)) :=
    mapWrite_sameElems (accept s)
  (haccept.trans hwrite).trans (sameElems_of_eq _ rfl rfl rfl)

/-! ## The stream as a packet (R91) -/

/-- The bits of a sequence in whole pairs, 0 behind its end, are the sequence padded to an even length. -/
theorem map_getD_pairs (l : List Bool) :
    (List.range (2 * ((l.length + 1) / 2))).map (l.getD · false) = padEven l := by
  have hself : (List.range l.length).map (l.getD · false) = l :=
    List.ext_getElem (by simp) fun n _ hn => by simp [List.getD, hn]
  unfold padEven
  split
  · rename_i hodd
    have hlen : 2 * ((l.length + 1) / 2) = l.length + 1 := by omega
    rw [hlen, List.range_succ, List.map_append, hself, List.map_singleton, List.getD_eq_default _ _ le_rfl]
  · rename_i heven
    have hlen : 2 * ((l.length + 1) / 2) = l.length := by omega
    rw [hlen, hself]

theorem packetize_payloadBits (s : State) : packetize (payloadBits s) s.regs.cfg.syncEn = padEven (mapStream s) := by
  unfold packetize mapStream
  cases s.regs.cfg.syncEn <;> rfl

/-! ## What the symbols depend on (R64) -/

/-- A component of a finite amplitude is finite, so it is stored as it is. -/
theorem settle_qmapPart (y : NumSys) (e k : Nat) {a : NumVal} (ha : IsFin a) (b : Bool) :
    settle y e k (qmapPart y a b) = qmapPart y a b := by
  obtain ⟨q, rfl⟩ := ha
  cases b with
  | false => rfl
  | true =>
    by_cases hq : q = 0
    · cases y <;> simp [qmapPart, numNeg, hq, settle]
    · simp [qmapPart, numNeg, hq]

theorem mapSymbol_of_isFin {s : State} (hqamp : IsFin s.regs.qamp) (k : Nat) :
    mapSymbol s k = qmap s.par.num s.regs.qamp (streamBit s (2 * k)) (streamBit s (2 * k + 1)) := by
  simp only [mapSymbol, settleCpx, qmap, settle_qmapPart _ _ _ hqamp]

/-- Under `NUM = EXACT` each component is `QAMP` with the sign its bit gives. -/
theorem mapSymbol_exact {s : State} {a : Rat} (hnum : s.par.num = .exact) (hqamp : s.regs.qamp = .fin a) (k : Nat) :
    mapSymbol s k = ⟨.fin (if streamBit s (2 * k) then -a else a),
      .fin (if streamBit s (2 * k + 1) then -a else a)⟩ := by
  rw [mapSymbol_of_isFin ⟨a, hqamp⟩, hnum, hqamp, qmap, qmapPart_exact, qmapPart_exact]

/-- The sign of a component does not show in its square. -/
theorem sq_signed (a : Rat) (b : Bool) : (if b then -a else a) * (if b then -a else a) = a * a := by
  cases b with
  | false => rfl
  | true => exact neg_mul_neg a a

theorem mapStream_congr {s s' : State} (hsync : s.regs.cfg.syncEn = s'.regs.cfg.syncEn)
    (hnbit : s.regs.nbit = s'.regs.nbit) (hbits : ∀ n, n < s.regs.nbit.toNat → s.bitAt n = s'.bitAt n) :
    mapStream s = mapStream s' := by
  have hpayload : payloadBits s = payloadBits s' := by
    rw [payloadBits, payloadBits, ← hnbit]
    exact List.map_congr_left fun n hn => hbits n (List.mem_range.1 hn)
  rw [mapStream, mapStream, hsync, hpayload]

theorem symbolCount_congr {s s' : State} (h : mapStream s = mapStream s') : symbolCount s = symbolCount s' := by
  rw [symbolCount_eq, symbolCount_eq, h]

/-- A finite amplitude leaves no free value, which would tell the computations of two states apart. -/
theorem mapSymbol_congr {s s' : State} (hpar : s.par = s'.par) (hqamp : s.regs.qamp = s'.regs.qamp)
    (hfin : IsFin s.regs.qamp) (hstream : mapStream s = mapStream s') (k : Nat) : mapSymbol s k = mapSymbol s' k := by
  rw [mapSymbol_of_isFin hfin, mapSymbol_of_isFin (hqamp ▸ hfin), hpar, hqamp]
  simp only [streamBit_eq_getD, hstream]

end Sys2Proof.Machine

namespace Sys2Proof.Proofs
open Sys2Proof Sys2Proof.Machine

/-- Settles O24: the symbols are those of `mapSymbol`, and the fill of SYM and the write of `NSYM` have their own
frames. -/
theorem mapWritesThePointsOfItsStream : Obligations.MapWritesThePointsOfItsStream := by
  intro s hwf hbits hsymbols
  have hcount := toNat_symbolCount hwf hsymbols
  have helems := map_completed_sameElems s
  rw [← hcount] at helems
  exact ⟨_, exec_map_of_fits hbits hsymbols, hcount, fun k hk => cpxAt_map_completed (hk.trans_eq hcount), rfl, rfl,
    sameRegs_nsym rfl, helems, rfl, rfl, rfl, rfl, rfl⟩

/-- Settles O27: the stream read pair by pair is `mapStream` padded. -/
theorem mapStreamIsThePacket : Obligations.MapStreamIsThePacket := by
  intro s
  calc (List.range (2 * symbolCount s)).map (streamBit s)
      = (List.range (2 * (((mapStream s).length + 1) / 2))).map ((mapStream s).getD · false) := by
        rw [symbolCount_eq]
        exact List.map_congr_left fun n _ => streamBit_eq_getD s n
    _ = padEven (mapStream s) := map_getD_pairs _
    _ = packetize (payloadBits s) s.regs.cfg.syncEn := (packetize_payloadBits s).symm

/-- Settles O28: the parts are those of `mapSymbol_exact`, whose squares do not depend on the bits. -/
theorem mapStaysOnTheAlphabet : Obligations.MapStaysOnTheAlphabet := by
  intro s a _ hnum hqamp hbits hsymbols
  refine ⟨_, exec_map_of_fits hbits hsymbols, fun k hk => ?_⟩
  refine ⟨_, _, (cpxAt_map_completed hk).trans (mapSymbol_exact hnum hqamp k), ?_, rfl, rfl⟩
  rw [sq_signed, sq_signed, two_mul]

/-- Settles O30: both states have the same stream, so the second MAP fits where the first did and maps the same
pairs. -/
theorem mapIsAPureFunction : Obligations.MapIsAPureFunction := by
  intro s s' t t' hpar hsync hnbit hqamp hfin hbits hexec hexec' herr
  have hstream := mapStream_congr hsync hnbit hbits
  have hcount := symbolCount_congr hstream
  obtain ⟨⟨hfitBits, hfitSymbols⟩, rfl⟩ := exec_map_succeeded hexec herr
  rw [hnbit, hpar] at hfitBits
  rw [hcount, hpar] at hfitSymbols
  rw [exec_map_of_fits hfitBits hfitSymbols] at hexec'
  cases hexec'
  refine ⟨rfl, congrArg (BitVec.ofNat 32) hcount, fun k hk => ?_⟩
  rw [cpxAt_map_completed hk, cpxAt_map_completed (hcount ▸ hk)]
  exact mapSymbol_congr hpar hqamp hfin hstream k

/-- Settles O25: the failed test ends MAP right after its acceptance. -/
theorem mapFailsWhenItDoesNotFit : Obligations.MapFailsWhenItDoesNotFit :=
  fun s h => ⟨_, exec_map_of_not_fits h, failedOnly_fail_accept .cap s⟩

end Sys2Proof.Proofs
end

section
/-! PROOFS. The pulse shaper (41_pulse_shaper.md R65 to R68): the three outcomes of UPS and of SHAPE with their frames,
the rectangular pulse train the two make of the symbols, and the linearity of the boxcar. -/

namespace Sys2Proof.Machine

/-! ## The three ways UPS and SHAPE end (R66, R67, R102) -/

/-- The state UPS ends in when its output fits. -/
def upsDone (s : State) : State := complete (upsWrite (accept s)).tick

/-- The state SHAPE ends in when its output fits. -/
def shapeDone (s : State) : State := complete (shapeWrite (accept s)).tick

theorem not_nspsBad {s : State} (h : 0 < s.regs.nsps.toInt) : ¬ nspsBad s = true :=
  fun hbad => absurd ((nspsBad_iff s).1 hbad) (not_le.2 h)

section
variable {s : State}

theorem exec_ups_of_nsps (h : s.regs.nsps.toInt ≤ 0) : exec .ups s = .next (fail .nsps (accept s)) :=
  congrArg Host.Outcome.next (if_pos ((nspsBad_iff (accept s)).2 h))

theorem exec_ups_of_cap (h : 0 < s.regs.nsps.toInt) (hcap : s.par.capUp < upsLen s) :
    exec .ups s = .next (fail .cap (accept s)) :=
  congrArg Host.Outcome.next ((if_neg (not_nspsBad (s := accept s) h)).trans (if_pos hcap))

theorem exec_ups_of_fits (h : 0 < s.regs.nsps.toInt) (hfit : upsLen s ≤ s.par.capUp) :
    exec .ups s = .next (upsDone s) :=
  congrArg Host.Outcome.next ((if_neg (not_nspsBad (s := accept s) h)).trans (if_neg (not_lt.2 hfit)))

theorem exec_shape_of_nsps (h : s.regs.nsps.toInt ≤ 0) : exec .shape s = .next (fail .nsps (accept s)) :=
  congrArg Host.Outcome.next (if_pos ((nspsBad_iff (accept s)).2 h))

theorem exec_shape_of_cap (h : 0 < s.regs.nsps.toInt) (hcap : s.par.capPul < shapeLen s) :
    exec .shape s = .next (fail .cap (accept s)) :=
  congrArg Host.Outcome.next ((if_neg (not_nspsBad (s := accept s) h)).trans (if_pos hcap))

theorem exec_shape_of_fits (h : 0 < s.regs.nsps.toInt) (hfit : shapeLen s ≤ s.par.capPul) :
    exec .shape s = .next (shapeDone s) :=
  congrArg Host.Outcome.next ((if_neg (not_nspsBad (s := accept s) h)).trans (if_neg (not_lt.2 hfit)))

end

/-! ## What a command that fills a buffer leaves -/

/-- A frame with a longer list of exceptions, where the surplus registers read as before. -/
theorem SameRegs.narrow {xs ys : List Nat} {s t : State} (h : SameRegs xs s t)
    (hsurplus : ∀ r ∈ xs, r ∉ ys → t.readReg r = s.readReg r) : SameRegs ys s t := by
  intro r hr
  by_cases hx : r ∈ xs
  · exact hsurplus r hx hr
  · exact h r hx

/-- The memory of `t` is that of `s` with `vs` written to `c`, and elements nothing has written read alike. -/
structure Filled (c : CBuf) (vs : List Cpx) (s t : State) : Prop where
  par : t.par = s.par
  mem : t.mem = (s.fillCpx c vs).mem
  era : t.era = s.era

namespace Filled
variable {c : CBuf} {vs : List Cpx} {s t : State}

theorem cpxAt_eq (h : Filled c vs s t) {n : Nat} (hn : n < vs.length) : t.cpxAt c n = vs[n] :=
  calc t.cpxAt c n = (s.fillCpx c vs).cpxAt c n := cpxAt_congr (s := s.fillCpx c vs) h.par h.mem h.era c n
    _ = vs[n] := (cpxAt_fillCpx_same s c vs n).trans (dif_pos hn)

theorem sameElems (h : Filled c vs s t) {len : Nat} (hlen : vs.length = len) :
    SameElems (firstOf c.space len) s t :=
  hlen ▸ (readElem_fillCpx s c vs).trans (sameElems_of_eq (s := s.fillCpx c vs) _ h.par h.mem h.era)

end Filled

theorem capUp_lt {p : Params} (h : p.wf = true) : p.capUp < 2147483648 := by
  simp only [Params.wf, capOk, Bool.and_eq_true, decide_eq_true_eq] at h
  omega

theorem capPul_lt {p : Params} (h : p.wf = true) : p.capPul < 2147483648 := by
  simp only [Params.wf, capOk, Bool.and_eq_true, decide_eq_true_eq] at h
  omega

/-! ## What a completed UPS leaves (R66) -/

theorem upsDone_filled (s : State) : Filled .up ((List.range (upsLen s)).map (upsElem s)) s (upsDone s) :=
  ⟨rfl, rfl, rfl⟩

theorem cpxAt_upsDone {s : State} {n : Nat} (hn : n < upsLen s) : (upsDone s).cpxAt .up n = upsElem s n :=
  ((upsDone_filled s).cpxAt_eq (by simpa using hn)).trans (by simp)

theorem upsDone_sameElems (s : State) : SameElems (firstOf 2 (upsLen s)) s (upsDone s) :=
  (upsDone_filled s).sameElems (by simp)

theorem upsDone_sameRegs (s : State) : SameRegs [1, 16] s (upsDone s) :=
  have hlengths : SameRegs [1, 15, 16, 17, 18] s (upsDone s) := sameRegs_lengths rfl
  hlengths.narrow (by simp [State.readReg, upsDone])

theorem toNat_nup_upsDone {s : State} (hwf : s.par.wf = true) (hfit : upsLen s ≤ s.par.capUp) :
    (upsDone s).regs.nup.toNat = upsLen s :=
  toNat_ofNat_of_lt (hfit.trans_lt ((capUp_lt hwf).trans (by decide)))

/-- Element `r` of the run of symbol `k` lies within the output. -/
theorem index_lt_upsLen {s : State} {k r : Nat} (hk : k < s.regs.nsym.toNat) (hr : r < nspsNat s) :
    k * nspsNat s + r < upsLen s :=
  calc k * nspsNat s + r < (k + 1) * nspsNat s := by rw [Nat.succ_mul]; omega
    _ ≤ upsLen s := Nat.mul_le_mul_right _ hk

theorem upsElem_symbol {s : State} (h : 0 < nspsNat s) (k : Nat) : upsElem s (k * nspsNat s) =
    settleCpx s.par.num s.epoch (2 * (k * nspsNat s)) (s.cpxAt .sym k) := by
  rw [upsElem, if_pos (Nat.mul_mod_left k _), Nat.mul_div_cancel k h]

theorem upsElem_stuffed {s : State} {r : Nat} (hpos : 1 ≤ r) (hr : r < nspsNat s) (k : Nat) :
    upsElem s (k * nspsNat s + r) = Cpx.zero := by
  rw [upsElem, if_neg]
  rw [Nat.mul_add_mod_self_right, Nat.mod_eq_of_lt hr]
  omega

/-! ## What a completed SHAPE leaves (R65, R67) -/

theorem shapeDone_filled (s : State) : Filled .pul (boxOut s .up s.regs.nup.toNat) s (shapeDone s) :=
  ⟨rfl, rfl, rfl⟩

theorem cpxAt_shapeDone {s : State} {n : Nat} (hn : n < shapeLen s) : (shapeDone s).cpxAt .pul n =
    settleCpx s.par.num s.epoch (2 * n) (windowSum s .up s.regs.nup.toNat n) := by
  have hlen : n < (boxOut s .up s.regs.nup.toNat).length := (length_boxOut ..).symm ▸ hn
  rw [(shapeDone_filled s).cpxAt_eq hlen, getElem_boxOut, boxAt_live]

theorem shapeDone_sameElems (s : State) : SameElems (firstOf 3 (shapeLen s)) s (shapeDone s) :=
  (shapeDone_filled s).sameElems (length_boxOut ..)

theorem shapeDone_sameRegs (s : State) : SameRegs [1, 17] s (shapeDone s) :=
  have hlengths : SameRegs [1, 15, 16, 17, 18] s (shapeDone s) := sameRegs_lengths rfl
  hlengths.narrow (by simp [State.readReg, shapeDone])

theorem toNat_npul_shapeDone {s : State} (hwf : s.par.wf = true) (hfit : shapeLen s ≤ s.par.capPul) :
    (shapeDone s).regs.npul.toNat = shapeLen s :=
  toNat_ofNat_of_lt (hfit.trans_lt ((capPul_lt hwf).trans (by decide)))

/-! ## The window over stuffed symbols (R68) -/

/-- A sum of which one term alone is not zero is that term. -/
theorem numSum_exact_single {f : Nat → NumVal} {n m : Nat} (hm : m < n) (hfin : IsFin (f m))
    (hzero : ∀ j, j < n → j ≠ m → f j = .fin 0) : numSum .exact n f = f m := by
  obtain ⟨q, hq⟩ := hfin
  have hf : ∀ j, j < n → f j = .fin (if j = m then q else 0) := fun j hj => by
    split
    · rename_i h; rw [h, hq]
    · rename_i h; exact hzero j hj h
  rw [numSum_congr hf, numSum_exact, Finset.sum_ite_eq', if_pos (Finset.mem_range.2 hm), hq]

/-- A window of which one term alone is not zero has that term as its sum. -/
theorem windowSum_single {s : State} {c : CBuf} {len n m : Nat} (hnum : s.par.num = .exact) (hm : m < nspsNat s)
    (hfin : CpxFin (windowTerm s c len n m))
    (hzero : ∀ j, j < nspsNat s → j ≠ m → windowTerm s c len n j = Cpx.zero) :
    windowSum s c len n = windowTerm s c len n m := by
  obtain ⟨hre, him⟩ := hfin
  rw [windowSum, hnum, numSum_exact_single hm hre fun j hj hne => congrArg Cpx.re (hzero j hj hne),
    numSum_exact_single hm him fun j hj hne => congrArg Cpx.im (hzero j hj hne)]

/-- The first `len` elements of `c` are the values `x` at the multiples of `NSPS`, with zeros between. -/
def Stuffed (s : State) (c : CBuf) (len : Nat) (x : Nat → Cpx) : Prop :=
  ∀ i, i < len → s.cpxAt c i = if i % nspsNat s = 0 then x (i / nspsNat s) else Cpx.zero

namespace Stuffed
variable {s : State} {c : CBuf} {count n : Nat} {x : Nat → Cpx}

/-- The window that ends at `n` meets a multiple of `NSPS` at offset `n % NSPS` and nowhere else. -/
theorem windowTerm_other {len : Nat} (h : Stuffed s c len x) {j : Nat} (hj : j < nspsNat s)
    (hne : j ≠ n % nspsNat s) : windowTerm s c len n j = Cpx.zero := by
  unfold windowTerm
  split
  · rename_i hin
    obtain ⟨hjn, hlen⟩ := hin
    rw [h _ hlen, if_neg]
    intro hmultiple
    obtain ⟨q, hq⟩ := Nat.dvd_of_mod_eq_zero hmultiple
    apply hne
    calc j = j % nspsNat s := (Nat.mod_eq_of_lt hj).symm
      _ = (j + nspsNat s * q) % nspsNat s := (Nat.add_mul_mod_self_left ..).symm
      _ = n % nspsNat s := by rw [← hq, Nat.add_sub_cancel' hjn]
  · rfl

/-- At that offset the window meets the value whose run holds `n`, or is past the last one. -/
theorem windowTerm_mod (h : Stuffed s c (count * nspsNat s) x) (hpos : 0 < nspsNat s) :
    windowTerm s c (count * nspsNat s) n (n % nspsNat s) =
      if n < count * nspsNat s then x (n / nspsNat s) else Cpx.zero := by
  have hstart : n - n % nspsNat s = n / nspsNat s * nspsNat s := by
    rw [Nat.div_mul_self_eq_mod_sub_self]
  have hlive : n / nspsNat s * nspsNat s < count * nspsNat s ↔ n < count * nspsNat s := by
    rw [Nat.mul_lt_mul_right hpos, Nat.div_lt_iff_lt_mul hpos]
  simp only [windowTerm, Nat.mod_le, true_and, hstart, hlive]
  split
  · rename_i hn
    rw [h _ (hlive.2 hn), if_pos (Nat.mul_mod_left _ _), Nat.mul_div_cancel _ hpos]
  · rfl

/-- Each window sum repeats the value whose run holds `n`, and is zero behind the last run. -/
theorem windowSum_eq (h : Stuffed s c (count * nspsNat s) x) (hnum : s.par.num = .exact) (hpos : 0 < nspsNat s)
    (hfin : ∀ k, k < count → CpxFin (x k)) :
    windowSum s c (count * nspsNat s) n = if n < count * nspsNat s then x (n / nspsNat s) else Cpx.zero := by
  have hterm := h.windowTerm_mod (n := n) hpos
  have htermFin : CpxFin (windowTerm s c (count * nspsNat s) n (n % nspsNat s)) := by
    rw [hterm]
    split
    · rename_i hn; exact hfin _ ((Nat.div_lt_iff_lt_mul hpos).2 hn)
    · exact cpxFin_zero
  rw [windowSum_single hnum (Nat.mod_lt n hpos) htermFin fun j => h.windowTerm_other, hterm]

end Stuffed

/-- UPS stores finite symbols as they are. -/
theorem stuffed_upsDone {s : State} (hpos : 0 < nspsNat s)
    (hfin : ∀ k, k < s.regs.nsym.toNat → CpxFin (s.cpxAt .sym k)) :
    Stuffed (upsDone s) .up (upsLen s) (s.cpxAt .sym) := by
  intro i hi
  have hsym := hfin _ ((Nat.div_lt_iff_lt_mul hpos).2 hi)
  rw [cpxAt_upsDone hi, upsElem, hsym.settleCpx_eq]
  rfl

theorem shapeLen_upsDone {s : State} (hwf : s.par.wf = true) (hfit : upsLen s ≤ s.par.capUp) :
    shapeLen (upsDone s) = upsLen s + nspsNat s - 1 :=
  congrArg (boxLen · (nspsNat s)) (toNat_nup_upsDone hwf hfit)

/-- SHAPE after UPS repeats each symbol over its run, and ends in zeros. -/
theorem cpxAt_shapeDone_upsDone {s : State} (hwf : s.par.wf = true) (hnum : s.par.num = .exact)
    (hpos : 0 < nspsNat s) (hfit : upsLen s ≤ s.par.capUp)
    (hfin : ∀ k, k < s.regs.nsym.toNat → CpxFin (s.cpxAt .sym k)) {n : Nat} (hn : n < shapeLen (upsDone s)) :
    (shapeDone (upsDone s)).cpxAt .pul n =
      if n < upsLen s then s.cpxAt .sym (n / nspsNat s) else Cpx.zero := by
  have hwindow : windowSum (upsDone s) .up (upsLen s) n =
      if n < upsLen s then s.cpxAt .sym (n / nspsNat s) else Cpx.zero :=
    (stuffed_upsDone hpos hfin).windowSum_eq (count := s.regs.nsym.toNat) hnum hpos hfin
  rw [cpxAt_shapeDone hn, toNat_nup_upsDone hwf hfit, hwindow]
  split
  · rename_i hlive
    exact (hfin _ ((Nat.div_lt_iff_lt_mul hpos).2 hlive)).settleCpx_eq _ _ _
  · rfl

theorem runChain_cons {i : Instr} {r : List Instr} {s t : State} (h : exec i s = .next t)
    (herr : t.regs.status.err = false) : runChain (i :: r) s = runChain r t := by
  simp [runChain, h, herr]

/-! ## The boxcar over the complex rationals (R68) -/

theorem CpxFin.exists_cpxRat {z : Cpx} (hz : CpxFin z) : ∃ p, z = cpxRat p := by
  obtain ⟨re, im⟩ := z
  obtain ⟨⟨p, rfl⟩, ⟨q, rfl⟩⟩ := hz
  exact ⟨(p, q), rfl⟩

/-- The product of two complex rationals, as R11 defines it. -/
def mulRat (a z : Rat × Rat) : Rat × Rat := (a.1 * z.1 - a.2 * z.2, a.1 * z.2 + a.2 * z.1)

theorem cpxMul_cpxRat (a z : Rat × Rat) : cpxMul .exact (cpxRat a) (cpxRat z) = cpxRat (mulRat a z) := by
  simp [cpxMul, cpxRat, mulRat]

theorem cpxAdd_cpxRat (a z : Rat × Rat) : cpxAdd .exact (cpxRat a) (cpxRat z) = cpxRat (a + z) := rfl

theorem mulRat_sum (a : Rat × Rat) (n : Nat) (u : Nat → Rat × Rat) :
    mulRat a (∑ j ∈ Finset.range n, u j) = ∑ j ∈ Finset.range n, mulRat a (u j) := by
  ext
  · simp [mulRat, Prod.fst_sum, Prod.snd_sum, Finset.mul_sum, Finset.sum_sub_distrib]
  · simp [mulRat, Prod.fst_sum, Prod.snd_sum, Finset.mul_sum, Finset.sum_add_distrib]

/-- An output of the convolution of rationals is the sum of the window. -/
theorem boxAt_cpxRat {x : List Cpx} {n : Nat} {u : Nat → Rat × Rat} (hx : ∀ j : Nat, xz x (n - j) = cpxRat (u j))
    (width : Nat) : boxAt .exact x width n = cpxRat (∑ j ∈ Finset.range width, u j) := by
  simp only [boxAt, hx, cpxRat, numSum_exact, Prod.fst_sum, Prod.snd_sum]

/-- An operation element by element reaches past the ends too, when it keeps zeros. -/
theorem xz_zipWith {f : Cpx → Cpx → Cpx} (hf : f Cpx.zero Cpx.zero = Cpx.zero) {x y : List Cpx}
    (hlen : x.length = y.length) (m : Int) : xz (List.zipWith f x y) m = f (xz x m) (xz y m) := by
  unfold xz
  split
  · by_cases hm : m.toNat < x.length
    · have hm' : m.toNat < y.length := hlen ▸ hm
      simp [List.getD, hm, hm']
    · have hm' : ¬ m.toNat < y.length := hlen ▸ hm
      simp [List.getD, hm, hm', hf]
  · exact hf.symm

theorem xz_replicate_zero (len : Nat) (m : Int) : xz (List.replicate len Cpx.zero) m = Cpx.zero := by
  unfold xz
  split
  · rw [List.getD_eq_getElem?_getD, List.getElem?_replicate]
    split <;> rfl
  · rfl

/-- `a·u + b·v`. -/
def combine (a b u v : Cpx) : Cpx := cpxAdd .exact (cpxMul .exact a u) (cpxMul .exact b v)

theorem combine_cpxRat (a b u v : Rat × Rat) :
    combine (cpxRat a) (cpxRat b) (cpxRat u) (cpxRat v) = cpxRat (mulRat a u + mulRat b v) := by
  rw [combine, cpxMul_cpxRat, cpxMul_cpxRat, cpxAdd_cpxRat]

theorem combine_zero (a b : Rat × Rat) : combine (cpxRat a) (cpxRat b) Cpx.zero Cpx.zero = Cpx.zero :=
  (combine_cpxRat a b 0 0).trans (by simp [mulRat, cpxRat, Cpx.zero])

/-- The boxcar of a combination is the combination of the boxcars. -/
theorem boxAt_combine (a b : Rat × Rat) {x y : List Cpx} (hlen : x.length = y.length)
    (hx : ∀ z ∈ x, CpxFin z) (hy : ∀ z ∈ y, CpxFin z) (width n : Nat) :
    boxAt .exact (List.zipWith (combine (cpxRat a) (cpxRat b)) x y) width n =
      combine (cpxRat a) (cpxRat b) (boxAt .exact x width n) (boxAt .exact y width n) := by
  choose u hu using fun j : Nat => (cpxFin_xz hx ((n : Int) - j)).exists_cpxRat
  choose v hv using fun j : Nat => (cpxFin_xz hy ((n : Int) - j)).exists_cpxRat
  have hmix (j : Nat) : xz (List.zipWith (combine (cpxRat a) (cpxRat b)) x y) (n - j) =
      cpxRat (mulRat a (u j) + mulRat b (v j)) := by
    rw [xz_zipWith (combine_zero a b) hlen, hu, hv, combine_cpxRat]
  rw [boxAt_cpxRat hmix, boxAt_cpxRat hu, boxAt_cpxRat hv, combine_cpxRat, mulRat_sum, mulRat_sum,
    Finset.sum_add_distrib]

end Sys2Proof.Machine

namespace Sys2Proof.Proofs
open Sys2Proof Sys2Proof.Machine

/-- Settles O31: the elements are those of `upsElem`, and the fill of UP and the write of `NUP` have their own
frames. -/
theorem upsStuffsZeros : Obligations.UpsStuffsZeros := by
  intro s hwf hnsps hfit
  have hpos := nspsNat_pos hnsps
  have hnup := toNat_nup_upsDone hwf hfit
  have helems := upsDone_sameElems s
  rw [← hnup] at helems
  refine ⟨upsDone s, exec_ups_of_fits hnsps hfit, hnup, fun k hk => ?symbol, fun k r hk hr hlt => ?zero, rfl, rfl,
    upsDone_sameRegs s, helems, rfl, rfl, rfl, rfl, rfl⟩
  case symbol => exact (cpxAt_upsDone (index_lt_upsLen hk hpos)).trans (upsElem_symbol hpos k)
  case zero => exact (cpxAt_upsDone (index_lt_upsLen hk hlt)).trans (upsElem_stuffed hr hlt k)

/-- Settles O32: the elements are the window sums, and the fill of PUL and the write of `NPUL` have their own
frames. -/
theorem shapeConvolvesWithTheBoxcar : Obligations.ShapeConvolvesWithTheBoxcar := by
  intro s hwf hnsps hfit
  have hnpul := toNat_npul_shapeDone hwf hfit
  have helems := shapeDone_sameElems s
  rw [← hnpul] at helems
  exact ⟨shapeDone s, exec_shape_of_fits hnsps hfit, hnpul, fun n hn => cpxAt_shapeDone (hn.trans_eq hnpul), rfl, rfl,
    shapeDone_sameRegs s, helems, rfl, rfl, rfl, rfl, rfl⟩

/-- Settles O34: UPS leaves a stuffed buffer, of which each window of SHAPE meets one symbol or none. -/
theorem shaperGivesARectangularPulseTrain : Obligations.ShaperGivesARectangularPulseTrain := by
  intro s hwf hnum hnsps hfitUp hfitPul hfin
  have hpos := nspsNat_pos hnsps
  have hlen : shapeLen (upsDone s) = upsLen s + nspsNat s - 1 := shapeLen_upsDone hwf hfitUp
  have hfit : shapeLen (upsDone s) ≤ (upsDone s).par.capPul := hlen.trans_le hfitPul
  have hnpul : (shapeDone (upsDone s)).regs.npul.toNat = shapeLen (upsDone s) :=
    toNat_npul_shapeDone (s := upsDone s) hwf hfit
  have hrun : runChain [.ups, .shape] s = .next (shapeDone (upsDone s)) :=
    calc runChain [.ups, .shape] s = runChain [.shape] (upsDone s) := runChain_cons (exec_ups_of_fits hnsps hfitUp) rfl
      _ = runChain [] (shapeDone (upsDone s)) := runChain_cons (exec_shape_of_fits hnsps hfit) rfl
  have hpul {n : Nat} := cpxAt_shapeDone_upsDone hwf hnum hpos hfitUp hfin (n := n)
  refine ⟨_, hrun, rfl, hnpul.trans hlen, fun n hn => ?train, fun n hge hlt => ?tail⟩
  case train =>
    have hlive : n < upsLen s := hn
    exact (hpul (by omega)).trans (if_pos hlive)
  case tail => exact (hpul (hlt.trans_eq hnpul)).trans (if_neg (not_lt.2 hge))

/-- Settles O35: the terms of a window combine one by one, and every term of a window over zeros is zero. -/
theorem boxcarIsLinear : Obligations.BoxcarIsLinear := by
  refine ⟨fun a b x y width n ha hb hlen hx hy => ?linear, fun len width n => ?zero⟩
  case linear =>
    obtain ⟨a, rfl⟩ := ha.exists_cpxRat
    obtain ⟨b, rfl⟩ := hb.exists_cpxRat
    exact boxAt_combine a b hlen hx hy width n
  case zero =>
    have hzero (j : Nat) : xz (List.replicate len Cpx.zero) (n - j) = cpxRat 0 := xz_replicate_zero len _
    rw [boxAt_cpxRat hzero, Finset.sum_const_zero]
    rfl

/-- Settles O33: the failed test ends the command right after its acceptance. -/
theorem shaperErrorsInOrder : Obligations.ShaperErrorsInOrder := by
  refine ⟨fun s hbad => ⟨?upsNsps, ?shapeNsps⟩, fun s hnsps => ⟨fun hcap => ?upsCap, fun hcap => ?shapeCap⟩⟩
  case upsNsps => exact ⟨_, exec_ups_of_nsps hbad, failedOnly_fail_accept .nsps s⟩
  case shapeNsps => exact ⟨_, exec_shape_of_nsps hbad, failedOnly_fail_accept .nsps s⟩
  case upsCap => exact ⟨_, exec_ups_of_cap hnsps hcap, failedOnly_fail_accept .cap s⟩
  case shapeCap => exact ⟨_, exec_shape_of_cap hnsps hcap, failedOnly_fail_accept .cap s⟩

end Sys2Proof.Proofs
end

section
/-! PROOFS. The matched filter (42_matched_filter.md R69, R70): the three outcomes of MFILT with their frames, and the
triangles it makes of a delayed rectangular pulse train. -/

namespace Sys2Proof.Machine

/-! ## The three ways MFILT ends (R69, R102) -/

/-- The state MFILT ends in when its input and its output fit. -/
def mfiltDone (s : State) : State := complete (mfiltWrite (clearMfOk (accept s))).tick

section
variable {s : State}

theorem exec_mfilt_of_nsps (h : s.regs.nsps.toInt ≤ 0) :
    exec .mfilt s = .next (fail .nsps (accept (clearMfOk s))) := by
  obtain ⟨-, hbody⟩ | ⟨hnsps, -⟩ | ⟨hnsps, -⟩ := mfiltBody_cases (clearMfOk (accept s))
  · exact congrArg Host.Outcome.next hbody
  · exact absurd h (not_le.2 hnsps)
  · exact absurd h (not_le.2 hnsps)

theorem exec_mfilt_of_cap (h : 0 < s.regs.nsps.toInt)
    (hcap : s.par.capRx < s.regs.nrx.toNat ∨ s.par.capMf < mfiltLen s) :
    exec .mfilt s = .next (fail .cap (accept (clearMfOk s))) := by
  obtain ⟨hbad, -⟩ | ⟨-, -, hbody⟩ | ⟨-, hnrx, hfit, -⟩ := mfiltBody_cases (clearMfOk (accept s))
  · exact absurd h (not_lt.2 hbad)
  · exact congrArg Host.Outcome.next hbody
  · exact absurd hcap (not_or.2 ⟨not_lt.2 hnrx, not_lt.2 hfit⟩)

theorem exec_mfilt_of_fits (h : 0 < s.regs.nsps.toInt) (hnrx : s.regs.nrx.toNat ≤ s.par.capRx)
    (hfit : mfiltLen s ≤ s.par.capMf) : exec .mfilt s = .next (mfiltDone s) := by
  obtain ⟨hbad, -⟩ | ⟨-, hcap, -⟩ | ⟨-, -, -, hbody⟩ := mfiltBody_cases (clearMfOk (accept s))
  · exact absurd h (not_lt.2 hbad)
  · exact absurd hcap (not_or.2 ⟨not_lt.2 hnrx, not_lt.2 hfit⟩)
  · exact congrArg Host.Outcome.next hbody

end

/-! ## What a completed MFILT leaves (R65, R69) -/

theorem mfiltDone_filled (s : State) : Filled .mf (boxOut s .rx s.regs.nrx.toNat) s (mfiltDone s) :=
  ⟨rfl, rfl, rfl⟩

theorem cpxAt_mfiltDone {s : State} {n : Nat} (hn : n < mfiltLen s) : (mfiltDone s).cpxAt .mf n =
    settleCpx s.par.num s.epoch (2 * n) (windowSum s .rx s.regs.nrx.toNat n) := by
  have hlen : n < (boxOut s .rx s.regs.nrx.toNat).length := hn.trans_eq (length_boxOut ..).symm
  rw [(mfiltDone_filled s).cpxAt_eq hlen, getElem_boxOut, boxAt_live]

theorem mfiltDone_sameElems (s : State) : SameElems (firstOf 5 (mfiltLen s)) s (mfiltDone s) :=
  (mfiltDone_filled s).sameElems (length_boxOut ..)

theorem mfiltDone_sameRegs (s : State) : SameRegs [1, 18] s (mfiltDone s) :=
  have hlengths : SameRegs [1, 15, 16, 17, 18] s (mfiltDone s) := sameRegs_lengths rfl
  hlengths.narrow (by simp [State.readReg, mfiltDone, clearMfOk])

theorem toNat_nmf_mfiltDone {s : State} (hwf : s.par.wf = true) (hfit : mfiltLen s ≤ s.par.capMf) :
    (mfiltDone s).regs.nmf.toNat = mfiltLen s :=
  toNat_ofNat_of_lt (hfit.trans_lt ((capMf_lt hwf).trans (by decide)))

/-! ## The window over a delayed pulse train (R70) -/

/-- A window over rationals has their sum as its sum. -/
theorem windowSum_cpxRat {s : State} {c : CBuf} {len n : Nat} {u : Nat → Rat × Rat} (hnum : s.par.num = .exact)
    (hu : ∀ j, windowTerm s c len n j = cpxRat (u j)) :
    windowSum s c len n = cpxRat (∑ j ∈ Finset.range (nspsNat s), u j) := by
  rw [← boxAt_live, hnum]
  exact boxAt_cpxRat (fun j => (xz_live s c len n j).trans (hu j)) _

theorem cpxFin_cpxRat (z : Rat × Rat) : CpxFin (cpxRat z) := ⟨⟨_, rfl⟩, ⟨_, rfl⟩⟩

/-- Symbol `k` of `m`, and (0, 0) from `m` on. -/
def symbolOrZero (m : Nat) (sym : Nat → Rat × Rat) (k : Nat) : Rat × Rat := if k < m then sym k else 0

/-- The symbol before symbol `k`, and (0, 0) for the first. -/
def symbolBefore (m : Nat) (sym : Nat → Rat × Rat) (k : Nat) : Rat × Rat :=
  if k = 0 then 0 else symbolOrZero m sym (k - 1)

/-- Element `i` of the pulse train of `m` symbols with runs of `width` elements, after `d` zeros. -/
def trainAt (d width m : Nat) (sym : Nat → Rat × Rat) (i : Nat) : Rat × Rat :=
  if i < d then 0 else symbolOrZero m sym ((i - d) / width)

section
variable {d width m : Nat} {sym : Nat → Rat × Rat}

theorem trainAt_of_lt {i : Nat} (h : i < d) : trainAt d width m sym i = 0 := if_pos h

theorem trainAt_run (k : Nat) {r : Nat} (hr : r < width) :
    trainAt d width m sym (d + k * width + r) = symbolOrZero m sym k := by
  have hrun : (d + k * width + r - d) / width = k := by
    rw [Nat.add_assoc, Nat.add_sub_cancel_left, Nat.mul_comm, Nat.mul_add_div (by omega), Nat.div_eq_of_lt hr,
      Nat.add_zero]
  rw [trainAt, if_neg (by omega), hrun]

theorem trainAt_behind (hpos : 0 < width) {i : Nat} (h : d + m * width ≤ i) : trainAt d width m sym i = 0 := by
  have hlast : m ≤ (i - d) / width := (Nat.le_div_iff_mul_le hpos).2 (by omega)
  rw [trainAt, if_neg (by omega), symbolOrZero, if_neg (not_lt.2 hlast)]

/-- The window that ends at element `r` of run `k` has reached back into the run before it after `r + 1` elements. -/
theorem trainAt_window {k r j : Nat} (hr : r < width) (hj : j < width) :
    (if j ≤ d + k * width + r then trainAt d width m sym (d + k * width + r - j) else 0) =
      if j ≤ r then symbolOrZero m sym k else symbolBefore m sym k := by
  by_cases hjr : j ≤ r
  · have hindex : d + k * width + r - j = d + k * width + (r - j) := by omega
    rw [if_pos hjr, if_pos (by omega), hindex, trainAt_run k (by omega)]
  · rw [if_neg hjr]
    cases k with
    | zero =>
      split
      · exact trainAt_of_lt (by omega)
      · rfl
    | succ k =>
      have hsucc := Nat.add_one_mul k width
      have hindex : d + (k + 1) * width + r - j = d + k * width + (width + r - j) := by omega
      rw [if_pos (by omega), hindex, trainAt_run k (by omega)]
      rfl

end

/-- A sum whose terms change from `a` to `b` after term `r`. -/
theorem sum_range_switch (a b : Rat × Rat) {r n : Nat} (h : r < n) :
    ∑ j ∈ Finset.range n, (if j ≤ r then a else b) =
      (((r : Rat) + 1) * a.1 + ((n : Rat) - 1 - r) * b.1, ((r : Rat) + 1) * a.2 + ((n : Rat) - 1 - r) * b.2) := by
  obtain ⟨t, rfl⟩ := Nat.exists_eq_add_of_lt h
  have hfirst : ∑ j ∈ Finset.range (r + 1), (if j ≤ r then a else b) = (r + 1) • a := by
    rw [Finset.sum_congr rfl fun j hj => if_pos (Nat.le_of_lt_succ (Finset.mem_range.1 hj)), Finset.sum_const,
      Finset.card_range]
  have hrest : ∑ j ∈ Finset.range t, (if r + 1 + j ≤ r then a else b) = t • b := by
    rw [Finset.sum_congr rfl fun j _ => if_neg (by omega), Finset.sum_const, Finset.card_range]
  have hcount : ((r + 1 + t : Nat) : Rat) - 1 - r = t := by push_cast; ring
  rw [Nat.add_right_comm, Finset.sum_range_add, hfirst, hrest, hcount]
  ext <;> simp

/-- The live part of RX is the pulse train of `m` symbols after `d` zeros. -/
structure ReceivesTrain (s : State) (d m : Nat) (sym : Nat → Rat × Rat) : Prop where
  complete : d + m * nspsNat s ≤ s.regs.nrx.toNat
  elements : ∀ i, i < s.regs.nrx.toNat → s.cpxAt .rx i = cpxRat (trainAt d (nspsNat s) m sym i)

/-- The three parts of the train: the delay, the runs of the symbols and the trailing zeros. -/
theorem ReceivesTrain.of_parts {s : State} {d m : Nat} {sym : Nat → Rat × Rat} (hpos : 0 < nspsNat s)
    (hlen : s.regs.nrx.toNat = d + m * nspsNat s + nspsNat s - 1)
    (hdelay : ∀ n, n < d → s.cpxAt .rx n = Cpx.zero)
    (hruns : ∀ n, n < m * nspsNat s → s.cpxAt .rx (d + n) = cpxRat (sym (n / nspsNat s)))
    (htail : ∀ n, m * nspsNat s ≤ n → n < m * nspsNat s + nspsNat s - 1 → s.cpxAt .rx (d + n) = Cpx.zero) :
    ReceivesTrain s d m sym := by
  refine ⟨by omega, fun i hi => ?_⟩
  by_cases hd : i < d
  · rw [hdelay i hd, trainAt_of_lt hd]; rfl
  · obtain ⟨n, rfl⟩ := Nat.exists_eq_add_of_le (not_lt.1 hd)
    by_cases hn : n < m * nspsNat s
    · have hsym : n / nspsNat s < m := (Nat.div_lt_iff_lt_mul hpos).2 hn
      rw [hruns n hn, trainAt, if_neg hd, Nat.add_sub_cancel_left, symbolOrZero, if_pos hsym]
    · rw [htail n (by omega) (by omega), trainAt_behind hpos (by omega)]; rfl

namespace ReceivesTrain
variable {s : State} {d m : Nat} {sym : Nat → Rat × Rat}

/-- Past the live part the train is zero too, so only the start of RX bounds the window. -/
theorem windowTerm_eq (h : ReceivesTrain s d m sym) (hpos : 0 < nspsNat s) (n j : Nat) :
    windowTerm s .rx s.regs.nrx.toNat n j =
      cpxRat (if j ≤ n then trainAt d (nspsNat s) m sym (n - j) else 0) := by
  have hlen := h.complete
  unfold windowTerm
  by_cases hj : j ≤ n
  · by_cases hn : n - j < s.regs.nrx.toNat
    · rw [if_pos ⟨hj, hn⟩, if_pos hj, h.elements _ hn]
    · rw [if_neg fun hin => hn hin.2, if_pos hj, trainAt_behind hpos (by omega)]; rfl
  · rw [if_neg fun hin => hj hin.1, if_neg hj]; rfl

theorem cpxAt_mfiltDone (h : ReceivesTrain s d m sym) (hnum : s.par.num = .exact) (hpos : 0 < nspsNat s) {n : Nat}
    (hn : n < mfiltLen s) : (mfiltDone s).cpxAt .mf n = cpxRat (∑ j ∈ Finset.range (nspsNat s),
      if j ≤ n then trainAt d (nspsNat s) m sym (n - j) else 0) := by
  rw [Machine.cpxAt_mfiltDone hn, windowSum_cpxRat hnum (h.windowTerm_eq hpos n), (cpxFin_cpxRat _).settleCpx_eq]

/-- The windows that end in the delay see zeros only. -/
theorem cpxAt_mfiltDone_delay (h : ReceivesTrain s d m sym) (hnum : s.par.num = .exact) (hpos : 0 < nspsNat s)
    {n : Nat} (hd : n < d) (hn : n < mfiltLen s) : (mfiltDone s).cpxAt .mf n = Cpx.zero := by
  have hzero : ∀ j ∈ Finset.range (nspsNat s),
      (if j ≤ n then trainAt d (nspsNat s) m sym (n - j) else 0) = 0 := fun j _ => by
    rw [trainAt_of_lt (by omega), ite_self]
  rw [h.cpxAt_mfiltDone hnum hpos hn, Finset.sum_eq_zero hzero]
  rfl

/-- A window that ends at element `r` of run `k` holds `r + 1` copies of symbol `k`, the rest of the one before. -/
theorem cpxAt_mfiltDone_run (h : ReceivesTrain s d m sym) (hnum : s.par.num = .exact) {k r : Nat}
    (hr : r < nspsNat s) (hn : d + k * nspsNat s + r < mfiltLen s) :
    (mfiltDone s).cpxAt .mf (d + k * nspsNat s + r) = cpxRat
      (((r : Rat) + 1) * (symbolOrZero m sym k).1 + ((nspsNat s : Rat) - 1 - r) * (symbolBefore m sym k).1,
        ((r : Rat) + 1) * (symbolOrZero m sym k).2 + ((nspsNat s : Rat) - 1 - r) * (symbolBefore m sym k).2) := by
  rw [h.cpxAt_mfiltDone hnum (Nat.zero_lt_of_lt hr) hn,
    Finset.sum_congr rfl fun j hj => trainAt_window hr (Finset.mem_range.1 hj), sum_range_switch _ _ hr]

end ReceivesTrain

/-- A projection of the symbol, with 0 where there is none, as R70 writes it. -/
theorem apply_symbolOrZero {f : Rat × Rat → Rat} (hf : f 0 = 0) (m : Nat) (sym : Nat → Rat × Rat) (k : Nat) :
    f (symbolOrZero m sym k) = if k < m then f (sym k) else 0 := by
  rw [symbolOrZero, apply_ite f, hf]

theorem apply_symbolBefore {f : Rat × Rat → Rat} (hf : f 0 = 0) (m : Nat) (sym : Nat → Rat × Rat) (k : Nat) :
    f (symbolBefore m sym k) = if k = 0 then 0 else if k - 1 < m then f (sym (k - 1)) else 0 := by
  rw [symbolBefore, apply_ite f, hf, apply_symbolOrZero hf]

end Sys2Proof.Machine

namespace Sys2Proof.Proofs
open Sys2Proof Sys2Proof.Machine

/-- Settles O36: the elements are the window sums, and the fill of MF and the write of `NMF` have their own frames. -/
theorem mfiltConvolvesWithTheBoxcar : Obligations.MfiltConvolvesWithTheBoxcar := by
  intro s hwf hnsps hnrx hfit
  have hnmf := toNat_nmf_mfiltDone hwf hfit
  have helems := mfiltDone_sameElems s
  rw [← hnmf] at helems
  exact ⟨mfiltDone s, exec_mfilt_of_fits hnsps hnrx hfit, hnmf, fun n hn => cpxAt_mfiltDone (hn.trans_eq hnmf), rfl,
    rfl, mfiltDone_sameRegs s, helems, rfl, rfl, rfl, rfl, rfl⟩

/-- Settles O38: every window over the train lies in the delay or meets two neighbouring runs. -/
theorem matchedFilterGivesTriangles : Obligations.MatchedFilterGivesTriangles := by
  intro s d m sym hwf hnum hnsps hlen hnrx hcap hdelay hruns htail part before
  have hpos := nspsNat_pos hnsps
  have htrain := ReceivesTrain.of_parts hpos hlen hdelay hruns htail
  have hmflen : mfiltLen s = d + m * nspsNat s + 2 * nspsNat s - 2 := by
    rw [mfiltLen, boxLen, hlen]; omega
  have hfit : mfiltLen s ≤ s.par.capMf := hmflen.trans_le hcap
  have hnmf := toNat_nmf_mfiltDone hwf hfit
  refine ⟨mfiltDone s, exec_mfilt_of_fits hnsps hnrx hfit, hnmf.trans hmflen, fun n hd hn => ?delay,
    fun k r hr hn => ?run⟩
  case delay => exact htrain.cpxAt_mfiltDone_delay hnum hpos hd (hn.trans_eq hnmf)
  case run =>
    rw [htrain.cpxAt_mfiltDone_run hnum hr (hn.trans_eq hnmf), apply_symbolOrZero (f := Prod.fst) rfl,
      apply_symbolOrZero (f := Prod.snd) rfl, apply_symbolBefore (f := Prod.fst) rfl,
      apply_symbolBefore (f := Prod.snd) rfl]

/-- Settles O37: the first act of MFILT commutes with the acceptance, and the failed test ends the command after
both. -/
theorem mfiltErrorsClearMfOk : Obligations.MfiltErrorsClearMfOk :=
  ⟨fun s hbad => ⟨_, exec_mfilt_of_nsps hbad, failedOnly_fail_accept .nsps (clearMfOk s)⟩,
    fun s hnsps hcap => ⟨_, exec_mfilt_of_cap hnsps hcap, failedOnly_fail_accept .cap (clearMfOk s)⟩⟩

end Sys2Proof.Proofs
end

section
/-! PROOFS. The timing-error detectors (43_ted.md R71 to R75), and the iteration of STEP they begin (45_timing_loop.md
R82, R83): TED.GC against TED.GA through the symmetry of rounding, the detectors' formulas under `NUM = EXACT`, and what
STEP stores. -/

namespace Sys2Proof.Machine

/-! ## Rounding is symmetric (R8, R11) -/

/-- The nearest integer, the even one at a tie, is unique. -/
theorem roundEven_eq_of_nearest {q : Rat} {n : Int} (hnear : |q - (n : Rat)| ≤ 1 / 2)
    (htie : |q - (n : Rat)| = 1 / 2 → n % 2 = 0) : roundEven q = n := by
  have hround := abs_sub_roundEven_le q
  have hle : |((roundEven q - n : Int) : Rat)| ≤ |q - (n : Rat)| + |q - (roundEven q : Rat)| := by
    have hsplit : ((roundEven q - n : Int) : Rat) = (q - n) - (q - roundEven q) := by push_cast; ring
    rw [hsplit]
    exact abs_sub _ _
  by_contra hne
  have hdist : (1 : Rat) ≤ |((roundEven q - n : Int) : Rat)| := by
    exact_mod_cast Int.one_le_abs (sub_ne_zero.2 hne)
  have heven : n % 2 = 0 := htie (by linarith)
  have hevenRound : roundEven q % 2 = 0 := roundEven_even_of_tie (by linarith)
  have hone : |roundEven q - n| ≤ 1 := by
    have hcast : |((roundEven q - n : Int) : Rat)| ≤ 1 := by linarith
    exact_mod_cast hcast
  have hbounds := abs_le.1 hone
  omega

theorem roundEven_neg (q : Rat) : roundEven (-q) = -roundEven q := by
  have hdist : |-q - ((-roundEven q : Int) : Rat)| = |q - (roundEven q : Rat)| := by
    rw [← abs_neg]
    push_cast
    ring_nf
  apply roundEven_eq_of_nearest
  · exact hdist.trans_le (abs_sub_roundEven_le q)
  · intro htie
    have heven := roundEven_even_of_tie (hdist.symm.trans htie)
    omega

@[simp] theorem quantum_neg (f : Fmt) (q : Rat) : f.quantum (-q) = f.quantum q := by
  simp only [Fmt.quantum, floorLog2, abs_neg]

theorem nearestValue_neg (f : Fmt) (q : Rat) : nearestValue f (-q) = -nearestValue f q := by
  rw [nearestValue, nearestValue, quantum_neg, neg_div, roundEven_neg, Int.cast_neg, neg_mul]

/-- Whatever the sign of a zero result, the number a format gives is the nearest value below the overflow bound. -/
theorem numVal_roundTo (f : Fmt) (z : Bool) (q : Rat) : numVal (roundTo f z q) =
    if |nearestValue f q| < twoPow (f.bias + 1) then some (nearestValue f q) else none := by
  obtain ⟨hfin, hlt⟩ | ⟨hneg, hzero, -⟩ | ⟨hpoison, hover⟩ := roundTo_cases f z q
  · rw [hfin, if_pos hlt]; rfl
  · rw [hneg, hzero, abs_zero, if_pos (twoPow_pos _)]; rfl
  · rw [hpoison, if_neg (not_lt.2 hover)]; rfl

/-! ## The numbers the operations give (R8)

The sign of a zero does not show in `numVal`, so the number an operation gives depends on the numbers of its operands
alone, through the rounding of the exact result. -/

/-- The number the exact result `q` is rounded to, if it is finite. -/
def roundVal (y : NumSys) (q : Rat) : Option Rat := numVal (numRound y false q)

theorem numVal_numRound (y : NumSys) (z : Bool) (q : Rat) : numVal (numRound y z q) = roundVal y q := by
  unfold roundVal numRound
  cases fmtOf y with
  | none => rfl
  | some f => exact (numVal_roundTo f z q).trans (numVal_roundTo f false q).symm

theorem roundVal_neg (y : NumSys) (q : Rat) : roundVal y (-q) = (roundVal y q).map fun r => -r := by
  unfold roundVal numRound
  cases fmtOf y with
  | none => rfl
  | some f =>
    rw [numVal_roundTo, numVal_roundTo, nearestValue_neg, abs_neg]
    split <;> rfl

theorem numVal_numNeg (y : NumSys) (a : NumVal) : numVal (numNeg y a) = (numVal a).map fun p => -p := by
  cases a with
  | fin q =>
    by_cases hq : q = 0
    · subst hq
      cases y <;> simp [numNeg, numVal]
    · simp [numNeg, hq]
  | negZero => simp [numNeg, numVal]
  | inf | nan => rfl

theorem numVal_numAdd (y : NumSys) (a b : NumVal) : numVal (numAdd y a b) =
    (numVal a).bind fun p => (numVal b).bind fun q => roundVal y (p + q) := by
  unfold numAdd
  cases numVal a with
  | none => rfl
  | some p => cases numVal b with
    | none => rfl
    | some q => exact numVal_numRound _ _ _

theorem numVal_numSub (y : NumSys) (a b : NumVal) : numVal (numSub y a b) =
    (numVal a).bind fun p => (numVal b).bind fun q => roundVal y (p - q) := by
  simp only [numSub, numVal_numAdd, numVal_numNeg, Option.bind_map, Function.comp_def, sub_eq_add_neg]

theorem numVal_numMul (y : NumSys) (a b : NumVal) : numVal (numMul y a b) =
    (numVal a).bind fun p => (numVal b).bind fun q => roundVal y (p * q) := by
  unfold numMul
  cases numVal a with
  | none => rfl
  | some p => cases numVal b with
    | none => rfl
    | some q => exact numVal_numRound _ _ _

/-! ## Negated operands give negated numbers (R75) -/

/-- Two values whose numbers are each other's negation, or neither of which is finite. -/
def Opposite (a b : NumVal) : Prop := numVal b = (numVal a).map fun q => -q

theorem opposite_numNeg (y : NumSys) (a : NumVal) : Opposite a (numNeg y a) := numVal_numNeg y a

theorem Opposite.sub (y : NumSys) {a b a' b' : NumVal} (ha : Opposite a a') (hb : Opposite b b') :
    Opposite (numSub y a b) (numSub y a' b') := by
  unfold Opposite at *
  rw [numVal_numSub, numVal_numSub, ha, hb]
  cases numVal a with
  | none => rfl
  | some p => cases numVal b with
    | none => rfl
    | some q =>
      have hneg : -p - -q = -(p - q) := by ring
      exact (congrArg (roundVal y) hneg).trans (roundVal_neg y _)

theorem Opposite.mul (y : NumSys) {a a' : NumVal} (ha : Opposite a a') (b : NumVal) :
    Opposite (numMul y a b) (numMul y a' b) := by
  unfold Opposite at *
  rw [numVal_numMul, numVal_numMul, ha]
  cases numVal a with
  | none => rfl
  | some p => cases numVal b with
    | none => rfl
    | some q => exact (congrArg (roundVal y) (neg_mul p q)).trans (roundVal_neg y _)

/-- Subtracting the opposite is adding. -/
theorem Opposite.numVal_sub_eq_add (y : NumSys) (a : NumVal) {b b' : NumVal} (hb : Opposite b b') :
    numVal (numSub y a b') = numVal (numAdd y a b) := by
  rw [numVal_numSub, numVal_numAdd, hb]
  simp only [Option.bind_map, Function.comp_def, sub_neg_eq_add]

/-! ## The detectors on rationals (R72 to R74) -/

theorem tedGaValue_exact (zs zm ze : Rat × Rat) :
    tedGaValue .exact (cpxRat zs) (cpxRat zm) (cpxRat ze) = .fin (detectorRat 0 zs zm ze) := by
  simp [tedGaValue, cpxRat, detectorRat]

theorem tedGcValue_exact (zs zm ze : Rat × Rat) :
    tedGcValue .exact (cpxRat zs) (cpxRat zm) (cpxRat ze) = .fin (detectorRat 1 zs zm ze) := by
  simp only [tedGcValue, cpxRat, detectorRat, numSub_exact, numNeg_exact, numMul_exact, one_ne_zero, if_false, if_true]

theorem tedZcValue_exact (zs zm ze : Rat × Rat) :
    tedZcValue .exact (cpxRat zs) (cpxRat ze) = .fin (detectorRat 2 zs zm ze) := by
  simp only [tedZcValue, cpxRat, detectorRat, numSign_fin, numSub_exact, numAdd_exact, numNeg_exact, numMul_exact,
    OfNat.ofNat_ne_zero, OfNat.ofNat_ne_one, if_false]

section Detectors

variable {s : State} {zs zm ze : Rat × Rat}

theorem tedGa_err_exact (hnum : s.par.num = .exact) (h : SamplesAre s zs zm ze) :
    (tedGa s).err = .fin (detectorRat 0 zs zm ze) := by
  obtain ⟨hstart, hmid, hend⟩ := h
  rw [tedGa, setErr_err, hnum, hstart, hmid, hend, tedGaValue_exact, settle_fin]

theorem tedGc_err_exact (hnum : s.par.num = .exact) (h : SamplesAre s zs zm ze) :
    (tedGc s).err = .fin (detectorRat 1 zs zm ze) := by
  obtain ⟨hstart, hmid, hend⟩ := h
  rw [tedGc, setErr_err, hnum, hstart, hmid, hend, tedGcValue_exact, settle_fin]

theorem tedZc_err_exact (hnum : s.par.num = .exact) (h : SamplesAre s zs zm ze) :
    (tedZc s).err = .fin (detectorRat 2 zs zm ze) := by
  obtain ⟨hstart, -, hend⟩ := h
  rw [tedZc, setErr_err, hnum, hstart, hend, tedZcValue_exact zs zm ze, settle_fin]

/-! ## The detector `TED_SEL` selects (R51) -/

theorem tedSelected_of_ga (hsel : s.regs.cfg.tedSel.toNat = 0) : tedSelected s = tedGa s := by
  simp only [tedSelected, hsel]

theorem tedSelected_of_gc (hsel : s.regs.cfg.tedSel.toNat = 1) : tedSelected s = tedGc s := by
  simp only [tedSelected, hsel]

theorem tedSelected_of_zc (hsel : s.regs.cfg.tedSel.toNat = 2) : tedSelected s = tedZc s := by
  simp only [tedSelected, hsel]

theorem tedSelected_err_exact (hnum : s.par.num = .exact) (hsel : s.regs.cfg.tedSel.toNat ≠ 3)
    (h : SamplesAre s zs zm ze) :
    (tedSelected s).err = .fin (detectorRat s.regs.cfg.tedSel.toNat zs zm ze) := by
  have hlt := s.regs.cfg.tedSel.isLt
  obtain hga | hgc | hzc : s.regs.cfg.tedSel.toNat = 0 ∨ s.regs.cfg.tedSel.toNat = 1 ∨
      s.regs.cfg.tedSel.toNat = 2 := by omega
  · rw [tedSelected_of_ga hga, hga, tedGa_err_exact hnum h]
  · rw [tedSelected_of_gc hgc, hgc, tedGc_err_exact hnum h]
  · rw [tedSelected_of_zc hzc, hzc, tedZc_err_exact hnum h]

end Detectors

/-! ## The registers of the loop (R79, R82) -/

/-- With no register changed but `STATUS` and the loop state an iteration writes, every other register reads as
before. -/
theorem sameRegs_loopState {s t : State} {st : Status} {p1 p2 : NumVal} {tau kidx nout clampTot clampCon : Word}
    (h : t.regs = { s.regs with
      status := st, p1 := p1, p2 := p2, tau := tau, kidx := kidx, nout := nout, clampTot := clampTot,
      clampCon := clampCon }) : SameRegs [1, 11, 12, 13, 14, 19, 20, 21] s t := by
  intro r hr
  simp only [List.mem_cons, List.not_mem_nil, or_false, not_or] at hr
  unfold State.readReg
  rw [h]
  split
  all_goals first | rfl | omega

/-- The loop filter alone leaves `STATUS` and the two counts too. -/
theorem lfUpd_sameRegs (s : State) : SameRegs [11, 12, 13, 20, 21] s (lfUpd s) := by
  have hloop : SameRegs [1, 11, 12, 13, 14, 19, 20, 21] s (lfUpd s) := sameRegs_loopState rfl
  refine hloop.narrow fun r hr hkept => ?_
  obtain rfl | rfl | rfl : r = 1 ∨ r = 14 ∨ r = 19 := by
    simp only [List.mem_cons, List.not_mem_nil, or_false] at hr hkept
    omega
  all_goals rfl

theorem lfClamps_of_accum {s : State} {t : Rat} (haccum : lfAccum s = .fin t) :
    lfClamps s = decide (1 < t ∨ t < -1) := by
  simp [lfClamps, haccum]

/-! ## What STEP leaves when it performs an iteration (R82, R83) -/

/-- The state STEP ends in when it performs an iteration, see `IterationRuns.exec_step`. -/
def stepDone (s : State) : State := complete (advance (accept s))

theorem stepDone_regs (s : State) : (stepDone s).regs =
    { s.regs with
      status := doneStatus s.regs.status
      p1 := lfP1 (tedSelected (accept s))
      p2 := lfP2 (tedSelected (accept s))
      tau := BitVec.ofInt 32 (lfTau (tedSelected (accept s)))
      kidx := s.regs.kidx + 1
      nout := s.regs.nout + 1
      clampTot := if lfClamps (tedSelected (accept s)) then s.regs.clampTot + 1 else s.regs.clampTot
      clampCon := if lfClamps (tedSelected (accept s)) then s.regs.clampCon + 1 else 0 } := by
  rw [stepDone, complete_regs, advance_regs_eq]
  rfl

theorem stepDone_sameRegs (s : State) : SameRegs [1, 11, 12, 13, 14, 19, 20, 21] s (stepDone s) :=
  sameRegs_loopState (stepDone_regs s)

theorem stepDone_sameElems (s : State) :
    SameElems (fun sp n => (sp = 6 ∨ sp = 7 ∨ sp = 8) ∧ n = s.regs.nout.toNat) s (stepDone s) := by
  have haccept : SameElems (fun sp n => (sp = 6 ∨ sp = 7 ∨ sp = 8) ∧ n = s.regs.nout.toNat) s (accept s) :=
    sameElems_of_eq _ rfl rfl rfl
  exact (haccept.trans (advance_sameElems (accept s))).trans (sameElems_of_eq _ rfl rfl rfl)

theorem stepDone_sameHost (s : State) : SameHost s (stepDone s) := by
  simp [SameHost, stepDone]

theorem stepDone_err (s : State) : (stepDone s).err = (tedSelected (accept s)).err := rfl

theorem cpxAt_stepDone (s : State) : (stepDone s).cpxAt .out s.regs.nout.toNat =
    settleCpx s.par.num s.epoch 8 (mfAt s (emitIndex s)) :=
  (cpxAt_advance_out (accept s) s.regs.nout.toNat).trans (if_pos rfl)

theorem derrAt_stepDone (s : State) : (stepDone s).derrAt s.regs.nout.toNat = (tedSelected (accept s)).err :=
  (derrAt_advance (accept s) s.regs.nout.toNat).trans (if_pos rfl)

theorem dtauAt_stepDone (s : State) : (stepDone s).dtauAt s.regs.nout.toNat = (stepDone s).regs.tau := by
  have hmem : (stepDone s).mem = (advance (accept s)).mem := rfl
  rw [State.dtauAt, hmem, advance_mem, stepDone_regs]
  exact congrArg (Option.getD · _) (get?_put_same _ _ _)

theorem IterationRuns.emitIndex_nonneg {s : State} (h : IterationRuns s) : 0 ≤ emitIndex s := by
  unfold emitIndex
  split
  · exact h.startIndex_nonneg
  · exact h.midIndex_nonneg

end Sys2Proof.Machine

namespace Sys2Proof.Proofs
open Sys2Proof Sys2Proof.Machine

/-- Settles O43: a detector sets `err` alone, and the loop filter's registers are those of `lfUpd_sameRegs`. -/
theorem microOperationsCompleteWithTheirFrames : Obligations.MicroOperationsCompleteWithTheirFrames := by
  refine ⟨fun i s hi => ?detector, fun s => ?loopFilter⟩
  case detector =>
    obtain rfl | rfl | rfl := hi
    all_goals exact ⟨_, rfl, rfl, rfl, sameElems_of_eq _ rfl rfl rfl, rfl, rfl, rfl, rfl, rfl⟩
  case loopFilter =>
    exact ⟨_, rfl, rfl, rfl, rfl, lfUpd_sameRegs s, sameElems_of_eq _ rfl rfl rfl, rfl, rfl, rfl, rfl, rfl⟩

/-- Settles O44: the samples are rationals, on which each detector evaluates. -/
theorem detectorsComputeTheirFormulas : Obligations.DetectorsComputeTheirFormulas :=
  fun _ _ _ _ hnum h =>
    ⟨⟨_, rfl, tedGa_err_exact hnum h⟩, ⟨_, rfl, tedGc_err_exact hnum h⟩, ⟨_, rfl, tedZc_err_exact hnum h⟩⟩

/-- Settles O45: the Q difference of TED.GC is the opposite of that of TED.GA, so is its product with the mid sample,
and TED.GC subtracts that product where TED.GA adds its own. -/
theorem complexGardnerNegatesAmplitudeGardner : Obligations.ComplexGardnerNegatesAmplitudeGardner := by
  intro y zs zm ze
  have hdiff := (opposite_numNeg y ze.im).sub y (opposite_numNeg y zs.im)
  have hproduct := hdiff.mul y zm.im
  rw [tedGcValue, numVal_numNeg, hproduct.numVal_sub_eq_add, tedGaValue]

/-- Settles O51: the iteration is `stepDone`, whose stored elements and frames are read one by one. -/
theorem stepAppendsOneIteration : Obligations.StepAppendsOneIteration := by
  intro s hruns
  have hemitted : mfAt s (emitIndex s) = _ := mfAt_of_nonneg hruns.emitIndex_nonneg
  refine ⟨stepDone s, hruns.exec_step, by rw [stepDone_regs], by rw [stepDone_regs], ?out, fun hsel => ?ga,
    fun hsel => ?gc, fun hsel => ?zc, (derrAt_stepDone s).trans (stepDone_err s).symm, dtauAt_stepDone s,
    by rw [stepDone_regs], rfl, stepDone_sameRegs s, stepDone_sameElems s, stepDone_sameHost s⟩
  case out => rw [cpxAt_stepDone, hemitted]; rfl
  case ga => exact (derrAt_stepDone s).trans (congrArg State.err (tedSelected_of_ga (s := accept s) hsel))
  case gc => exact (derrAt_stepDone s).trans (congrArg State.err (tedSelected_of_gc (s := accept s) hsel))
  case zc => exact (derrAt_stepDone s).trans (congrArg State.err (tedSelected_of_zc (s := accept s) hsel))

/-- Settles O52: the detector's value is that of `detectorRat`, and the registers follow from the accumulator before
the clamp. -/
theorem stepComputesTheIteration : Obligations.StepComputesTheIteration := by
  intro s zs zm ze k1 k2 p hruns hnum hsel hsamples hk1 hk2 hp2 e t0
  have hexact : (tedSelected (accept s)).par.num = .exact := by simpa using hnum
  have herr : (tedSelected (accept s)).err = .fin e := tedSelected_err_exact (s := accept s) hnum hsel hsamples
  have hcoeff : (tedSelected (accept s)).regs.k1 = .fin k1 := by simpa using hk1
  have hnsps : (tedSelected (accept s)).regs.nsps = s.regs.nsps := by simp
  have haccum : lfAccum (tedSelected (accept s)) = .fin t0 := by
    rw [lfAccum_exact hexact herr hcoeff (by simpa using hk2) (by simpa using hp2), ← mul_add]
  refine ⟨stepDone s, hruns.exec_step, (derrAt_stepDone s).trans herr, ?_⟩
  rw [stepDone_regs, lfP1_exact hexact herr hcoeff, lfP2_of_accum haccum, lfTau_of_accum hexact haccum, hnsps,
    lfClamps_of_accum haccum]
  simp only [decide_eq_true_eq, and_self]

end Sys2Proof.Proofs
end

section
/-! PROOFS. The loop filter (44_loop_filter.md R76 to R80): the five ways INIT ends with their frames, the coefficients
under `NUM = EXACT` and over the reals, and the values LF.UPD computes. -/

namespace Sys2Proof.Machine

/-! ## The five ways INIT ends (R78, R102) -/

/-- The state INIT ends in when its configuration is legal and its divisor is not zero. -/
def initDone (s : State) : State := complete (initWrite (accept (clearInitOk s))).tick

/-- The acceptance and the first act of INIT commute. -/
theorem exec_init_eq (s : State) : exec .init s = .next (initBody (accept (clearInitOk s))) := rfl

section
variable {s : State}

theorem exec_init_of_nsps (h : s.regs.nsps.toInt ≤ 0) :
    exec .init s = .next (fail .nsps (accept (clearInitOk s))) := by
  have hbad : nspsBad (accept (clearInitOk s)) = true := (nspsBad_iff _).2 h
  rw [exec_init_eq, initBody, if_pos hbad]

/-- Once `NSPS` is legal, what INIT does next turns on `TED_SEL`, `WRAP_SEL` and the divisor, in this order. -/
theorem exec_init_of_legal_nsps (h : 0 < s.regs.nsps.toInt) : exec .init s = .next (
    if s.regs.cfg.tedSel.toNat = 3 then fail .ted (accept (clearInitOk s))
    else if s.regs.cfg.wrapSel then fail .wrap (accept (clearInitOk s))
    else if numIsZero (coeffOf s).1 then fail .den (accept (clearInitOk s))
    else initDone s) :=
  congrArg Host.Outcome.next (if_neg (not_nspsBad (s := accept (clearInitOk s)) h))

variable (hnsps : 0 < s.regs.nsps.toInt)
include hnsps

theorem exec_init_of_ted (h : s.regs.cfg.tedSel.toNat = 3) :
    exec .init s = .next (fail .ted (accept (clearInitOk s))) := by
  rw [exec_init_of_legal_nsps hnsps, if_pos h]

variable (hted : s.regs.cfg.tedSel.toNat ≠ 3)
include hted

theorem exec_init_of_wrap (h : s.regs.cfg.wrapSel = true) :
    exec .init s = .next (fail .wrap (accept (clearInitOk s))) := by
  rw [exec_init_of_legal_nsps hnsps, if_neg hted, if_pos h]

variable (hwrap : s.regs.cfg.wrapSel = false)
include hwrap

theorem exec_init_of_den (h : numIsZero (coeffOf s).1 = true) :
    exec .init s = .next (fail .den (accept (clearInitOk s))) := by
  rw [exec_init_of_legal_nsps hnsps, if_neg hted, if_neg (by simp [hwrap]), if_pos h]

theorem exec_init_of_den_ne_zero (h : numIsZero (coeffOf s).1 = false) : exec .init s = .next (initDone s) := by
  rw [exec_init_of_legal_nsps hnsps, if_neg hted, if_neg (by simp [hwrap]), if_neg (by simp [h])]

end

/-! ## What a completed INIT leaves (R78) -/

theorem initDone_regs (s : State) : (initDone s).regs =
    { s.regs with
      status := { doneStatus s.regs.status with stop := false, stopCause := .none, initOk := true }
      k1 := settle s.par.num s.epoch 0 (coeffOf s).2.1
      k2 := settle s.par.num s.epoch 1 (coeffOf s).2.2
      p1 := .fin 0, p2 := .fin 0, tau := 0, kidx := 0, nout := 0, clampTot := 0, clampCon := 0 } := rfl

/-- Storing the coefficients shows in registers 9 and 10, and zeroing the loop state in those of an iteration. -/
theorem initDone_sameRegs (s : State) : SameRegs [1, 9, 10, 11, 12, 13, 14, 19, 20, 21] s (initDone s) := by
  intro r hr
  simp only [List.mem_cons, List.not_mem_nil, or_false, not_or] at hr
  simp only [State.readReg, initDone_regs]
  split
  all_goals first | rfl | omega

theorem initDone_sameElems (s : State) : SameElems nothing s (initDone s) := sameElems_of_eq _ rfl rfl rfl

/-! ## The closed form (R77) -/

/-- The divisor of the closed form for `u = B ÷ N` and the gain `g`, see `coeff_exact_den`. -/
def divisorRat (u g : Rat) : Rat := (1 + 4 * u / 3 + 8 * u * u / 9) * g

theorem divisorRat_eq (u g : Rat) : divisorRat u g = (1 + 4 * u / 3 + 8 * u * u / 9) * g := rfl

/-- The quadratic in front of the gain is `(8/9)(u + 3/4)² + 1/2`, so it has no zero. -/
theorem divisorRat_eq_zero_iff (u g : Rat) : divisorRat u g = 0 ↔ g = 0 := by
  have hsquare : 1 + 4 * u / 3 + 8 * u * u / 9 = 8 / 9 * (u + 3 / 4) ^ 2 + 1 / 2 := by ring
  have hpos : 0 < 1 + 4 * u / 3 + 8 * u * u / 9 := by rw [hsquare]; positivity
  rw [divisorRat_eq, mul_eq_zero, or_iff_right hpos.ne']

/-- For a gain other than zero the exact coefficients are the three rationals of the closed form. -/
theorem coeff_exact {b g : Rat} {n : Int} (hn : n ≠ 0) (hg : g ≠ 0) : coeff .exact (.fin b) (.fin g) n =
    (.fin (divisorRat (b / n) g), .fin (-(8 * (b / n) / 3) / divisorRat (b / n) g),
      .fin (-(32 * (b / n) * (b / n) / 9) / divisorRat (b / n) g)) := by
  have hden : divisorRat (b / n) g ≠ 0 := (divisorRat_eq_zero_iff _ _).not.2 hg
  simp only [coeff, coeffExact, coeffU_exact b hn, coeffG_exact, numMul_exact, numNeg_exact, ← divisorRat_eq,
    numDiv_exact _ (show (3 : Rat) ≠ 0 by norm_num), numDiv_exact _ (show (9 : Rat) ≠ 0 by norm_num),
    numDiv_exact _ hden]

theorem coeffOf_exact {s : State} {b g : Rat} (hnum : s.par.num = .exact) (hbnts : s.regs.bnts = .fin b)
    (hkp : s.regs.kp = .fin g) : coeffOf s = coeff .exact (.fin b) (.fin g) s.regs.nsps.toInt := by
  rw [coeffOf, hnum, hbnts, hkp]

/-! ## The formulas with ζ = √2/2 over the reals (R76)

All that the closed form uses of ζ is ζ² = 1/2. -/

section
variable {zeta : ℝ} (hzeta : zeta * zeta = 1 / 2)
include hzeta

theorem theta_eq (u : ℝ) : u / (zeta + 0.25 / zeta) = 4 * zeta * u / 3 := by
  have hne : zeta ≠ 0 := by
    rintro rfl
    norm_num at hzeta
  have hsum : zeta + 0.25 / zeta = 3 / (4 * zeta) := by
    field_simp
    linear_combination 4 * hzeta
  rw [hsum]
  field_simp

theorem zeta_mul_theta (u : ℝ) : zeta * (u / (zeta + 0.25 / zeta)) = 2 * u / 3 := by
  rw [theta_eq hzeta]
  linear_combination 4 * u / 3 * hzeta

theorem theta_mul_theta (u : ℝ) :
    u / (zeta + 0.25 / zeta) * (u / (zeta + 0.25 / zeta)) = 8 * u * u / 9 := by
  rw [theta_eq hzeta]
  linear_combination 16 * u * u / 9 * hzeta

end

theorem sqrt_two_half_mul_self : Real.sqrt 2 / 2 * (Real.sqrt 2 / 2) = 1 / 2 := by
  have hsqrt : Real.sqrt 2 * Real.sqrt 2 = 2 := Real.mul_self_sqrt zero_le_two
  linear_combination hsqrt / 4

/-! ## The clamp counters (R80 (b)) -/

section
variable {s : State} {t : Rat} (haccum : lfAccum s = .fin t)
include haccum

theorem lfUpd_counters_clamped (h : 1 < t ∨ t < -1) :
    (lfUpd s).regs.clampTot = s.regs.clampTot + 1 ∧ (lfUpd s).regs.clampCon = s.regs.clampCon + 1 := by
  have hclamps : lfClamps s = true := (lfClamps_of_accum haccum).trans (decide_eq_true h)
  exact ⟨if_pos hclamps, if_pos hclamps⟩

theorem lfUpd_counters_inside (hlow : -1 ≤ t) (hhigh : t ≤ 1) :
    (lfUpd s).regs.clampTot = s.regs.clampTot ∧ (lfUpd s).regs.clampCon = 0 := by
  have hclamps : ¬ lfClamps s = true := by
    rw [lfClamps_of_accum haccum, decide_eq_true_iff]
    exact not_or.2 ⟨not_lt.2 hhigh, not_lt.2 hlow⟩
  exact ⟨if_neg hclamps, if_neg hclamps⟩

end

end Sys2Proof.Machine

namespace Sys2Proof.Proofs
open Sys2Proof Sys2Proof.Machine

/-- Settles O39: with no check failing INIT ends in `initDone`. -/
theorem initStartsARun : Obligations.InitStartsARun := fun s hnsps hted hwrap hden =>
  ⟨initDone s, exec_init_of_den_ne_zero hnsps hted hwrap hden, rfl, rfl, rfl, rfl, rfl, rfl, rfl, rfl, rfl, rfl, rfl,
    initDone_sameRegs s, initDone_sameElems s, rfl, rfl, rfl, rfl, rfl⟩

/-- Settles O40: the closed form has a nonzero divisor, so INIT passes its last check and stores the rationals. -/
theorem initComputesTheCoefficients : Obligations.InitComputesTheCoefficients := by
  intro s b g hnum hnsps hted hwrap hbnts hkp hg u den
  have hden : den ≠ 0 := (divisorRat_eq_zero_iff u g).not.2 hg
  have hcoeff : coeffOf s = (.fin den, .fin (-(8 * u / 3) / den), .fin (-(32 * u * u / 9) / den)) :=
    (coeffOf_exact hnum hbnts hkp).trans (coeff_exact hnsps.ne' hg)
  have hcheck : numIsZero (coeffOf s).1 = false := by rw [hcoeff]; exact decide_eq_false hden
  refine ⟨initDone s, exec_init_of_den_ne_zero hnsps hted hwrap hcheck, hden, ?_⟩
  rw [initDone_regs, hcoeff]
  exact ⟨rfl, rfl, rfl, rfl⟩

/-- Settles O41: the first check that fails ends the command; under `NUM = EXACT` the divisor is a product with the
gain. -/
theorem initErrorsInOrder : Obligations.InitErrorsInOrder := by
  refine ⟨fun s hbad => ⟨_, exec_init_of_nsps hbad, failedOnly_fail_accept ..⟩,
    fun s hnsps hted => ⟨_, exec_init_of_ted hnsps hted, failedOnly_fail_accept ..⟩,
    fun s hnsps hted hwrap => ⟨_, exec_init_of_wrap hnsps hted hwrap, failedOnly_fail_accept ..⟩,
    fun s hnsps hted hwrap hden => ⟨_, exec_init_of_den hnsps hted hwrap hden, failedOnly_fail_accept ..⟩,
    fun s b hnum hnsps hted hwrap hbnts hkp => ⟨_, exec_init_of_den hnsps hted hwrap ?_, failedOnly_fail_accept ..⟩⟩
  rw [coeffOf_exact hnum hbnts hkp, coeff_exact_den b 0 hnsps.ne', mul_zero, numIsZero_fin, decide_eq_true rfl]

/-- Settles O42: ζθ = 2u/3 and θ² = 8u²/9 turn each real formula into its closed form. -/
theorem closedFormEqualsTheRealFormulas : Obligations.ClosedFormEqualsTheRealFormulas := by
  intro b g n hn
  refine ⟨divisorRat (b / n) g, -(8 * (b / n) / 3) / divisorRat (b / n) g,
    -(32 * (b / n) * (b / n) / 9) / divisorRat (b / n) g, coeff_exact_den b g hn.ne', divisorRat_eq_zero_iff _ _,
    coeff_exact hn.ne', ?_⟩
  intro zeta theta
  have hcross : zeta * theta = 2 * (b / n : ℝ) / 3 := zeta_mul_theta sqrt_two_half_mul_self _
  have hsquare : theta * theta = 8 * (b / n : ℝ) * (b / n) / 9 := theta_mul_theta sqrt_two_half_mul_self _
  refine ⟨?den, fun _ => ⟨?k1, ?k2⟩⟩
  case den =>
    rw [mul_assoc 2, hcross, hsquare, divisorRat_eq]
    push_cast
    ring
  case k1 =>
    rw [mul_assoc (-4), hcross]
    push_cast
    ring
  case k2 =>
    rw [mul_assoc (-4), hsquare]
    push_cast
    ring

/-- Settles O46: `P2`, `TAU` and the counters follow from the accumulator before the clamp. -/
theorem loopFilterUpdatesTheAccumulator : Obligations.LoopFilterUpdatesTheAccumulator := by
  intro s e k1 k2 p hnum herr hk1 hk2 hp2 t0
  have haccum : lfAccum s = .fin t0 := by rw [lfAccum_exact hnum herr hk1 hk2 hp2, ← mul_add]
  exact ⟨(lfUpd s).tick, rfl, lfP1_exact hnum herr hk1, lfP2_of_accum haccum,
    congrArg (BitVec.ofInt 32) (lfTau_of_accum hnum haccum), lfUpd_counters_clamped haccum,
    lfUpd_counters_inside haccum⟩

end Sys2Proof.Proofs
end

section
/-! PROOFS. The timing loop (45_timing_loop.md R82 to R89): the report NOP leaves and the registers SRST leaves, the
ways STEP ends, RUN as repeated STEP with the frame of its iterations, and how many iterations a run performs. -/

namespace Sys2Proof.Machine

/-! ## NOP and SRST (R88, R89) -/

/-- A completed command keeps the fields of `STATUS` outside its report, which stand at the bits of 0x3078. -/
theorem Status.image_doneStatus (b : Bool) (t : Status) :
    (doneStatus t).image false = t.image b &&& 0x3078 ||| 2 := by
  apply BitVec.eq_of_getLsbD_eq
  intro i hi
  simp only [Status.image, doneStatus, ErrCode.code, BitVec.getLsbD_append, BitVec.getLsbD_ofBool,
    BitVec.getLsbD_or, BitVec.getLsbD_and]
  interval_cases i <;> simp

/-- The registers SRST leaves are those of reset with `DONE` set, from every state. -/
theorem readReg_srst (s : State) (r : Nat) :
    (complete (resetRegs (accept s))).readReg r = (complete State.reset).readReg r := by
  unfold State.readReg
  split <;> rfl

/-! ## STEP and RUN by the flags (R82, R85) -/

theorem seqOk_iff (s : State) : seqOk s = true ↔ s.regs.status.initOk = true ∧ s.regs.status.mfOk = true :=
  Bool.and_eq_true_iff

theorem seqOk_eq_false_iff (s : State) :
    seqOk s = false ↔ s.regs.status.initOk = false ∨ s.regs.status.mfOk = false :=
  Bool.and_eq_false_iff

/-- Without both flags STEP and RUN fail. -/
theorem exec_loop_of_not_seqOk {i : Instr} {s : State} (hi : i = .step ∨ i = .run) (h : seqOk s = false) :
    exec i s = .next (fail .seq (accept s)) := by
  have hflags : ¬ seqOk (accept s) = true := Bool.eq_false_iff.1 h
  obtain rfl | rfl := hi
  · exact congrArg Host.Outcome.next (if_neg hflags)
  · exact congrArg Host.Outcome.next (if_neg hflags)

section
variable {s : State} (hseq : seqOk s = true)
include hseq

/-- STEP is one pass of the loop. -/
theorem exec_step_of_seqOk : exec .step s = .next (complete (runLoop 1 (accept s))) :=
  congrArg Host.Outcome.next (stepBody_eq_runLoop (s := accept s) hseq)

theorem exec_run_of_seqOk : exec .run s = .next (complete (runLoop (runFuel s) (accept s))) :=
  congrArg Host.Outcome.next (if_pos hseq)

end

/-! ## The loop, pass by pass (R85) -/

theorem runLoop_of_stop {s : State} (h : s.regs.status.stop = true) (n : Nat) : runLoop n s = s := by
  cases n with
  | zero => rfl
  | succ n => exact if_pos h

theorem runLoop_succ_of_go {s : State} (h : s.regs.status.stop = false) (n : Nat) :
    runLoop (n + 1) s = runLoop n (iterate s) := by
  rw [runLoop, if_neg (Bool.eq_false_iff.1 h)]

theorem runLoop_add (m n : Nat) (s : State) : runLoop (m + n) s = runLoop n (runLoop m s) := by
  induction m generalizing s with
  | zero => rw [Nat.zero_add]; rfl
  | succ m ih =>
    cases hstop : s.regs.status.stop with
    | true => simp only [runLoop_of_stop hstop]
    | false => rw [Nat.succ_add, runLoop_succ_of_go hstop, runLoop_succ_of_go hstop, ih]

/-- Once stopped, more passes change nothing. -/
theorem runLoop_eq_of_le {m n : Nat} {s : State} (hle : m ≤ n) (h : (runLoop m s).regs.status.stop = true) :
    runLoop n s = runLoop m s := by
  rw [← Nat.add_sub_cancel' hle, runLoop_add, runLoop_of_stop h]

/-- RUN's fuel is one more than the iterations that fit, so one performed uses up one. -/
theorem runFuel_eq_advance_add_one {s : State} (hwf : s.par.wf = true) (hroom : s.regs.nout.toNat ≠ s.par.capOut) :
    runFuel s = runFuel (advance s) + 1 := by
  have hcap := capOut_lt hwf
  have hlimit : (BitVec.ofNat 32 s.par.capOut).toNat = s.par.capOut := toNat_ofNat_of_lt (by omega)
  have hne : s.regs.nout ≠ BitVec.ofNat 32 s.par.capOut := fun h => hroom (by rw [h, hlimit])
  simp only [runFuel, advance_par, advance_regs_eq]
  generalize BitVec.ofNat 32 s.par.capOut = c at hne
  bv_omega

/-- RUN's fuel suffices: the loop stops at the latest when `NOUT` reaches the capacity (log 19). -/
theorem runLoop_runFuel_stop {s : State} (hwf : s.par.wf = true) :
    (runLoop (runFuel s) s).regs.status.stop = true := by
  induction hn : runFuel s generalizing s with
  | zero => exact absurd hn (Nat.succ_ne_zero _)
  | succ n ih =>
    cases hstop : s.regs.status.stop with
    | true => rw [runLoop_of_stop hstop]; exact hstop
    | false =>
      rw [runLoop_succ_of_go hstop]
      obtain ⟨c, -, hs⟩ | ⟨hgo, hs⟩ := iterate_cases s
      · have hstopped : (stopLoop c s).regs.status.stop = true := rfl
        rw [hs, runLoop_of_stop hstopped]
        exact hstopped
      · obtain ⟨-, -, -, hroom⟩ := (stopTest_none_iff s).1 hgo
        have hfuel := runFuel_eq_advance_add_one hwf hroom
        rw [hs]
        exact ih (by simpa using hwf) (by omega)

section
variable {s : State} (hseq : seqOk s = true) (hgoing : s.regs.status.stop = false)
include hseq hgoing

/-- A STEP that does not find the loop stopped performs the body of an iteration. -/
theorem exec_step_of_go : exec .step s = .next (complete (iterate (accept s))) :=
  (exec_step_of_seqOk hseq).trans
    (congrArg (fun u => Host.Outcome.next (complete u)) (runLoop_succ_of_go (s := accept s) hgoing 0))

theorem exec_step_of_stopTest_some {c : StopCause} (htest : stopTest s = some c) :
    exec .step s = .next (complete (stopLoop c (accept s))) := by
  have haccept : stopTest (accept s) = some c := htest
  rw [exec_step_of_go hseq hgoing, iterate, haccept]

theorem exec_step_of_stopTest_none (htest : stopTest s = none) : exec .step s = .next (stepDone s) := by
  have haccept : stopTest (accept s) = none := htest
  rw [exec_step_of_go hseq hgoing, iterate, haccept]
  rfl

end

/-! ## Repeated STEP (R85) -/

/-- The state with the engine idle, as a command leaves it. -/
def parked (s : State) : State := { s with eng := .idle }

theorem complete_parked (s : State) : complete (parked s) = complete s := rfl

/-- An iteration does not read what the engine is in the middle of. -/
theorem iterate_parked (s : State) : iterate (parked s) = parked (iterate s) := by
  have hted : tedSelected (parked s) = parked (tedSelected s) := by
    unfold tedSelected
    rw [show (parked s).regs.cfg.tedSel = s.regs.cfg.tedSel from rfl]
    split <;> rfl
  have htest : stopTest (parked s) = stopTest s := rfl
  unfold iterate
  rw [htest]
  cases stopTest s with
  | some c => rfl
  | none => simp only [advance, hted]; rfl

theorem runLoop_parked (n : Nat) (s : State) : runLoop n (parked s) = parked (runLoop n s) := by
  induction n generalizing s with
  | zero => rfl
  | succ n ih =>
    cases hstop : s.regs.status.stop with
    | true => rw [runLoop_of_stop hstop, runLoop_of_stop (s := parked s) hstop]
    | false => rw [runLoop_succ_of_go hstop, runLoop_succ_of_go (s := parked s) hstop, iterate_parked, ih]

/-- The report stays as acceptance left it until the command completes (60_exceptions.md R99). -/
theorem runLoop_accepted (n : Nat) (s : State) :
    (runLoop n (accept s)).regs.status.accepted = (runLoop n (accept s)).regs.status := by
  refine runLoop_induction (P := fun u => u.regs.status.accepted = u.regs.status) ?_ n rfl
  intro u hu
  obtain ⟨c, -, hs⟩ | ⟨-, hs⟩ := iterate_cases u
  · rw [hs]
    exact congrArg (Status.stopped c) hu
  · rw [hs, advance_status]
    exact hu

/-- Between two commands only the completion of one and the acceptance of the other happen, which undo each other. -/
theorem accept_complete_runLoop (n : Nat) (s : State) :
    accept (complete (runLoop n (accept s))) = parked (runLoop n (accept s)) := by
  have haccept (u : State) (hu : u.regs.status.accepted = u.regs.status) : accept (complete u) = parked u := by
    show parked { u with regs := { u.regs with status := u.regs.status.accepted } } = _
    rw [hu]
  exact haccept _ (runLoop_accepted n s)

theorem iterate_seqOk (s : State) : seqOk (iterate s) = seqOk s := by
  obtain ⟨c, -, hs⟩ | ⟨-, hs⟩ := iterate_cases s
  · rw [hs]; rfl
  · rw [hs]; simp only [seqOk, advance_status]

theorem runLoop_seqOk (n : Nat) (s : State) : seqOk (runLoop n s) = seqOk s :=
  runLoop_induction (P := fun u => seqOk u = seqOk s) (fun u hu => (iterate_seqOk u).trans hu) n rfl

/-- STEP commands one after the other are as many passes of RUN's loop. -/
theorem stepTimes_succ {s : State} (hseq : seqOk s = true) (n : Nat) :
    stepTimes (n + 1) s = .next (complete (runLoop (n + 1) (accept s))) := by
  induction n generalizing s with
  | zero => simp only [stepTimes, exec_step_of_seqOk hseq]
  | succ n ih =>
    have hnext : seqOk (complete (runLoop 1 (accept s))) = true := (runLoop_seqOk 1 (accept s)).trans hseq
    calc stepTimes (n + 1 + 1) s
        = stepTimes (n + 1) (complete (runLoop 1 (accept s))) := by
          rw [stepTimes]; simp only [exec_step_of_seqOk hseq]
      _ = .next (complete (runLoop (n + 1) (parked (runLoop 1 (accept s))))) := by
          rw [ih hnext, accept_complete_runLoop]
      _ = .next (complete (runLoop (1 + (n + 1)) (accept s))) := by
          rw [runLoop_parked, complete_parked, runLoop_add 1 (n + 1)]
      _ = .next (complete (runLoop (n + 1 + 1) (accept s))) := by rw [Nat.add_comm 1]

/-! ## What the loop leaves unchanged (R83) -/

theorem SameRegs.trans {xs : List Nat} {s t u : State} (hst : SameRegs xs s t) (htu : SameRegs xs t u) :
    SameRegs xs s u :=
  fun r hr => (htu r hr).trans (hst r hr)

theorem SameHost.trans {s t u : State} (hst : SameHost s t) (htu : SameHost t u) : SameHost s u := by
  obtain ⟨hpar, hscript, hseen, hlat, hera⟩ := hst
  obtain ⟨hpar', hscript', hseen', hlat', hera'⟩ := htu
  exact ⟨hpar'.trans hpar, hscript'.trans hscript, hseen'.trans hseen, hlat'.trans hlat, hera'.trans hera⟩

theorem iterate_sameRegs (s : State) : SameRegs [1, 11, 12, 13, 14, 19, 20, 21] s (iterate s) := by
  obtain ⟨c, -, hs⟩ | ⟨-, hs⟩ := iterate_cases s
  · rw [hs]; exact sameRegs_loopState rfl
  · rw [hs]; exact sameRegs_loopState (advance_regs_eq s)

theorem iterate_sameHost (s : State) : SameHost s (iterate s) := by
  obtain ⟨hpar, -, hscript, hseen, hlat, hera⟩ := iterate_frame s
  exact ⟨hpar, hscript, hseen, hlat, hera⟩

theorem runLoop_sameRegs (n : Nat) (s : State) : SameRegs [1, 11, 12, 13, 14, 19, 20, 21] s (runLoop n s) :=
  runLoop_induction (P := SameRegs _ s) (fun u hu => hu.trans (iterate_sameRegs u)) n fun _ _ => rfl

theorem runLoop_sameHost (n : Nat) (s : State) : SameHost s (runLoop n s) :=
  runLoop_induction (P := SameHost s) (fun u hu => hu.trans (iterate_sameHost u)) n ⟨rfl, rfl, rfl, rfl, rfl⟩

/-- The loop keeps its operands, as it writes none of their registers. -/
theorem runLoop_operands (n : Nat) (s : State) : (runLoop n s).regs.nsps = s.regs.nsps ∧
    (runLoop n s).regs.nrx = s.regs.nrx ∧ (runLoop n s).regs.nmf = s.regs.nmf :=
  have hregs := runLoop_sameRegs n s
  ⟨PortVal.word.inj (hregs 3 (by decide)), PortVal.word.inj (hregs 8 (by decide)),
    PortVal.word.inj (hregs 18 (by decide))⟩

/-- Acceptance and completion change no register but `STATUS`. -/
theorem runDone_sameRegs (s : State) :
    SameRegs [1, 11, 12, 13, 14, 19, 20, 21] s (complete (runLoop (runFuel s) (accept s))) := by
  have haccept : SameRegs [1, 11, 12, 13, 14, 19, 20, 21] s (accept s) := sameRegs_loopState rfl
  exact (haccept.trans (runLoop_sameRegs _ _)).trans (sameRegs_loopState rfl)

/-- Acceptance and completion store nothing. -/
theorem runDone_sameElems {P : Nat → Nat → Prop} (s : State)
    (h : SameElems P (accept s) (runLoop (runFuel s) (accept s))) :
    SameElems P s (complete (runLoop (runFuel s) (accept s))) := by
  have haccept : SameElems P s (accept s) := sameElems_of_eq _ rfl rfl rfl
  exact (haccept.trans h).trans (sameElems_of_eq _ rfl rfl rfl)

/-- From `s` on, elements were appended to OUT, DERR and DTAU within the capacity, and nothing else was stored. -/
structure Appended (s u : State) : Prop where
  par : u.par = s.par
  grown : s.regs.nout.toNat ≤ u.regs.nout.toNat
  fits : u.regs.nout.toNat ≤ s.par.capOut
  elems : SameElems
    (fun sp n => (sp = 6 ∨ sp = 7 ∨ sp = 8) ∧ s.regs.nout.toNat ≤ n ∧ n < u.regs.nout.toNat) s u

namespace Appended
variable {s u : State}

theorem advance (h : Appended s u) (hwf : s.par.wf = true) (hroom : u.regs.nout.toNat ≠ u.par.capOut) :
    Appended s (advance u) := by
  have hcap := capOut_lt hwf
  obtain ⟨hpar, hgrown, hfits, helems⟩ := h
  rw [hpar] at hroom
  have hnout : (Machine.advance u).regs.nout.toNat = u.regs.nout.toNat + 1 := by
    rw [advance_regs_eq]
    exact toNat_succ_of_lt (by omega)
  refine ⟨(advance_par u).trans hpar, by omega, by omega, ?_⟩
  rw [hnout]
  refine (helems.mono ?earlier).trans ((advance_sameElems u).mono ?latest)
  case earlier => exact fun sp n ⟨hsp, hlow, hhigh⟩ => ⟨hsp, hlow, by omega⟩
  case latest => exact fun sp n ⟨hsp, hn⟩ => ⟨hsp, by omega, by omega⟩

theorem iterate (h : Appended s u) (hwf : s.par.wf = true) : Appended s (iterate u) := by
  obtain ⟨c, -, hs⟩ | ⟨hgo, hs⟩ := iterate_cases u
  · rw [hs]
    exact ⟨h.par, h.grown, h.fits, h.elems.trans (sameElems_of_eq _ rfl rfl rfl)⟩
  · obtain ⟨-, -, -, hroom⟩ := (stopTest_none_iff u).1 hgo
    rw [hs]
    exact h.advance hwf hroom

end Appended

theorem runLoop_appended {s : State} (hwf : s.par.wf = true) (hfits : s.regs.nout.toNat ≤ s.par.capOut) (n : Nat) :
    Appended s (runLoop n s) :=
  runLoop_induction (P := Appended s) (fun _ hu => hu.iterate hwf) n ⟨rfl, le_rfl, hfits, fun _ _ _ => rfl⟩

/-! ## How many iterations a run performs (R86) -/

/-- `floor((NMF − 1)/N)`. -/
def lastSymbol (s : State) : Int := ((s.regs.nmf.toNat : Int) - 1) / s.regs.nsps.toInt

namespace LoopInv
variable {s : State}

/-- `TAU` moves an iteration by at most a symbol, so its end index lies in one of the two symbols from `K` on. -/
theorem endIndex_bounds (h : LoopInv s) (hinit : s.regs.status.initOk = true) :
    (s.regs.kidx.toNat : Int) * s.regs.nsps.toInt ≤ endIndex s ∧
      endIndex s ≤ ((s.regs.kidx.toNat : Int) + 2) * s.regs.nsps.toInt := by
  obtain ⟨hlow, hhigh⟩ := h.offset hinit
  rw [add_mul, endIndex, startIndex, baseIndex]
  omega

/-- An iteration whose samples are in the live part has `K ≤ floor((NMF − 1)/N)`. -/
theorem kidx_le_lastSymbol (h : LoopInv s) (hinit : s.regs.status.initOk = true)
    (hend : endIndex s ≤ (s.regs.nmf.toNat : Int) - 1) : (s.regs.kidx.toNat : Int) ≤ lastSymbol s := by
  obtain ⟨hnsps, -, -⟩ := h.base.configured hinit
  obtain ⟨hlow, -⟩ := h.endIndex_bounds hinit
  exact (Int.le_ediv_iff_mul_le hnsps).2 (hlow.trans hend)

/-- Where the end of the buffer stops the loop, at most one symbol before the last is missing. -/
theorem lastSymbol_sub_one_le_kidx (h : LoopInv s) (hinit : s.regs.status.initOk = true)
    (hend : (s.regs.nmf.toNat : Int) - 1 < endIndex s) : lastSymbol s - 1 ≤ (s.regs.kidx.toNat : Int) := by
  obtain ⟨hnsps, -, -⟩ := h.base.configured hinit
  obtain ⟨-, hhigh⟩ := h.endIndex_bounds hinit
  have hlast : lastSymbol s < (s.regs.kidx.toNat : Int) + 2 :=
    (Int.ediv_lt_iff_lt_mul hnsps).2 (hend.trans_le hhigh)
  omega

/-- Where the sequence is long enough and OUT has room for the bound, only the end of the buffer or the bound itself
stops the loop (R84, R86 (b)). -/
theorem lastSymbol_sub_one_le_of_stopTest (h : LoopInv s) (hinit : s.regs.status.initOk = true) {c : StopCause}
    (hstop : stopTest s = some c) (hnrx : 2 * s.regs.nsps.toInt ≤ (s.regs.nrx.toNat : Int))
    (hcap : lastSymbol s + 1 ≤ (s.par.capOut : Int)) : lastSymbol s - 1 ≤ (s.regs.kidx.toNat : Int) := by
  by_cases hend : endIndex s ≤ (s.regs.nmf.toNat : Int) - 1
  · have hfull : s.regs.nout.toNat = s.par.capOut := by
      by_contra hroom
      have hnone := (stopTest_none_iff s).2 ⟨hnrx, h.startIndex_nonneg hinit, hend, hroom⟩
      exact nomatch hnone.symm.trans hstop
    rw [h.base.counts]
    omega
  · exact h.lastSymbol_sub_one_le_kidx hinit (not_le.1 hend)

end LoopInv

/-- What holds between the passes of RUN from the start of a run: R86 (a), and R86 (b) once the loop has stopped. -/
structure RunPass (s : State) : Prop where
  inv : LoopInv s
  init : s.regs.status.initOk = true
  upper : (s.regs.kidx.toNat : Int) ≤ lastSymbol s + 1
  lower : s.regs.status.stop = true → 2 * s.regs.nsps.toInt ≤ (s.regs.nrx.toNat : Int) →
    lastSymbol s + 1 ≤ (s.par.capOut : Int) → lastSymbol s - 1 ≤ (s.regs.kidx.toNat : Int)

namespace RunPass
variable {s : State}

/-- No iteration has been performed, and the quotient is at least −1. -/
theorem of_start (h : LoopInv s) (hinit : s.regs.status.initOk = true) (hstop : s.regs.status.stop = false)
    (hkidx : s.regs.kidx = 0) : RunPass s where
  inv := h
  init := hinit
  upper := by
    obtain ⟨hnsps, -, -⟩ := h.base.configured hinit
    have hlast : -1 ≤ lastSymbol s := (Int.le_ediv_iff_mul_le hnsps).2 (by omega)
    have hzero : s.regs.kidx.toNat = 0 := congrArg BitVec.toNat hkidx
    omega
  lower := fun hstopped => absurd (hstop.symm.trans hstopped) Bool.false_ne_true

theorem advance (h : RunPass s) (htest : stopTest s = none) : RunPass (advance s) := by
  obtain ⟨-, -, hend, hroom⟩ := (stopTest_none_iff s).1 htest
  obtain ⟨-, -, -, -, hout⟩ := h.inv.base.lengths
  have hcap := capOut_lt h.inv.base.params
  have hkidx : (Machine.advance s).regs.kidx.toNat = s.regs.kidx.toNat + 1 := by
    rw [advance_regs_eq]
    exact toNat_succ_of_lt (by rw [h.inv.base.counts]; omega)
  have hlast : lastSymbol (Machine.advance s) = lastSymbol s := by simp only [lastSymbol, advance_regs_eq]
  refine ⟨h.inv.advance hroom, by rw [advance_status]; exact h.init, ?upper, fun hstop hnrx hcap => ?lower⟩
  case upper =>
    have hle := h.inv.kidx_le_lastSymbol h.init hend
    omega
  case lower =>
    rw [advance_regs_eq] at hstop hnrx
    rw [advance_par, hlast] at hcap
    have hle := h.lower hstop hnrx hcap
    omega

theorem iterate (h : RunPass s) : RunPass (iterate s) := by
  obtain ⟨c, htest, hs⟩ | ⟨htest, hs⟩ := iterate_cases s
  · have hinv := h.inv.iterate h.init
    rw [hs] at hinv ⊢
    exact ⟨hinv, h.init, h.upper, fun _ => h.inv.lastSymbol_sub_one_le_of_stopTest h.init htest⟩
  · rw [hs]
    exact h.advance htest

end RunPass

end Sys2Proof.Machine

namespace Sys2Proof.Proofs
open Sys2Proof Sys2Proof.Machine

/-- Settles O11: NOP is acceptance and completion, which keep the fields of `STATUS` outside the report. -/
theorem nopOnlyClearsTheReport : Obligations.NopOnlyClearsTheReport := by
  refine ⟨rfl, fun s => ⟨complete (accept s), rfl, rfl, rfl, sameRegs_status _ rfl, sameElems_of_eq _ rfl rfl rfl,
    ⟨rfl, rfl, rfl, rfl, rfl⟩, fun hread => ?_⟩⟩
  have himage : s.regs.status.image s.busy = 0x506 := PortVal.word.inj hread
  show PortVal.word ((doneStatus s.regs.status).image false) = _
  rw [Status.image_doneStatus s.busy, himage]
  decide

/-- Settles O12: the registers SRST leaves do not depend on the state, and a busy engine drops the word. -/
theorem srstResetsEveryRegister : Obligations.SrstResetsEveryRegister := by
  refine ⟨rfl, fun s => ⟨complete (resetRegs (accept s)), rfl, ?registers⟩,
    fun s w k rest heng hscript => ?busy⟩
  case registers =>
    simp only [readReg_srst s]
    exact ⟨by decide, by decide, by decide, by decide, rfl, sameElems_of_eq _ rfl rfl rfl, rfl, rfl, rfl, rfl, rfl⟩
  case busy =>
    exact ⟨dropCommand { s with script := rest, eng := .command w k }, step_of_busy heng hscript, rfl,
      sameRegs_status _ rfl, sameElems_of_eq _ rfl rfl rfl⟩

/-- Settles O49: the flags are tested first, and a stopped loop performs no pass. -/
theorem stepAndRunNeedBothFlags : Obligations.StepAndRunNeedBothFlags := by
  intro i s hi
  refine ⟨fun hflags => ?fails, fun hinit hmf hstop => ?stopped⟩
  case fails =>
    exact ⟨_, exec_loop_of_not_seqOk hi ((seqOk_eq_false_iff s).2 hflags), failedOnly_fail_accept ..⟩
  case stopped =>
    have hseq := (seqOk_iff s).2 ⟨hinit, hmf⟩
    have hexec : exec i s = .next (complete (accept s)) := by
      obtain rfl | rfl := hi
      · rw [exec_step_of_seqOk hseq, runLoop_of_stop (s := accept s) hstop]
      · rw [exec_run_of_seqOk hseq, runLoop_of_stop (s := accept s) hstop]
    exact ⟨_, hexec, rfl, sameRegs_status _ rfl, sameElems_of_eq _ rfl rfl rfl, rfl, rfl, rfl, rfl, rfl⟩

/-- Settles O50: the chain of conditions is the one of `stopTest`, whose outcome decides how STEP ends. -/
theorem stepStopsWithTheFirstCause : Obligations.StepStopsWithTheFirstCause := by
  intro s hinit hmf hgoing n start stopsWith
  have hseq := (seqOk_iff s).2 ⟨hinit, hmf⟩
  have hstops {c : StopCause} (htest : stopTest s = some c) : stopsWith c :=
    ⟨_, exec_step_of_stopTest_some hseq hgoing htest, rfl, sameRegs_status _ rfl, sameElems_of_eq _ rfl rfl rfl,
      rfl, rfl, rfl, rfl, rfl⟩
  unfold stopTest at hstops
  split
  next hnrx => exact hstops (if_pos hnrx)
  next hnrx =>
    rw [if_neg hnrx] at hstops
    split
    next hstart => exact hstops (if_pos hstart)
    next hstart =>
      rw [if_neg (c := startIndex s < 0) hstart] at hstops
      split
      next hend => exact hstops (if_pos hend)
      next hend =>
        rw [if_neg (c := (s.regs.nmf.toNat : Int) - 1 < endIndex s) hend] at hstops
        split
        next hfull => exact hstops (if_pos hfull)
        next hfull =>
          have htest : stopTest s = none :=
            (stopTest_none_iff s).2 ⟨not_lt.1 hnrx, not_lt.1 hstart, not_lt.1 hend, hfull⟩
          exact ⟨_, exec_step_of_stopTest_none hseq hgoing htest, congrArg Regs.status (stepDone_regs s)⟩

/-- Settles O54: the loop stops within its fuel, and RUN leaves what its passes leave. -/
theorem runEndsStopped : Obligations.RunEndsStopped := by
  intro s hwf hinit hmf
  have hstop : (runLoop (runFuel s) (accept s)).regs.status.stop = true := runLoop_runFuel_stop (s := accept s) hwf
  have herr : (runLoop (runFuel s) (accept s)).regs.status.err = false :=
    (congrArg Status.err (runLoop_accepted (runFuel s) s)).symm
  refine ⟨_, exec_run_of_seqOk ((seqOk_iff s).2 ⟨hinit, hmf⟩), hstop, rfl, herr, rfl, runDone_sameRegs s,
    runDone_sameElems s (runLoop_sameElems _ _), runLoop_sameHost (runFuel s) (accept s), fun hfits => ?appends⟩
  obtain ⟨-, hgrown, hfits', helems⟩ := runLoop_appended (s := accept s) hwf hfits (runFuel s)
  exact ⟨hgrown, hfits', runDone_sameElems s helems⟩

/-- Settles O55: both are passes of one loop, and the STEP commands end with the first pass that leaves it stopped. -/
theorem runEqualsRepeatedStep : Obligations.RunEqualsRepeatedStep := by
  intro s hwf hinit hmf
  have hseq := (seqOk_iff s).2 ⟨hinit, hmf⟩
  have hfuel : (runLoop (runFuel s) (accept s)).regs.status.stop = true := runLoop_runFuel_stop (s := accept s) hwf
  have hstops : ∃ n, (runLoop (n + 1) (accept s)).regs.status.stop = true := ⟨_, hfuel⟩
  have hfirst := Nat.find_spec hstops
  have hwithin : Nat.find hstops + 1 ≤ runFuel s := Nat.succ_le_succ (Nat.find_min' hstops hfuel)
  refine ⟨Nat.find hstops, _, stepTimes_succ hseq _, ?run, hfirst, fun m hpos hle => ?earlier⟩
  case run => rw [exec_run_of_seqOk hseq, runLoop_eq_of_le hwithin hfirst]
  case earlier =>
    obtain ⟨k, rfl⟩ := Nat.exists_eq_add_of_le' hpos
    exact ⟨_, stepTimes_succ hseq k, Bool.eq_false_iff.2 (Nat.find_min hstops hle)⟩

/-- Settles O56: the bounds hold between the passes of the loop, whose operands RUN does not change. -/
theorem runIsBoundedByTheBuffer : Obligations.RunIsBoundedByTheBuffer := by
  intro s t hinv hinit hmf hgoing hkidx hrun last n
  rw [exec_run_of_seqOk ((seqOk_iff s).2 ⟨hinit, hmf⟩)] at hrun
  cases hrun
  have hstart : RunPass (accept s) := .of_start hinv.accept hinit hgoing hkidx
  have hpass := runLoop_induction (P := RunPass) (fun _ hu => hu.iterate) (runFuel s) hstart
  have hstop : (runLoop (runFuel s) (accept s)).regs.status.stop = true :=
    runLoop_runFuel_stop (s := accept s) hinv.base.params
  obtain ⟨hnsps, hnrx, hnmf⟩ := runLoop_operands (runFuel s) (accept s)
  obtain ⟨hpar, -⟩ := runLoop_sameHost (runFuel s) (accept s)
  have hlast : lastSymbol (runLoop (runFuel s) (accept s)) = last / n := by rw [lastSymbol, hnsps, hnmf]; rfl
  obtain ⟨-, -, hupper, hlower⟩ := hpass
  rw [hlast] at hupper hlower
  rw [hnsps, hnrx, hpar] at hlower
  exact ⟨hupper, hlower hstop⟩

end Sys2Proof.Proofs
end

section
/-! PROOFS. Bytes as bits on the host (46_environment.md R90): what `pack` puts in front for each byte, and what
`unpack` takes off again. -/

namespace Sys2Proof.Machine

/-! ## A byte as its bits, most significant first -/

/-- The `k` leading bits of a byte. All eight are what `pack` writes for it (`pack_cons`). -/
def leadingBits (b : BitVec 8) (k : Nat) : List Bool := (List.range k).map b.getMsbD

@[simp] theorem length_leadingBits (b : BitVec 8) (k : Nat) : (leadingBits b k).length = k := by simp [leadingBits]

theorem leadingBits_succ (b : BitVec 8) {k : Nat} (hk : k < 8) :
    leadingBits b (k + 1) = leadingBits b k ++ [b.toNat.testBit (7 - k)] := by
  have hbit : b.getMsbD k = b.toNat.testBit (7 - k) := by
    rw [BitVec.getMsbD_eq_getLsbD, decide_eq_true hk, Bool.true_and, BitVec.testBit_toNat]
  rw [leadingBits, List.range_succ, List.map_append, List.map_singleton, hbit, leadingBits]

/-- One more bit of `n`, read from the top: it doubles what is read so far and is added to it. -/
theorem two_mul_div_two_pow_succ_add_testBit (n i : Nat) :
    2 * (n / 2 ^ (i + 1)) + (n.testBit i).toNat = n / 2 ^ i := by
  rw [Nat.toNat_testBit, Nat.pow_succ, ← Nat.div_div_eq_div_mul]
  exact Nat.div_add_mod (n / 2 ^ i) 2

/-- The sum `byteOf` forms has read, after `k` bits, the byte without its other `8 - k` bits. -/
theorem foldl_leadingBits (b : BitVec 8) {k : Nat} (hk : k ≤ 8) :
    (leadingBits b k).foldl (fun acc x => 2 * acc + x.toNat) 0 = b.toNat / 2 ^ (8 - k) := by
  induction k with
  | zero => exact (Nat.div_eq_of_lt b.isLt).symm
  | succ k ih =>
    have hread : 8 - k = 7 - k + 1 := by omega
    have hleft : 8 - (k + 1) = 7 - k := by omega
    rw [leadingBits_succ b hk, List.foldl_append, ih (Nat.le_of_succ_le hk), hread, hleft]
    exact two_mul_div_two_pow_succ_add_testBit b.toNat (7 - k)

theorem byteOf_leadingBits (b : BitVec 8) : byteOf (leadingBits b 8) = b := by
  rw [byteOf, foldl_leadingBits b le_rfl, Nat.sub_self, Nat.pow_zero, Nat.div_one, BitVec.ofNat_toNat,
    BitVec.setWidth_eq]

/-! ## `pack` and `unpack`, a byte at a time -/

theorem pack_cons (b : BitVec 8) (c : List (BitVec 8)) : pack (b :: c) = leadingBits b 8 ++ pack c := List.flatMap_cons

theorem unpack_leadingBits_append (b : BitVec 8) (r : List Bool) : unpack (leadingBits b 8 ++ r) = b :: unpack r :=
  calc unpack (leadingBits b 8 ++ r)
    _ = byteOf (leadingBits b 8) :: unpack r := rfl
    _ = b :: unpack r := by rw [byteOf_leadingBits]

theorem length_pack (c : List (BitVec 8)) : (pack c).length = 8 * c.length := by
  induction c with
  | nil => rfl
  | cons b c ih =>
    rw [pack_cons, List.length_append, length_leadingBits, ih, List.length_cons, Nat.mul_succ, Nat.add_comm]

theorem unpack_pack (c : List (BitVec 8)) : unpack (pack c) = c := by
  induction c with
  | nil => rfl
  | cons b c ih => rw [pack_cons, unpack_leadingBits_append, ih]

end Sys2Proof.Machine

namespace Sys2Proof.Proofs
open Sys2Proof Sys2Proof.Machine

/-- Settles O60: for each byte, `unpack` takes off the eight bits that `pack` puts in front. -/
theorem unpackInvertsPack : Obligations.UnpackInvertsPack := fun c => ⟨length_pack c, unpack_pack c⟩

end Sys2Proof.Proofs
end

section
/-! PROOFS. How a command ends (60_exceptions.md R99, R100; 70_reset_and_hazards.md R119), what the reset event leaves
(70_reset_and_hazards.md R111), and the split execution of a command that reads of `STATUS` overlap
(70_reset_and_hazards.md R120). -/

namespace Sys2Proof.Machine

/-! ## Every command completes (R99, R119) -/

theorem exec_eq_next (i : Instr) (s : State) : ∃ t, exec i s = .next t := by
  cases i <;> exact ⟨_, rfl⟩

theorem CommandEffect.sameHost {i : Instr} {a t : State} (he : CommandEffect a i t) : SameHost a t := by
  cases he with
  | loop _ n => exact runLoop_sameHost n a
  | nop | srst | map | ups | shape | mfilt | init | failed | initFailed | mfiltFailed =>
    exact ⟨rfl, rfl, rfl, rfl, rfl⟩

theorem CommandEffect.done {i : Instr} {a t : State} (he : CommandEffect a i t) :
    t.busy = false ∧ t.regs.status.done = true := by
  cases he <;> exact ⟨rfl, rfl⟩

/-- No instruction touches the parameters or the host's own data. -/
theorem exec_sameHost {i : Instr} {s t : State} (h : exec i s = .next t) : SameHost s t := by
  cases hi : isCommand i with
  | true => exact (exec_effect hi h).sameHost
  | false =>
    cases i with
    | tedGa | tedGc | tedZc | lfUpd => cases h; exact ⟨rfl, rfl, rfl, rfl, rfl⟩
    | nop | map | ups | shape | mfilt | init | step | run | srst => exact nomatch hi

/-! ## A command that fails (R100) -/

/-- `STATUS` after the first act of a command: INIT and MFILT each clear a flag before they check anything
(44_loop_filter.md R78, 42_matched_filter.md R69). -/
def firstAct (i : Instr) (st : Status) : Status :=
  { st with
    initOk := if i = .init then false else st.initOk
    mfOk := if i = .mfilt then false else st.mfOk }

theorem firstAct_of_ne {i : Instr} (hi : i ≠ .init ∧ i ≠ .mfilt) (st : Status) : firstAct i st = st := by
  obtain ⟨hinit, hmfilt⟩ := hi
  rw [firstAct, if_neg hinit, if_neg hmfilt]

/-- While the loop runs, `ERR` is as acceptance left it. -/
theorem runLoop_accept_err (n : Nat) (s : State) : (runLoop n (accept s)).regs.status.err = false :=
  (congrArg Status.err (runLoop_accepted n s)).symm

/-- A command that leaves `ERR` = 1 has done nothing between its first act and `fail`. -/
theorem CommandEffect.eq_fail {i : Instr} {s t : State} (he : CommandEffect (accept s) i t)
    (herr : t.regs.status.err = true) :
    ∃ c, t = fail c { s with regs := { s.regs with status := firstAct i s.regs.status } } := by
  cases he with
  | nop | srst | map | ups | shape | mfilt | init => exact nomatch herr
  | loop _ n => exact nomatch (runLoop_accept_err n s).symm.trans herr
  | failed hi => rw [firstAct_of_ne hi]; exact ⟨_, rfl⟩
  | initFailed | mfiltFailed => exact ⟨_, rfl⟩

/-! ## The host's record of reads is no operand

What a command computes does not depend on what the host has read, so reads that land before it completes only add
to that record. -/

/-- The state in which the host's reads have returned `seen`. -/
def withSeen (seen : List PortVal) (s : State) : State := { s with seen := seen }

section
variable (seen : List PortVal) (s : State)

theorem mapBody_withSeen : mapBody (withSeen seen s) = withSeen seen (mapBody s) := by
  simp only [mapBody, apply_ite (withSeen seen)]
  rfl

theorem upsBody_withSeen : upsBody (withSeen seen s) = withSeen seen (upsBody s) := by
  simp only [upsBody, apply_ite (withSeen seen)]
  rfl

theorem shapeBody_withSeen : shapeBody (withSeen seen s) = withSeen seen (shapeBody s) := by
  simp only [shapeBody, apply_ite (withSeen seen)]
  rfl

theorem mfiltBody_withSeen : mfiltBody (withSeen seen s) = withSeen seen (mfiltBody s) := by
  simp only [mfiltBody, apply_ite (withSeen seen)]
  rfl

theorem initBody_withSeen : initBody (withSeen seen s) = withSeen seen (initBody s) := by
  simp only [initBody, apply_ite (withSeen seen)]
  rfl

theorem tedSelected_withSeen : tedSelected (withSeen seen s) = withSeen seen (tedSelected s) := by
  unfold tedSelected
  rw [show (withSeen seen s).regs = s.regs from rfl]
  split <;> rfl

theorem advance_withSeen : advance (withSeen seen s) = withSeen seen (advance s) := by
  rw [advance, tedSelected_withSeen]
  rfl

theorem iterate_withSeen : iterate (withSeen seen s) = withSeen seen (iterate s) := by
  have htest : stopTest (withSeen seen s) = stopTest s := rfl
  unfold iterate
  rw [htest]
  cases stopTest s with
  | some c => rfl
  | none => exact advance_withSeen seen s

end

theorem runLoop_withSeen (seen : List PortVal) (n : Nat) (s : State) :
    runLoop n (withSeen seen s) = withSeen seen (runLoop n s) := by
  induction n generalizing s with
  | zero => rfl
  | succ n ih =>
    cases hstop : s.regs.status.stop with
    | true => rw [runLoop_of_stop hstop, runLoop_of_stop (s := withSeen seen s) hstop]
    | false => rw [runLoop_succ_of_go hstop, runLoop_succ_of_go (s := withSeen seen s) hstop, iterate_withSeen, ih]

theorem stepBody_withSeen (seen : List PortVal) (s : State) :
    stepBody (withSeen seen s) = withSeen seen (stepBody s) := by
  cases hseq : seqOk s with
  | true =>
    rw [stepBody_eq_runLoop hseq, stepBody_eq_runLoop (s := withSeen seen s) hseq, runLoop_withSeen]
    rfl
  | false =>
    have hflags : ¬ seqOk s = true := Bool.eq_false_iff.1 hseq
    rw [stepBody, stepBody, if_neg hflags, if_neg (c := seqOk (withSeen seen s) = true) hflags]
    rfl

theorem runBody_withSeen (seen : List PortVal) (s : State) :
    runBody (withSeen seen s) = withSeen seen (runBody s) := by
  rw [runBody, runBody, runLoop_withSeen, apply_ite (withSeen seen)]
  rfl

theorem exec_withSeen {i : Instr} {s t : State} (seen : List PortVal) (h : exec i s = .next t) :
    exec i (withSeen seen s) = .next (withSeen seen t) := by
  cases i with
  | nop | srst | tedGa | tedGc | tedZc | lfUpd => cases h; rfl
  | map => cases h; exact congrArg Host.Outcome.next (mapBody_withSeen seen (accept s))
  | ups => cases h; exact congrArg Host.Outcome.next (upsBody_withSeen seen (accept s))
  | shape => cases h; exact congrArg Host.Outcome.next (shapeBody_withSeen seen (accept s))
  | mfilt => cases h; exact congrArg Host.Outcome.next (mfiltBody_withSeen seen (clearMfOk (accept s)))
  | init => cases h; exact congrArg Host.Outcome.next (initBody_withSeen seen (clearInitOk (accept s)))
  | step => cases h; exact congrArg Host.Outcome.next (stepBody_withSeen seen (accept s))
  | run => cases h; exact congrArg Host.Outcome.next (runBody_withSeen seen (accept s))

theorem engineRun_withSeen {w : Word} {s t : State} (seen : List PortVal) (h : engineRun w s = .next t) :
    engineRun w (withSeen seen s) = .next (withSeen seen t) := by
  unfold engineRun at h ⊢
  split at h
  · exact exec_withSeen seen h
  · cases h
    rfl

/-! ## A command in flight (R120) -/

/-- A command that has been accepted already does what it does when it is accepted and run at once. -/
theorem exec_accept {i : Instr} (hi : isCommand i = true) (s : State) : exec i (accept s) = exec i s := by
  cases i with
  | nop | map | ups | shape | mfilt | init | step | run | srst => rfl
  | tedGa | tedGc | tedZc | lfUpd => exact nomatch hi

theorem engineRun_accept (w : Word) (s : State) : engineRun w (accept s) = engineRun w s := by
  unfold engineRun
  split
  · exact exec_accept (isCommand_of_decode ‹_›) s
  · rfl

/-- The command `w` accepted in `u`, with the host about to read `STATUS` `m` times before it runs. -/
def inFlight (w : Word) (m : Nat) (u : State) : State :=
  { accept u with eng := .command w m, script := List.replicate m (.rd 1) ++ u.script }

/-- What a read of `STATUS` returns while a command accepted in `u` executes. -/
def busyReport (u : State) : PortVal := .word (u.regs.status.accepted.image true)

/-- The acceptance of `w`, where `lat` lets `m + 1` transactions land while it executes. -/
theorem step_accepts {s : State} {w : Word} {m : Nat} {lats : List Nat} {rest : List HostOp}
    (h : HostNext s (.wr 0 (.word w)) (List.replicate (m + 1) (.rd 1) ++ rest)) (hlat : s.lat = (m + 1) :: lats) :
    step s = .next (inFlight w (m + 1) { s with script := rest, lat := lats }) := by
  rw [step_of_hostNext_cmd h, issue, hlat]
  rfl

/-- The atomic transition of `w`: no transaction lands while it executes. -/
theorem step_atomic {s : State} {w : Word} {lats : List Nat} {rest : List HostOp} (heng : s.eng = .idle) :
    step { s with script := .wr 0 (.word w) :: rest, lat := 0 :: lats } =
      engineRun w { s with script := rest, lat := lats } :=
  step_of_hostNext_cmd (s := { s with script := .wr 0 (.word w) :: rest, lat := 0 :: lats }) ⟨heng, rfl⟩

theorem step_inFlight_succ (w : Word) (m : Nat) (u : State) :
    step (inFlight w (m + 1) u) = .next (inFlight w m (u.observe (busyReport u))) :=
  step_of_busy (s := inFlight w (m + 1) u) rfl rfl

theorem step_inFlight_zero (w : Word) {u : State} (heng : u.eng = .idle) :
    step (inFlight w 0 u) = engineRun w u := by
  have hparked : { inFlight w 0 u with eng := .idle } = accept u := by
    simp only [inFlight, accept, heng, List.replicate_zero, List.nil_append]
  rw [← engineRun_accept, ← hparked]
  rfl

theorem coreRun_succ_of_next {M : Host.Core} {s t : M.State} (h : M.step s = .next t) (n : Nat) :
    M.run (n + 1) s = M.run n t := by
  simp only [Host.Core.run, h]

theorem core_run_succ {s t : State} (h : step s = .next t) (n : Nat) : core.run (n + 1) s = core.run n t :=
  coreRun_succ_of_next (M := core) h n

/-- The reads of `STATUS` land one after the other, each adding its report to the record, then the command runs. -/
theorem core_run_inFlight {w : Word} {u a : State} (heng : u.eng = .idle) (hrun : engineRun w u = .next a) (m : Nat) :
    core.run (m + 1) (inFlight w m u) =
      .next (withSeen (List.replicate m (busyReport u) ++ u.seen) a) := by
  induction m generalizing u a with
  | zero => exact core_run_succ ((step_inFlight_zero w heng).trans (engineRun_withSeen u.seen hrun)) 0
  | succ m ih =>
    calc core.run (m + 1 + 1) (inFlight w (m + 1) u)
      _ = core.run (m + 1) (inFlight w m (u.observe (busyReport u))) := core_run_succ (step_inFlight_succ w m u) _
      _ = .next (withSeen (List.replicate m (busyReport u) ++ busyReport u :: u.seen) a) :=
        ih (u := u.observe (busyReport u)) (a := withSeen (busyReport u :: u.seen) a) heng
          (engineRun_withSeen (busyReport u :: u.seen) hrun)
      _ = .next (withSeen (List.replicate (m + 1) (busyReport u) ++ u.seen) a) := by
        rw [List.replicate_succ', List.append_assoc, List.singleton_append]

end Sys2Proof.Machine

namespace Sys2Proof.Proofs
open Sys2Proof Sys2Proof.Machine

/-- Settles O14: idle or busy, the reset event lands as `hardReset`. -/
theorem resetEventAbandonsTheCommand : Obligations.ResetEventAbandonsTheCommand := by
  intro s rest hscript heng
  obtain hidle | ⟨w, k, hbusy⟩ := heng
  · exact ⟨_, step_of_hostNext ⟨hidle, hscript⟩ nofun, rfl, rfl, rfl, rfl, rfl⟩
  · exact ⟨_, step_of_busy hbusy hscript, rfl, rfl, rfl, rfl, rfl⟩

/-- Settles O7: every effect of a command ends with its completion or with `fail`. -/
theorem everyInstructionCompletes : Obligations.EveryInstructionCompletes := by
  intro i s
  obtain ⟨t, h⟩ := exec_eq_next i s
  exact ⟨t, h, exec_sameHost h, fun hi => (exec_effect hi h).done⟩

/-- Settles O8: the only effects with `ERR` = 1 are those of `fail`, before which only INIT and MFILT have acted. -/
theorem failedCommandWritesOnlyStatus : Obligations.FailedCommandWritesOnlyStatus := by
  intro i s t hi h herr
  obtain ⟨c, rfl⟩ := (exec_effect hi h).eq_fail herr
  exact ⟨sameRegs_status _ rfl, sameElems_of_eq _ rfl rfl rfl, rfl⟩

/-- Settles O6: the first step accepts the command, each read that lands adds its report to the record, and the command
then runs as it would have run at once. -/
theorem splitCommandEqualsAtomicCommand : Obligations.SplitCommandEqualsAtomicCommand := by
  intro s a w k lats rest heng hscript hlat hatomic
  have hrun : engineRun w { s with script := rest, lat := lats } = .next a := (step_atomic heng).symm.trans hatomic
  calc core.run (k + 3) s
    _ = core.run (k + 1 + 1) (inFlight w (k + 1) { s with script := rest, lat := lats }) :=
      core_run_succ (step_accepts ⟨heng, hscript⟩ hlat) (k + 2)
    _ = .next { a with seen := List.replicate (k + 1) (.word (s.regs.status.accepted.image true)) ++ s.seen } :=
      core_run_inFlight (u := { s with script := rest, lat := lats }) heng hrun (k + 1)

end Sys2Proof.Proofs
end
